-- ==== Sys2Proof/Word.lean ====
section
/-! DEFINITION. The widths of the block (00_scope.md R6, R7): every value is an unsigned bit vector. -/

namespace Sys2Proof

/-- One byte: of the message buffer, and of the byte strings the hash provider works on (R9). -/
abbrev Byte := BitVec 8

/-- `WORD = 32`: a host bus access, a command word, a control register (R6). -/
abbrev HWord := BitVec 32

/-- `W = 256`: an operand value, a modulus, a coordinate, a scalar (R6). -/
abbrev Word := BitVec 256

/-- A byte offset in the 4096-byte register window, `0x000` to `0xFFF` (20_memory.md R60). -/
abbrev Offset := BitVec 12

end Sys2Proof
end

