-- ==== Sys2Proof/Config.lean ====
section
/-! DEFINITION. What is fixed for the machine: the implementation parameters of 00_scope.md R6, the
type of the hash provider (10_state.md R48), and the one value the spec leaves open. -/

namespace Sys2Proof

/-- The hash provider, a pair of pure functions (44_ecdsa.md R211, R212). A digest is 32 bytes, held as
the 256-bit number whose big-endian string it is (R9). The instance the machine uses is
`Sys2Proof.Machine.hashProvider`. -/
structure HashProvider where
  sha256     : List Byte → Word
  hmacSha256 : List Byte → List Byte → Word

namespace Config

/-- Width in bits of every operand value. -/
abbrev W : Nat := 256
/-- Number of operand registers. -/
abbrev NREG : Nat := 16
/-- Number of point registers. -/
abbrev NPT : Nat := 4
/-- Capacity in bytes of the message buffer. -/
abbrev MSG_MAX : Nat := 256
/-- The Montgomery radix of the multiplier datapath (41_field.md R160). -/
abbrev R_MONT : Nat := 2 ^ 256

/-- FREE VALUE (log 15): the minimal big-endian byte string of the value 0, which the source leaves
undefined and which "the choice is the host's" settles (46_host_encodings.md R258). It has no body, so
no proof can see it; only `derInt 0` reads it, and no step of the machine does. -/
opaque derZero : List Byte

end Config
end Sys2Proof
end

