-- ==== Sys2Proof/Syntax.lean ====
section
/-! DEFINITION. The command set, one constructor per row of spec/opcode_table.json, the fields in
assembly order `d, a, b, c` (30_encoding.md R93, R94, R96). -/

namespace Sys2Proof

/-- An operand-register index: all 16 are legal (R91). -/
abbrev RIdx := Fin Config.NREG

/-- A point-register index: only 0 to 3 are legal (R91). -/
abbrev PIdx := Fin Config.NPT

inductive Instr where
  -- moves (40_move.md)
  | nop
  | mov     (d a : RIdx)
  | fraw    (d a : RIdx)
  -- prime field unit (41_field.md)
  | fredP   (d a : RIdx)
  | fredN   (d a : RIdx)
  | fnewP   (d a : RIdx)
  | fnewN   (d a : RIdx)
  | fadd    (d a b : RIdx)
  | fsub    (d a b : RIdx)
  | fmul    (d a b : RIdx)
  | fdiv    (d a b : RIdx)
  | finv    (d a : RIdx)
  | fpow    (d a b : RIdx)
  | fpowNeg (d a b : RIdx)
  | fsqrt   (d a : RIdx)
  | fisz    (a : RIdx)
  | feq     (a b : RIdx)
  -- point adder/doubler (42_point.md)
  | pinf    (d : PIdx)
  | pnew    (d : PIdx) (a b : RIdx)
  | pnewi   (d : PIdx) (a b : RIdx)
  | ponc    (a b : RIdx)
  | padd    (d a b : PIdx)
  | pdbl    (d a : PIdx)
  | pgetx   (d : RIdx) (a : PIdx)
  | pgety   (d : RIdx) (a : PIdx)
  | peq     (a b : PIdx)
  | pisinf  (a : PIdx)
  | pmov    (d a : PIdx)
  | pgen    (d : PIdx)
  -- scalar multiplier (43_scalar.md)
  | smul    (d a : PIdx) (b : RIdx)
  -- ECDSA engine (44_ecdsa.md)
  | keygen  (a : RIdx)
  | keyclr
  | pubkey  (d : PIdx)
  | nonce   (d : RIdx)
  | sign    (d a b c : RIdx)
  | verify  (d : PIdx) (a b c : RIdx)
  deriving DecidableEq, Repr

end Sys2Proof
end

