-- ==== Sys2Proof/WellFormed.lean ====
section
/-! DEFINITION. Which instructions are legal. The index ranges of 30_encoding.md R92 (3) are in the
types of the fields; the one condition left is R92 (5). -/

namespace Sys2Proof

/-- 30_encoding.md R92 (5): "for `SIGN`, `d ≠ a`". -/
def Instr.wf : Instr → Bool
  | .sign d a _ _ => d != a
  | .nop | .mov .. | .fraw .. | .fredP .. | .fredN .. | .fnewP .. | .fnewN .. | .fadd .. | .fsub ..
  | .fmul .. | .fdiv .. | .finv .. | .fpow .. | .fpowNeg .. | .fsqrt .. | .fisz .. | .feq ..
  | .pinf .. | .pnew .. | .pnewi .. | .ponc .. | .padd .. | .pdbl .. | .pgetx .. | .pgety ..
  | .peq .. | .pisinf .. | .pmov .. | .pgen .. | .smul .. | .keygen .. | .keyclr | .pubkey ..
  | .nonce .. | .verify .. => true

end Sys2Proof
end

