-- ==== Sys2Proof/Decode.lean ====
section
/-! DEFINITION. The command word: decoder, total on every 32-bit word and rejecting by name, and after it
the encoder, both from 30_encoding.md R90, R92, R93. "Decoding depends on nothing but the word" (R92). -/

namespace Sys2Proof

/-- Why a word is illegal (30_encoding.md R92, R95). All of them complete with `IllegalCommand`. -/
inductive DecodeReject where
  /-- (1) `op` is not one of the 33 opcodes. -/
  | reservedOpcode
  /-- (2) an index field the opcode does not use is not 0. -/
  | unusedField
  /-- (3) a point-register index above 3. -/
  | pointIndex
  /-- (4) an `fn` bit the opcode does not use is set. -/
  | modifierBits
  /-- (5) `SIGN` with `d = a`. -/
  | signSameDestination
  deriving DecidableEq, Repr

/-- The six fields of format `C` (R90). -/
structure Fields where
  op : Nat
  d  : Nat
  a  : Nat
  b  : Nat
  c  : Nat
  fn : Nat
  deriving DecidableEq, Repr

/-- `bits[hi:lo]` of `v` (00_scope.md R7). -/
def bitsOf (v hi lo : Nat) : Nat := v / 2 ^ lo % 2 ^ (hi + 1 - lo)

/-- The fields of a word, by the table of R90. -/
def fieldsOf (w : HWord) : Fields where
  op := bitsOf w.toNat 31 24
  d  := bitsOf w.toNat 23 20
  a  := bitsOf w.toNat 19 16
  b  := bitsOf w.toNat 15 12
  c  := bitsOf w.toNat 11 8
  fn := bitsOf w.toNat 7 0

/-- An operand-register field: 4 bits, every value legal (R91). -/
def regField (n : Nat) : RIdx := ⟨n % 16, Nat.mod_lt n (by decide)⟩

/-- A point-register field: at most 3 (R92 (3)). -/
def ptField (n : Nat) : Except DecodeReject PIdx :=
  if h : n < 4 then .ok ⟨n, h⟩ else .error .pointIndex

/-- R92 (2): every listed unused index field is 0. -/
def unusedZero (fields : List Nat) : Except DecodeReject Unit :=
  if fields.all (· == 0) then .ok () else .error .unusedField

/-- R92 (4) for an opcode that uses no modifier bit. -/
def noModifier (fn : Nat) : Except DecodeReject Unit :=
  if fn = 0 then .ok () else .error .modifierBits

/-- R92 (4) for an opcode with one modifier bit, of weight `bit`: the instruction without it and with it. -/
def oneModifier (fn bit : Nat) (clear set : Instr) : Except DecodeReject Instr :=
  if fn = 0 then .ok clear else if fn = bit then .ok set else .error .modifierBits

/-- The opcode map (R93), row by row. -/
def decodeFields (f : Fields) : Except DecodeReject Instr :=
  match f.op with
  | 0x00 => do unusedZero [f.d, f.a, f.b, f.c]; noModifier f.fn; return .nop
  | 0x01 => do unusedZero [f.b, f.c]; noModifier f.fn; return .mov (regField f.d) (regField f.a)
  | 0x02 => do unusedZero [f.b, f.c]; noModifier f.fn; return .fraw (regField f.d) (regField f.a)
  | 0x10 => do
      unusedZero [f.b, f.c]
      oneModifier f.fn 1 (.fredP (regField f.d) (regField f.a)) (.fredN (regField f.d) (regField f.a))
  | 0x11 => do
      unusedZero [f.b, f.c]
      oneModifier f.fn 1 (.fnewP (regField f.d) (regField f.a)) (.fnewN (regField f.d) (regField f.a))
  | 0x12 => do
      unusedZero [f.c]; noModifier f.fn; return .fadd (regField f.d) (regField f.a) (regField f.b)
  | 0x13 => do
      unusedZero [f.c]; noModifier f.fn; return .fsub (regField f.d) (regField f.a) (regField f.b)
  | 0x14 => do
      unusedZero [f.c]; noModifier f.fn; return .fmul (regField f.d) (regField f.a) (regField f.b)
  | 0x15 => do
      unusedZero [f.c]; noModifier f.fn; return .fdiv (regField f.d) (regField f.a) (regField f.b)
  | 0x16 => do unusedZero [f.b, f.c]; noModifier f.fn; return .finv (regField f.d) (regField f.a)
  | 0x17 => do
      unusedZero [f.c]
      oneModifier f.fn 2 (.fpow (regField f.d) (regField f.a) (regField f.b))
        (.fpowNeg (regField f.d) (regField f.a) (regField f.b))
  | 0x18 => do unusedZero [f.b, f.c]; noModifier f.fn; return .fsqrt (regField f.d) (regField f.a)
  | 0x19 => do unusedZero [f.d, f.b, f.c]; noModifier f.fn; return .fisz (regField f.a)
  | 0x1A => do unusedZero [f.d, f.c]; noModifier f.fn; return .feq (regField f.a) (regField f.b)
  | 0x20 => do unusedZero [f.a, f.b, f.c]; noModifier f.fn; return .pinf (← ptField f.d)
  | 0x21 => do
      unusedZero [f.c]; noModifier f.fn; return .pnew (← ptField f.d) (regField f.a) (regField f.b)
  | 0x22 => do
      unusedZero [f.c]; noModifier f.fn; return .pnewi (← ptField f.d) (regField f.a) (regField f.b)
  | 0x23 => do unusedZero [f.d, f.c]; noModifier f.fn; return .ponc (regField f.a) (regField f.b)
  | 0x24 => do
      unusedZero [f.c]; noModifier f.fn; return .padd (← ptField f.d) (← ptField f.a) (← ptField f.b)
  | 0x25 => do unusedZero [f.b, f.c]; noModifier f.fn; return .pdbl (← ptField f.d) (← ptField f.a)
  | 0x26 => do unusedZero [f.b, f.c]; noModifier f.fn; return .pgetx (regField f.d) (← ptField f.a)
  | 0x27 => do unusedZero [f.b, f.c]; noModifier f.fn; return .pgety (regField f.d) (← ptField f.a)
  | 0x28 => do unusedZero [f.d, f.c]; noModifier f.fn; return .peq (← ptField f.a) (← ptField f.b)
  | 0x29 => do unusedZero [f.d, f.b, f.c]; noModifier f.fn; return .pisinf (← ptField f.a)
  | 0x2A => do unusedZero [f.b, f.c]; noModifier f.fn; return .pmov (← ptField f.d) (← ptField f.a)
  | 0x2B => do unusedZero [f.a, f.b, f.c]; noModifier f.fn; return .pgen (← ptField f.d)
  | 0x30 => do
      unusedZero [f.c]; noModifier f.fn; return .smul (← ptField f.d) (← ptField f.a) (regField f.b)
  | 0x40 => do unusedZero [f.d, f.b, f.c]; noModifier f.fn; return .keygen (regField f.a)
  | 0x41 => do unusedZero [f.d, f.a, f.b, f.c]; noModifier f.fn; return .keyclr
  | 0x42 => do unusedZero [f.a, f.b, f.c]; noModifier f.fn; return .pubkey (← ptField f.d)
  | 0x43 => do unusedZero [f.a, f.b, f.c]; noModifier f.fn; return .nonce (regField f.d)
  | 0x44 => do
      noModifier f.fn
      if regField f.d = regField f.a then .error .signSameDestination
      else return .sign (regField f.d) (regField f.a) (regField f.b) (regField f.c)
  | 0x45 => do
      noModifier f.fn
      return .verify (← ptField f.d) (regField f.a) (regField f.b) (regField f.c)
  | _ => .error .reservedOpcode

/-- The decoder: the instruction a command word is, or why it is illegal. -/
def decode (w : HWord) : Except DecodeReject Instr := decodeFields (fieldsOf w)

/-- The instruction the decoder reads from the table's `w` of `nbits` bits: bits above `nbits` are 0, and a
command word is one 32-bit bus value, so bit i of `w` is bit i of the word (R90). -/
def decodeTableWord (nbits w : Nat) : Option Instr :=
  (decode (BitVec.ofNat 32 (w % 2 ^ nbits))).toOption

/-- "`word = op·2^24 + d·2^20 + a·2^16 + b·2^12 + c·2^8 + fn`" (R90). -/
def packWord (f : Fields) : HWord :=
  BitVec.ofNat 32 (f.op * 2 ^ 24 + f.d * 2 ^ 20 + f.a * 2 ^ 16 + f.b * 2 ^ 12 + f.c * 2 ^ 8 + f.fn)

/-- The fields of an instruction, by the opcode map (R93); unused fields are 0. -/
def Instr.fields : Instr → Fields
  | .nop           => ⟨0x00, 0, 0, 0, 0, 0⟩
  | .mov d a       => ⟨0x01, d, a, 0, 0, 0⟩
  | .fraw d a      => ⟨0x02, d, a, 0, 0, 0⟩
  | .fredP d a     => ⟨0x10, d, a, 0, 0, 0⟩
  | .fredN d a     => ⟨0x10, d, a, 0, 0, 1⟩
  | .fnewP d a     => ⟨0x11, d, a, 0, 0, 0⟩
  | .fnewN d a     => ⟨0x11, d, a, 0, 0, 1⟩
  | .fadd d a b    => ⟨0x12, d, a, b, 0, 0⟩
  | .fsub d a b    => ⟨0x13, d, a, b, 0, 0⟩
  | .fmul d a b    => ⟨0x14, d, a, b, 0, 0⟩
  | .fdiv d a b    => ⟨0x15, d, a, b, 0, 0⟩
  | .finv d a      => ⟨0x16, d, a, 0, 0, 0⟩
  | .fpow d a b    => ⟨0x17, d, a, b, 0, 0⟩
  | .fpowNeg d a b => ⟨0x17, d, a, b, 0, 2⟩
  | .fsqrt d a     => ⟨0x18, d, a, 0, 0, 0⟩
  | .fisz a        => ⟨0x19, 0, a, 0, 0, 0⟩
  | .feq a b       => ⟨0x1A, 0, a, b, 0, 0⟩
  | .pinf d        => ⟨0x20, d, 0, 0, 0, 0⟩
  | .pnew d a b    => ⟨0x21, d, a, b, 0, 0⟩
  | .pnewi d a b   => ⟨0x22, d, a, b, 0, 0⟩
  | .ponc a b      => ⟨0x23, 0, a, b, 0, 0⟩
  | .padd d a b    => ⟨0x24, d, a, b, 0, 0⟩
  | .pdbl d a      => ⟨0x25, d, a, 0, 0, 0⟩
  | .pgetx d a     => ⟨0x26, d, a, 0, 0, 0⟩
  | .pgety d a     => ⟨0x27, d, a, 0, 0, 0⟩
  | .peq a b       => ⟨0x28, 0, a, b, 0, 0⟩
  | .pisinf a      => ⟨0x29, 0, a, 0, 0, 0⟩
  | .pmov d a      => ⟨0x2A, d, a, 0, 0, 0⟩
  | .pgen d        => ⟨0x2B, d, 0, 0, 0, 0⟩
  | .smul d a b    => ⟨0x30, d, a, b, 0, 0⟩
  | .keygen a      => ⟨0x40, 0, a, 0, 0, 0⟩
  | .keyclr        => ⟨0x41, 0, 0, 0, 0, 0⟩
  | .pubkey d      => ⟨0x42, d, 0, 0, 0, 0⟩
  | .nonce d       => ⟨0x43, d, 0, 0, 0, 0⟩
  | .sign d a b c  => ⟨0x44, d, a, b, c, 0⟩
  | .verify d a b c => ⟨0x45, d, a, b, c, 0⟩

/-- The command word of an instruction. -/
def encode (i : Instr) : HWord := packWord i.fields

end Sys2Proof
end

