-- ==== Sys2Proof/Machine/State.lean ====
section
/-! DEFINITION. The state of the block as plain data (10_state.md R20), its reset value (R49), and the
reasons a step could stop. -/

namespace Sys2Proof.Machine

/-- The tag of an operand register (10_state.md R22); code `0b11` is "never held by any register" and has
no constructor. -/
inductive Tag where
  | int | fp | fn
  deriving DecidableEq, Repr

/-- The two field instances of the block (R22): base field, modulus `MOD_P`; scalar field, modulus `MOD_N`. -/
inductive FieldSel where
  | p | n
  deriving DecidableEq, Repr

/-- An operand register `{val, tag}` (R21). -/
structure Reg where
  val : Word
  tag : Tag
  deriving DecidableEq, Repr

/-- A point register: the identity, or a pair of coordinates, so that "a point with exactly one coordinate
present cannot be represented at all" (R24). -/
inductive Point where
  | inf
  | aff (x y : Word)
  deriving DecidableEq, Repr

/-- The key slot (R27). -/
structure KeySlot where
  valid  : Bool
  secret : Word
  pub    : Point
  deriving DecidableEq, Repr

/-- The empty slot: "When `KEY.valid = 0`, `KEY.secret = 0` and `KEY.pub = INF`" (R27). -/
def KeySlot.empty : KeySlot := ⟨false, 0, .inf⟩

/-- The six configuration registers, the source's Cryptographic Curve (R30). -/
structure CurveConfig where
  modP   : Word
  modN   : Word
  curveA : Word
  curveB : Word
  genX   : Word
  genY   : Word
  deriving DecidableEq, Repr

/-- Reset values of the configuration registers (R31 to R36, R49). -/
def CurveConfig.secp256k1 : CurveConfig where
  modP   := 0xFFFFFFFFFFFFFFFFFFFFFFFFFFFFFFFFFFFFFFFFFFFFFFFFFFFFFFFEFFFFFC2F#256
  modN   := 0xFFFFFFFFFFFFFFFFFFFFFFFFFFFFFFFEBAAEDCE6AF48A03BBFD25E8CD0364141#256
  curveA := 0#256
  curveB := 7#256
  genX   := 0x79BE667EF9DCBBAC55A06295CE870B07029BFCDB2DCE28D959F2815B16F81798#256
  genY   := 0x483ADA7726A3C4655DA4FBFC0E1108A8FD17B448A68554199C47D08FFB10D4B8#256

/-- Byte-addressed storage: (window byte offset, byte) pairs in one canonical form, `Memory.wf`. The only
bytes of the window are the message buffer's (R29, log 13). -/
abbrev Memory := List Host.Cell

/-- The error kinds (60_exceptions.md R270). `invalidEncoding` is the host side's alone (R273). -/
inductive ErrKind where
  | pointNotOnCurve | divisionByZero | invalidEncoding | mismatchedField | invalidSecret
  | illegalCommand | absentCoordinate | noKey | badConfig
  deriving DecidableEq, Repr

/-- The states of the nonce generator (44_ecdsa.md R221). -/
inductive NoncePhase where
  | check | hash | init | seedK | seedV | gen | test | reseedK | reseedV | wb
  deriving DecidableEq, Repr

/-- The hidden registers of the nonce generator, 32 bytes each (10_state.md R47 (a)). -/
structure NonceRegs where
  K  : Word
  V  : Word
  T  : Word
  h1 : Word
  deriving DecidableEq, Repr

/-- A host bus access at a byte offset of the window, `width` bytes wide (20_memory.md R62, R63, R69). Only
32-bit accesses are ever accepted, so a write carries 32 bits of data (log 14). -/
inductive Access where
  | read  (off : Offset) (width : Nat)
  | write (off : Offset) (width : Nat) (v : HWord)
  deriving DecidableEq, Repr

/-- What happens next (log 1): a bus access of the host, the event `RESET` (70_reset_and_hazards.md R310),
or a turn of the sequencer. A list of them is an interleaving of atomic steps (20_memory.md R72). -/
inductive Event where
  | bus (a : Access)
  | reset
  | sequencer
  deriving DecidableEq, Repr

/-- A bus response (20_memory.md R62, R63): `OKAY` with data, `OKAY` to a write, or `ERROR` "with no data". -/
inductive Response where
  | data (v : HWord)
  | okay
  | error
  deriving DecidableEq, Repr

/-- No step of this block stops with a fault: an error is a completion (60_exceptions.md R280, R294), a
refused access is a response (R282), a nonce search that never ends is an endless run
(70_reset_and_hazards.md R324). So there is no constructor. -/
inductive Fault where
  deriving DecidableEq, Repr

/-- Why a step has no meaning. -/
inductive Refusal where
  /-- Raised by an arm of `exec` whose instruction has no meaning yet; safe. No arm raises it now. -/
  | notModelled (mnemonic : String)
  deriving DecidableEq, Repr

end Sys2Proof.Machine

namespace Sys2Proof.Machine

/-- The complete architectural state of the block (10_state.md R20), its hidden state (R47), and the two
fields of the model's own, `events` and `response` (log 1, log 2). -/
structure State where
  /-- `R[0..15]` (R21). -/
  regs     : Vector Reg 16
  /-- `P[0..3]` (R24). -/
  pts      : Vector Point 4
  /-- `KEY` (R27). -/
  key      : KeySlot
  /-- `MSG[0..255]` at offsets `0xC00..0xCFF` (R29). -/
  mem      : Memory
  /-- `MSG_LEN` (R44). -/
  msgLen   : BitVec 9
  /-- `MOD_P, MOD_N, CURVE_A, CURVE_B, GEN_X, GEN_Y` (R30). -/
  cfg      : CurveConfig
  /-- `CMD` (R41). -/
  cmd      : HWord
  /-- `STATUS.BUSY`, the sequencer's state (R38, R42). -/
  busy     : Bool
  /-- `STATUS.DONE` (R42). -/
  done     : Bool
  /-- `STATUS.ERR` (R42). -/
  err      : Bool
  /-- `STATUS.T` (R39). -/
  t        : Bool
  /-- `STATUS.ERRCODE` (R42). -/
  errcode  : BitVec 4
  /-- `CTRL.IE` (R43). -/
  ie       : Bool
  /-- `ERRCMD` (R45). -/
  errcmd   : HWord
  /-- Hidden: the nonce generator's registers (R47 (a)). -/
  nonce    : NonceRegs
  /-- Hidden: the nonce generator's state (44_ecdsa.md R221). -/
  nPhase   : NoncePhase
  /-- The model's own: what happens next; empty means the sequencer's turn. -/
  events   : List Event
  /-- The model's own: the response to the last bus access. -/
  response : Option Response
  deriving DecidableEq, Repr

/-- Outcome of a step of this machine. -/
abbrev Outcome := Host.Outcome State Fault Refusal

/-- The machine right after reset (10_state.md R49). The hidden registers, "unspecified; no rule reads it
before writing it", are 0 and `N_CHECK`: DESIGN CHOICE, log 6. Nothing is pending and no access has been
answered: DESIGN CHOICE, log 1, log 2. -/
def State.reset : State where
  regs     := Vector.replicate 16 ⟨0, .int⟩
  pts      := Vector.replicate 4 .inf
  key      := KeySlot.empty
  mem      := []
  msgLen   := 0
  cfg      := CurveConfig.secp256k1
  cmd      := 0
  busy     := false
  done     := false
  err      := false
  t        := false
  errcode  := 0
  ie       := false
  errcmd   := 0
  nonce    := ⟨0, 0, 0, 0⟩
  nPhase   := .check
  events   := []
  response := none

end Sys2Proof.Machine
end

