-- ==== Sys2Proof/Machine/Flags.lean ====
section
/-! DEFINITION. Flags, codes and the words composed of them: tag codes and `RTAG`, error codes, `STATUS`,
`CTRL`, the interrupt output, the predicate flag `T`. -/

namespace Sys2Proof.Machine

/-- Tag codes (10_state.md R22). -/
def Tag.code : Tag → Nat
  | .int => 0b00
  | .fp  => 0b01
  | .fn  => 0b10

/-- The tag an element of a field carries (R22). -/
def FieldSel.tag : FieldSel → Tag
  | .p => .fp
  | .n => .fn

/-- The field a tag names; `INT` is "element of no field" (R22). -/
def Tag.field : Tag → Option FieldSel
  | .int => none
  | .fp  => some .p
  | .fn  => some .n

/-- Error codes (60_exceptions.md R270). -/
def ErrKind.code : ErrKind → BitVec 4
  | .pointNotOnCurve  => 1
  | .divisionByZero   => 2
  | .invalidEncoding  => 3
  | .mismatchedField  => 4
  | .invalidSecret    => 5
  | .illegalCommand   => 6
  | .absentCoordinate => 7
  | .noKey            => 8
  | .badConfig        => 9

/-- The `STATUS` word (10_state.md R42); `KEYV` is `KEY.valid`; the other bits read 0. -/
def State.statusWord (s : State) : HWord :=
  BitVec.ofNat 32 (s.busy.toNat + 2 * s.done.toNat + 4 * s.err.toNat + 8 * s.t.toNat
    + 16 * s.key.valid.toNat + 256 * s.errcode.toNat)

/-- The `CTRL` word: `IE` in bit 0, `SRST` and the reserved bits read 0 (R43). -/
def State.ctrlWord (s : State) : HWord := BitVec.ofNat 32 s.ie.toNat

/-- The `RTAG` word: "bits `[2i+1 : 2i]` are the tag code of `R[i]`" (R46). -/
def State.rtagWord (s : State) : HWord :=
  BitVec.ofNat 32 (s.regs.toList.foldr (fun r acc => r.tag.code + 4 * acc) 0)

/-- The interrupt output, `CTRL.IE AND STATUS.DONE` "at every instant" (60_exceptions.md R290). -/
def State.irq (s : State) : Bool := s.ie && s.done

/-- `T <- b` (00_scope.md R10, 10_state.md R39). -/
def State.setT (s : State) (b : Bool) : State := { s with t := b }

end Sys2Proof.Machine
end

