-- ==== Sys2Proof/Machine/Ops.lean ====
section
/-! DEFINITION. The named operations over registers and memory, and the life of a command: acceptance,
normal completion, error completion (the block's exception entry), reset. -/

namespace Sys2Proof.Machine

/-! ## Registers -/

/-- `R[i]`. -/
def State.reg (s : State) (i : RIdx) : Reg := s.regs[i.val]

/-- `R[i].val` as an unsigned integer: an integer operand (41_field.md R130). -/
def State.val (s : State) (i : RIdx) : Nat := (s.reg i).val.toNat

/-- `R[i].tag`. -/
def State.tag (s : State) (i : RIdx) : Tag := (s.reg i).tag

/-- `R[i] <- r`, value and tag together (00_scope.md R10). -/
def State.setReg (s : State) (i : RIdx) (r : Reg) : State := { s with regs := s.regs.set i.val r }

/-- `R[i] <- {v, INT}`. -/
def State.setInt (s : State) (i : RIdx) (v : Nat) : State := s.setReg i ⟨BitVec.ofNat 256 v, .int⟩

/-- `R[i] <- {v, f}`: an element of the field `f`. -/
def State.setElem (s : State) (i : RIdx) (f : FieldSel) (v : Nat) : State :=
  s.setReg i ⟨BitVec.ofNat 256 v, f.tag⟩

/-- `P[j]`. -/
def State.pt (s : State) (j : PIdx) : Point := s.pts[j.val]

/-- `P[j] <- Q`. -/
def State.setPt (s : State) (j : PIdx) (q : Point) : State := { s with pts := s.pts.set j.val q }

/-- `KEY <- k`: the three fields together (44_ecdsa.md R215, R216). -/
def State.setKey (s : State) (k : KeySlot) : State := { s with key := k }

/-- `p = MOD_P` (00_scope.md R10). -/
def State.p (s : State) : Nat := s.cfg.modP.toNat

/-- `n = MOD_N`. -/
def State.n (s : State) : Nat := s.cfg.modN.toNat

/-- `a = CURVE_A mod p`. -/
def State.a (s : State) : Nat := s.cfg.curveA.toNat % s.p

/-- `b = CURVE_B mod p`. -/
def State.b (s : State) : Nat := s.cfg.curveB.toNat % s.p

/-- `mod_of`: the modulus of a field (00_scope.md R10). -/
def State.modOf (s : State) : FieldSel → Nat
  | .p => s.p
  | .n => s.n

/-! ## Memory: the message buffer -/

/-- What a byte that no entry lists reads as: the reset contents of `MSG` (10_state.md R49). -/
def Memory.unlisted : Byte := 0

/-- One byte. -/
def Memory.read : Memory → Nat → Byte
  | [], _ => Memory.unlisted
  | (k, v) :: m, a => if k = a then v else Memory.read m a

/-- Store one byte, keeping the canonical form. -/
def Memory.write : Memory → Nat → Byte → Memory
  | [], a, b => if b = Memory.unlisted then [] else [(a, b)]
  | (k, v) :: m, a, b =>
    if a < k then (if b = Memory.unlisted then (k, v) :: m else (a, b) :: (k, v) :: m)
    else if a = k then (if b = Memory.unlisted then m else (a, b) :: m)
    else (k, v) :: Memory.write m a b

/-- The canonical form: addresses strictly rising, no entry equal to what an unlisted address reads as. -/
def Memory.wf : Memory → Bool
  | [] => true
  | (k, v) :: m => v != Memory.unlisted && m.all (fun c => decide (k < c.1)) && Memory.wf m

/-- Every listed address lies in the message buffer's window `0xC00..0xCFF` (20_memory.md R61). -/
def Memory.inWindow (m : Memory) : Bool := m.all (fun c => decide (0xC00 ≤ c.1) && decide (c.1 < 0xD00))

/-- `MSG[i]` is at byte offset `0xC00 + i` (20_memory.md R71 (b)). -/
def msgAddr (i : Nat) : Nat := 0xC00 + i

/-- `MSG[i]`. -/
def State.msgByte (s : State) (i : Nat) : Byte := s.mem.read (msgAddr i)

/-- The message, `MSG[0] ‖ … ‖ MSG[MSG_LEN − 1]` (10_state.md R29). -/
def State.message (s : State) : List Byte := (List.range s.msgLen.toNat).map s.msgByte

/-! ## The life of a command (70_reset_and_hazards.md R320 to R324) -/

/-- Acceptance of a command word (R320): `CMD <- word; BUSY <- 1; DONE, ERR, ERRCODE, T <- 0`. The nonce
generator stands at its first state, `N_CHECK` (44_ecdsa.md R221). -/
def State.accept (s : State) (word : HWord) : State :=
  { s with cmd := word, busy := true, done := false, err := false, errcode := 0, t := false,
           nPhase := .check }

/-- Normal completion (R322) of a command whose writes are already in `s`: `BUSY <- 0; DONE <- 1`, while
"`ERR`, `ERRCODE` stay 0". -/
def State.complete (s : State) : State := { s with busy := false, done := true, nPhase := .check }

/-- TAKING AN EXCEPTION: error completion (60_exceptions.md R280, R294). Only `ERR`, `ERRCODE`, `ERRCMD`,
`BUSY`, `DONE` change; nothing is saved and nothing is vectored. There is no return (R295): the next
acceptance (`State.accept`) clears `ERR` and `ERRCODE`. -/
def State.completeError (s : State) (e : ErrKind) : State :=
  { s with busy := false, done := true, err := true, errcode := e.code, errcmd := s.cmd,
           nPhase := .check }

/-- The end of a command's pseudocode: all its writes at once, or a `raise` and none of them (R322). -/
def finish (s : State) (r : Except ErrKind State) : Outcome :=
  match r with
  | .ok t => .next t.complete
  | .error e => .next (s.completeError e)

/-- The effect of `RESET`, and of a soft reset (R310, R311): every piece of state at its reset value. What
the host does next is not state of the block and stays (log 1); no access is answered (log 2). -/
def State.resetBlock (s : State) : State := { State.reset with events := s.events }

/-- Demotion (10_state.md R37): every tag `INT` with values kept, every point `INF`, the key cleared. -/
def State.demote (s : State) : State :=
  { s with regs := s.regs.map (fun r => { r with tag := .int }),
           pts := Vector.replicate 4 .inf,
           key := KeySlot.empty }

end Sys2Proof.Machine
end

