-- ==== Sys2Proof/Machine/Operands.lean ====
section
/-! DEFINITION. Operand forms: element and integer operands (41_field.md R130), 32-bit slices of wide
registers (20_memory.md R66, R71), and integer/byte-string conversions (00_scope.md R9). -/

namespace Sys2Proof.Machine

/-! ## Operand classes -/

/-- `elem(i)` (41_field.md R130): the field of an element operand, or `MismatchedField`. -/
def elem (s : State) (i : RIdx) : Except ErrKind FieldSel :=
  match (s.tag i).field with
  | none   => .error .mismatchedField
  | some f => .ok f

/-- `same_field(i,j)` (R130). -/
def sameField (s : State) (i j : RIdx) : Except ErrKind FieldSel :=
  if s.tag i = s.tag j then elem s i else .error .mismatchedField

/-- An element operand that must be of a given field (60_exceptions.md R274 (c), (d)). -/
def elemOf (s : State) (f : FieldSel) (i : RIdx) : Except ErrKind Unit :=
  if s.tag i = f.tag then .ok () else .error .mismatchedField

/-! ## 32-bit words of a 256-bit register -/

/-- Word `w` of a wide register, bits `[32w+31 : 32w]` (20_memory.md R71 (a)). -/
def wordOf (v : Word) (w : Fin 8) : HWord := v.extractLsb' (32 * w.val) 32

/-- `v[32w+31 : 32w] <- x`, the other 224 bits unchanged (R66, R67). -/
def setWordOf (v : Word) (w : Fin 8) (x : HWord) : Word :=
  (v &&& ~~~(0xFFFFFFFF#256 <<< (32 * w.val))) ||| (x.setWidth 256 <<< (32 * w.val))

/-! ## Byte strings -/

/-- `int_be(B)`: the first byte most significant; 0 for the empty string (00_scope.md R9). -/
def intBe (bs : List Byte) : Nat := bs.foldl (fun acc b => 256 * acc + b.toNat) 0

/-- The `k`-byte big-endian representation of `v mod 256^k`. -/
def bytesBe : Nat → Nat → List Byte
  | 0, _ => []
  | k + 1, v => bytesBe k (v / 256) ++ [BitVec.ofNat 8 v]

/-- `be32(v)`: 32 bytes, big-endian, zero-padded (R9). -/
def be32 (v : Word) : List Byte := bytesBe 32 v.toNat

/-- A 32-bit word as 4 little-endian bytes: the byte at the lower offset is less significant
(20_memory.md R68, R71 (b)). -/
def byteOfWord (v : HWord) (k : Fin 4) : Byte := v.extractLsb' (8 * k.val) 8

/-- The 32-bit word of 4 little-endian bytes. -/
def wordOfBytes (b0 b1 b2 b3 : Byte) : HWord := b3 ++ b2 ++ b1 ++ b0

end Sys2Proof.Machine
end

