-- ==== Sys2Proof/Machine/Bus.lean ====
section
/-! DEFINITION. The register window (20_memory.md R60 to R71): the map, reads, writes, the busy rule. -/

namespace Sys2Proof.Machine

/-- The configuration registers, in window order (20_memory.md R61). -/
inductive CfgReg where
  | modP | modN | curveA | curveB | genX | genY
  deriving DecidableEq, Repr

/-- A mapped word of the window (R61). -/
inductive Loc where
  | id | cmd | status | ctrl | msgLen | errcmd | rtag
  | cfg (c : CfgReg) (w : Fin 8)
  | reg (i : RIdx) (w : Fin 8)
  | ptX (j : PIdx) (w : Fin 8)
  | ptY (j : PIdx) (w : Fin 8)
  | ptInf (j : PIdx)
  | msg (q : Fin 64)
  deriving DecidableEq, Repr

/-- `ID`, "ASCII MMV1" (10_state.md R40). -/
def idWord : HWord := 0x4D4D5631

/-- The word index `n` of a wide register. -/
def wordIdx (n : Nat) : Fin 8 := ⟨n % 8, Nat.mod_lt n (by decide)⟩

/-- The `k`-th configuration register from `0x100` on. -/
def cfgAt : Nat → Option CfgReg
  | 0 => some .modP
  | 1 => some .modN
  | 2 => some .curveA
  | 3 => some .curveB
  | 4 => some .genX
  | 5 => some .genY
  | _ => none

/-- A word of the point block of `P[j]`, by its byte offset in the block's 0x80 bytes: x, y, `INF`, and a
hole from 0x44 on (R61). -/
def ptLoc (j : PIdx) (o : Nat) : Option Loc :=
  if o < 0x20 then some (.ptX j (wordIdx (o / 4)))
  else if o < 0x40 then some (.ptY j (wordIdx (o / 4)))
  else if o = 0x40 then some (.ptInf j)
  else none

/-- The register map (R61). An offset that is not a multiple of 4 names no word (R69). "Every offset not
listed is unmapped." -/
def locAt (off : Offset) : Option Loc :=
  let o := off.toNat
  if o % 4 ≠ 0 then none
  else if o < 0x100 then
    match o with
    | 0x000 => some .id
    | 0x004 => some .cmd
    | 0x008 => some .status
    | 0x00C => some .ctrl
    | 0x010 => some .msgLen
    | 0x014 => some .errcmd
    | 0x018 => some .rtag
    | _ => none
  else if o < 0x400 then (cfgAt ((o - 0x100) / 0x20)).map (fun c => .cfg c (wordIdx (o / 4)))
  else if o < 0x600 then some (.reg (regField ((o - 0x400) / 0x20)) (wordIdx (o / 4)))
  else if o < 0x800 then none
  else if o < 0xA00 then ptLoc (Fin.ofNat 4 ((o - 0x800) / 0x80)) ((o - 0x800) % 0x80)
  else if o < 0xC00 then none
  else if o < 0xD00 then some (.msg (Fin.ofNat 64 ((o - 0xC00) / 4)))
  else none

/-- Value of a configuration register. -/
def CurveConfig.get (c : CurveConfig) : CfgReg → Word
  | .modP   => c.modP
  | .modN   => c.modN
  | .curveA => c.curveA
  | .curveB => c.curveB
  | .genX   => c.genX
  | .genY   => c.genY

/-- Replace a configuration register. -/
def CurveConfig.set (c : CurveConfig) (r : CfgReg) (v : Word) : CurveConfig :=
  match r with
  | .modP   => { c with modP := v }
  | .modN   => { c with modN := v }
  | .curveA => { c with curveA := v }
  | .curveB => { c with curveB := v }
  | .genX   => { c with genX := v }
  | .genY   => { c with genY := v }

/-- The coordinate fields of a point: "When `INF = 1` the `x` and `y` words read as zero" (10_state.md R24). -/
def Point.coordX : Point → Word
  | .inf => 0
  | .aff x _ => x

def Point.coordY : Point → Word
  | .inf => 0
  | .aff _ y => y

/-- The `INF` word: the flag in bit 0, zeros elsewhere (R24). -/
def Point.infWord : Point → HWord
  | .inf => 1
  | .aff _ _ => 0

/-- A `MSG` word, bytes packed little-endian (R68). -/
def State.msgWord (s : State) (q : Fin 64) : HWord :=
  wordOfBytes (s.msgByte (4 * q)) (s.msgByte (4 * q + 1)) (s.msgByte (4 * q + 2)) (s.msgByte (4 * q + 3))

/-- What a read of a mapped word returns (R62). -/
def readLoc (s : State) : Loc → HWord
  | .id      => idWord
  | .cmd     => s.cmd
  | .status  => s.statusWord
  | .ctrl    => s.ctrlWord
  | .msgLen  => s.msgLen.setWidth 32
  | .errcmd  => s.errcmd
  | .rtag    => s.rtagWord
  | .cfg c w => wordOf (s.cfg.get c) w
  | .reg i w => wordOf (s.reg i).val w
  | .ptX j w => wordOf (s.pt j).coordX w
  | .ptY j w => wordOf (s.pt j).coordY w
  | .ptInf j => (s.pt j).infWord
  | .msg q   => s.msgWord q

/-- Reads the busy rule serves while `BUSY = 1` (R70). -/
def Loc.readableBusy : Loc → Bool
  | .id | .cmd | .status | .ctrl | .msgLen | .errcmd => true
  | .rtag | .cfg .. | .reg .. | .ptX .. | .ptY .. | .ptInf .. | .msg .. => false

/-- Registers that are not read-only (R61, R63). -/
def Loc.writable : Loc → Bool
  | .cmd | .status | .ctrl | .msgLen | .cfg .. | .reg .. | .msg .. => true
  | .id | .errcmd | .rtag | .ptX .. | .ptY .. | .ptInf .. => false

/-- Writes the busy rule accepts while `BUSY = 1`: `CTRL` alone (R70). -/
def Loc.writableBusy (l : Loc) : Bool := l == .ctrl

/-- Accepted write to word `w` of `R[i]` (R66): the slice replaced, the tag `INT`. -/
def State.writeReg (s : State) (i : RIdx) (w : Fin 8) (v : HWord) : State :=
  s.setReg i ⟨setWordOf (s.reg i).val w v, .int⟩

/-- Accepted write to word `w` of a configuration register, with demotion in the same step (R67). -/
def State.writeCfg (s : State) (c : CfgReg) (w : Fin 8) (v : HWord) : State :=
  { s.demote with cfg := s.cfg.set c (setWordOf (s.cfg.get c) w v) }

/-- `MSG[i] <- b`. -/
def State.setMsgByte (s : State) (i : Nat) (b : Byte) : State := { s with mem := s.mem.write (msgAddr i) b }

/-- Accepted write to a `MSG` word (R68). -/
def State.writeMsg (s : State) (q : Fin 64) (v : HWord) : State :=
  let i := 4 * q.val
  let s0 := s.setMsgByte i (byteOfWord v 0)
  let s1 := s0.setMsgByte (i + 1) (byteOfWord v 1)
  let s2 := s1.setMsgByte (i + 2) (byteOfWord v 2)
  s2.setMsgByte (i + 3) (byteOfWord v 3)

/-- Accepted write to `STATUS` (R65): bit 1 clears `DONE`, nothing else changes. -/
def State.writeStatus (s : State) (v : HWord) : State :=
  if v.getLsbD 1 then { s with done := false } else s

/-- Accepted write to `CTRL` (R65, 70_reset_and_hazards.md R311): bit 1 is a soft reset and the rest of the
word is then ignored; otherwise `IE <- v[0]`. -/
def State.writeCtrl (s : State) (v : HWord) : State :=
  if v.getLsbD 1 then s.resetBlock else { s with ie := v.getLsbD 0 }

/-- The effect of an accepted write (R64 to R68). A read-only register has none. -/
def writeLoc (s : State) (l : Loc) (v : HWord) : State :=
  match l with
  | .cmd     => s.accept v
  | .status  => s.writeStatus v
  | .ctrl    => s.writeCtrl v
  | .msgLen  => { s with msgLen := v.setWidth 9 }
  | .cfg c w => s.writeCfg c w v
  | .reg i w => s.writeReg i w v
  | .msg q   => s.writeMsg q v
  | .id | .errcmd | .rtag | .ptX .. | .ptY .. | .ptInf .. => s

/-- The word an access reaches: a 32-bit access at a mapped, aligned offset (R61, R69). -/
def target (off : Offset) (width : Nat) : Option Loc := if width = 4 then locAt off else none

/-- Answer an access. -/
def State.respond (s : State) (r : Response) : State := { s with response := some r }

/-- `MemRead` (R62): no state of the block changes. -/
def busRead (s : State) (off : Offset) (width : Nat) : State :=
  match target off width with
  | some l => if s.busy && !l.readableBusy then s.respond .error else s.respond (.data (readLoc s l))
  | none => s.respond .error

/-- `MemWrite` (R63): `ERROR` and no change, or `OKAY` and the target's effect. -/
def busWrite (s : State) (off : Offset) (width : Nat) (v : HWord) : State :=
  match target off width with
  | some l =>
    if l.writable && (!s.busy || l.writableBusy) then (writeLoc s l v).respond .okay
    else s.respond .error
  | none => s.respond .error

/-- One access of the host, an atomic step (R72). -/
def busStep (s : State) : Access → State
  | .read off width    => busRead s off width
  | .write off width v => busWrite s off width v

end Sys2Proof.Machine
end

