-- ==== Sys2Proof/Machine/Arith.lean ====
section
/-! DEFINITION. The datapath's arithmetic on unsigned integers (00_scope.md R8, 41_field.md R131, R142,
R150): residues, the modular inverter, modular exponentiation, division. -/

namespace Sys2Proof.Machine

/-- `(x + y) mod m` (41_field.md R136). -/
def addMod (m x y : Nat) : Nat := (x + y) % m

/-- "`(a − b) mod m = (a + m − (b mod m)) mod m`" (00_scope.md R8). -/
def subMod (m x y : Nat) : Nat := (x + m - y % m) % m

/-- `(x · y) mod m`: "the full mathematical product reduced once" (41_field.md R138). -/
def mulMod (m x y : Nat) : Nat := x * y % m

/-- Extended Euclid on `(r0, r1)` with cofactors `t0, t1` modulo `m`. A remainder at least shrinks by one a
round, so `fuel > r1` never runs out. -/
def invLoop (m : Nat) : Nat → Nat → Nat → Nat → Nat → Nat
  | 0, _, _, t0, _ => t0
  | fuel + 1, r0, r1, t0, t1 =>
    if r1 = 0 then t0
    else invLoop m fuel r1 (r0 % r1) t1 (subMod m t0 (r0 / r1 * t1))

/-- `inv(x, m)` (00_scope.md R8): for `gcd(x, m) = 1` the `y < m` with `x·y mod m = 1 mod m`. -/
def invMod (x m : Nat) : Nat := invLoop m (x % m + 1) m (x % m) 0 (1 % m)

/-- The modular inverter (41_field.md R142): `inv(x, m)` when `gcd(x, m) = 1`, and `DivisionByZero`
otherwise, for every `m ≥ 1`. -/
def inverter (x m : Nat) : Except ErrKind Nat :=
  if Nat.gcd x m = 1 then .ok (invMod x m) else .error .divisionByZero

/-- `x / y` in the integers modulo `m` (41_field.md R140). -/
def divMod (m x y : Nat) : Except ErrKind Nat := do
  let i ← inverter y m
  return x * i % m

/-- Square and multiply over `fuel` bits of the exponent, least significant first. -/
def powLoop (m : Nat) : Nat → Nat → Nat → Nat → Nat
  | 0, _, _, acc => acc
  | fuel + 1, x, e, acc =>
    if e = 0 then acc
    else powLoop m fuel (x * x % m) (e / 2) (if e % 2 = 1 then acc * x % m else acc)

/-- `x^e mod m` for an exponent of at most `W = 256` bits (00_scope.md R8). -/
def powMod (m x e : Nat) : Nat := powLoop m Config.W (x % m) e (1 % m)

end Sys2Proof.Machine
end

