-- ==== Sys2Proof/Machine/Curve.lean ====
section
/-! DEFINITION. The pure functions of the point unit and the scalar multiplier: `on_curve` (42_point.md
R171), `padd` (R176), `gen` (R183), `smul` (43_scalar.md R201). Coordinates are residues modulo `p`. -/

namespace Sys2Proof.Machine

/-- `on_curve(x, y)`: `(y · y) mod p = (x·x·x + a·x + b) mod p` (R171). -/
def onCurve (p a b x y : Nat) : Bool := y * y % p == (x * x * x + a * x + b) % p

/-- A finite point with the given coordinates. -/
def affine (x y : Nat) : Point := .aff (BitVec.ofNat 256 x) (BitVec.ofNat 256 y)

/-- The third point of the chord or tangent of slope `l` through `(x1, y1)` and a point of abscissa `x2`:
`x3 = (λ·λ − x1 − x2) mod p`, `y3 = (λ·(x1 − x3) − y1) mod p` (R176). -/
def thirdPoint (p l x1 y1 x2 : Nat) : Point :=
  let x3 := subMod p (l * l) (x1 + x2)
  affine x3 (subMod p (l * subMod p x1 x3) y1)

/-- The doubling slope, `(3·x1·x1 + a) / (2·y1)`, or `DivisionByZero` (R176). -/
def tangentSlope (p a x1 y1 : Nat) : Except ErrKind Nat :=
  divMod p ((3 * x1 * x1 + a) % p) (2 * y1 % p)

/-- The chord slope, `(y2 − y1) / (x2 − x1)`, or `DivisionByZero` (R176). -/
def chordSlope (p x1 y1 x2 y2 : Nat) : Except ErrKind Nat :=
  divMod p (subMod p y2 y1) (subMod p x2 x1)

/-- The group law, "five cases, in this order" (R176), for the modulus `p` and the coefficient `a`. -/
def padd (p a : Nat) (P1 P2 : Point) : Except ErrKind Point :=
  match P1, P2 with
  | .inf, Q => .ok Q
  | P, .inf => .ok P
  | .aff x1 y1, .aff x2 y2 =>
    if x1 = x2 ∧ y1 = y2 then
      if y1 = 0 then .ok .inf
      else do
        let l ← tangentSlope p a x1.toNat y1.toNat
        return thirdPoint p l x1.toNat y1.toNat x1.toNat
    else if x1 = x2 then .ok .inf
    else do
      let l ← chordSlope p x1.toNat y1.toNat x2.toNat y2.toNat
      return thirdPoint p l x1.toNat y1.toNat x2.toNat

/-- The loop of `smul` (43_scalar.md R201), one bit of `k` a round, least significant first; "the doubling
after the most significant set bit is not performed". -/
def smulLoop (p a : Nat) : Nat → Nat → Point → Point → Except ErrKind Point
  | 0, _, acc, _ => .ok acc
  | fuel + 1, k, acc, addend =>
    if k = 0 then .ok acc
    else do
      let acc' ← if k % 2 = 1 then padd p a acc addend else .ok acc
      let k' := k / 2
      let addend' ← if k' ≠ 0 then padd p a addend addend else .ok addend
      smulLoop p a fuel k' acc' addend'

/-- `smul(k, P)` for `0 ≤ k < 2^256` (R201): "at most 256 iterations" (70_reset_and_hazards.md R324). -/
def smul (p a k : Nat) (P : Point) : Except ErrKind Point := smulLoop p a Config.W k .inf P

/-- `padd` under the current configuration. -/
def State.padd (s : State) (P1 P2 : Point) : Except ErrKind Point := Sys2Proof.Machine.padd s.p s.a P1 P2

/-- `smul` under the current configuration. -/
def State.smul (s : State) (k : Nat) (P : Point) : Except ErrKind Point :=
  Sys2Proof.Machine.smul s.p s.a k P

/-- `on_curve` under the current configuration. -/
def State.onCurve (s : State) (x y : Nat) : Bool := Sys2Proof.Machine.onCurve s.p s.a s.b x y

/-- A point from two residues, or `PointNotOnCurve` (the source's `make_point`, R173). -/
def State.makePoint (s : State) (x y : Nat) : Except ErrKind Point :=
  if s.onCurve x y then .ok (affine x y) else .error .pointNotOnCurve

/-- A point from two integers, reduced first (`make_point_integral`, R174): `BadConfig` when `MOD_P = 0`. -/
def State.makePointIntegral (s : State) (x y : Nat) : Except ErrKind Point :=
  if s.p = 0 then .error .badConfig else s.makePoint (x % s.p) (y % s.p)

/-- `gen()`, the validated generator (R183). -/
def State.gen (s : State) : Except ErrKind Point :=
  s.makePointIntegral s.cfg.genX.toNat s.cfg.genY.toNat

end Sys2Proof.Machine
end

