-- ==== Sys2Proof/Machine/Ecdsa.lean ====
section
/-! DEFINITION. Meanings of the ECDSA engine's commands but `NONCE` (44_ecdsa.md R215 to R217, R225, R230). -/

namespace Sys2Proof.Machine

/-- `raise e` unless `c`. -/
def require (c : Bool) (e : ErrKind) : Except ErrKind Unit := if c then .ok () else .error e

/-- R215: tag, zero test, `gen()`, `smul`, in that order; the three fields of `KEY` together. -/
def execKeygen (a : RIdx) (s : State) : Outcome :=
  finish s do
    elemOf s .n a
    require (s.val a != 0) .invalidSecret
    let g ← s.gen
    let q ← s.smul (s.val a) g
    return s.setKey ⟨true, (s.reg a).val, q⟩

/-- R216. -/
def execKeyclr (s : State) : Outcome := finish s (.ok (s.setKey KeySlot.empty))

/-- R217: `P[d] <- KEY.pub`, or `NoKey`. -/
def execPubkey (d : PIdx) (s : State) : Outcome :=
  finish s do
    require s.key.valid .noKey
    return s.setPt d s.key.pub

/-- The abscissa of `k'·G` for `SIGN`; the identity has none: `AbsentCoordinate` (R225, R227 (c)). -/
def pointX : Point → Except ErrKind Nat
  | .inf     => .error .absentCoordinate
  | .aff x _ => .ok x.toNat

/-- Low-s: "`if 2·s > n: s = n − s`" (R225, R227 (a)). -/
def lowS (n s : Nat) : Nat := if 2 * s > n then n - s else s

/-- The signature `(r, s)` of the hash `z` with nonce `k`, in the phases of R226. -/
def signature (s : State) (k z : Nat) : Except ErrKind (Nat × Nat) := do
  require s.key.valid .noKey
  let g ← s.gen
  let z' := z % s.n
  let k' := k % s.n
  require (k' != 0) .divisionByZero
  let rp ← s.smul k' g
  let x ← pointX rp
  let r := x % s.n
  let i ← inverter k' s.n
  return (r, lowS s.n ((z' + r * s.key.secret.toNat) % s.n * i % s.n))

/-- R225: `R[d] <- { r, FN }; R[a] <- { s, FN }`. "`d ≠ a` or the word is illegal": the decoder refuses
such a word (R92 (5)), and the meaning says the same of the ill-formed term (log 11). -/
def execSign (d a b c : RIdx) (s : State) : Outcome :=
  finish s do
    require (d != a) .illegalCommand
    let rs ← signature s (s.val b) (s.val c)
    return (s.setElem d .n rs.1).setElem a .n rs.2

/-- "`total ≠ INF and total.x = r mod p`" (R230). -/
def xEquals (r : Nat) : Point → Bool
  | .inf     => false
  | .aff x _ => x.toNat == r

/-- Whether `(r, s)` is a valid signature of `z` under the public key `Q` (R230, phases R231). -/
def signatureValid (st : State) (Q : Point) (r s z : Nat) : Except ErrKind Bool := do
  let g ← st.gen
  let z' := z % st.n
  let si ← inverter s st.n
  let u := z' * si % st.n
  let v := r * si % st.n
  let ug ← st.smul u g
  let vq ← st.smul v Q
  let total ← st.padd ug vq
  return xEquals (r % st.p) total

/-- R230: `r` and `s` are `FN` elements, `z` an integer operand. -/
def execVerify (d : PIdx) (a b c : RIdx) (s : State) : Outcome :=
  finish s do
    elemOf s .n a
    elemOf s .n b
    let ok ← signatureValid s (s.pt d) (s.val a) (s.val b) (s.val c)
    return s.setT ok

end Sys2Proof.Machine
end

