-- ==== Sys2Proof/Machine/FieldUnit.lean ====
section
/-! DEFINITION. Meanings of the prime field unit's commands (41_field.md R130 to R150). -/

namespace Sys2Proof.Machine

/-! ## Constructors -/

/-- A source integer reduced modulo a field's modulus; `BadConfig` when that is 0 (R132, R133). -/
def reduceBy (s : State) (f : FieldSel) (a : RIdx) : Except ErrKind Nat :=
  if s.modOf f = 0 then .error .badConfig else .ok (s.val a % s.modOf f)

/-- `FRED.f d, a` (R132): `R[d] <- { R[a].val mod m, INT }`. -/
def fred (f : FieldSel) (d a : RIdx) (s : State) : Outcome :=
  finish s do
    let v ← reduceBy s f a
    return s.setInt d v

/-- `FNEW.f d, a` (R133): `R[d] <- { R[a].val mod m, f }`. -/
def fnew (f : FieldSel) (d a : RIdx) (s : State) : Outcome :=
  finish s do
    let v ← reduceBy s f a
    return s.setElem d f v

def execFredP (d a : RIdx) (s : State) : Outcome := fred .p d a s
def execFredN (d a : RIdx) (s : State) : Outcome := fred .n d a s
def execFnewP (d a : RIdx) (s : State) : Outcome := fnew .p d a s
def execFnewN (d a : RIdx) (s : State) : Outcome := fnew .n d a s

/-! ## Arithmetic -/

/-- A two-element command: operands of the same field, result in that field (R130, R136 to R140). -/
def fieldBinary (op : Nat → Nat → Nat → Except ErrKind Nat) (d a b : RIdx) (s : State) : Outcome :=
  finish s do
    let f ← sameField s a b
    let v ← op (s.modOf f) (s.val a) (s.val b)
    return s.setElem d f v

/-- A one-element command (R130, R141 to R145). -/
def fieldUnary (op : Nat → Nat → Except ErrKind Nat) (d a : RIdx) (s : State) : Outcome :=
  finish s do
    let f ← elem s a
    let v ← op (s.modOf f) (s.val a)
    return s.setElem d f v

/-- R136. -/
def execFadd (d a b : RIdx) (s : State) : Outcome := fieldBinary (fun m x y => .ok (addMod m x y)) d a b s

/-- R137: "the result is `R[a] − R[b]`". -/
def execFsub (d a b : RIdx) (s : State) : Outcome := fieldBinary (fun m x y => .ok (subMod m x y)) d a b s

/-- R138. -/
def execFmul (d a b : RIdx) (s : State) : Outcome := fieldBinary (fun m x y => .ok (mulMod m x y)) d a b s

/-- R140: `R[b]` is the divisor. -/
def execFdiv (d a b : RIdx) (s : State) : Outcome := fieldBinary divMod d a b s

/-- R141. -/
def execFinv (d a : RIdx) (s : State) : Outcome := fieldUnary (fun m x => inverter x m) d a s

/-- `x^(+e)` with the explicit first branch for `m = 1` (R143, R147). -/
def powPos (m x e : Nat) : Nat :=
  if m = 1 then 0 else if e = 0 then 1 else powMod m x e

/-- `x^(−e)`: the power of the inverse; a zero exponent takes no inverse (R143). -/
def powNeg (m x e : Nat) : Except ErrKind Nat :=
  if m = 1 then .ok 0
  else if e = 0 then .ok 1
  else do
    let i ← inverter x m
    return powMod m i e

/-- R143 with `NEG = 0`; the exponent `R[b]` is an integer operand. -/
def execFpow (d a b : RIdx) (s : State) : Outcome :=
  fieldUnary (fun m x => .ok (powPos m x (s.val b))) d a s

/-- R143 with `NEG = 1`. -/
def execFpowNeg (d a b : RIdx) (s : State) : Outcome :=
  fieldUnary (fun m x => powNeg m x (s.val b)) d a s

/-- `x^((m+1)/4) mod m` when `m mod 4 = 3`, else `BadConfig`; the root is not verified (R145, R146). -/
def sqrtMod (m x : Nat) : Except ErrKind Nat :=
  if m % 4 = 3 then .ok (powMod m x ((m + 1) / 4)) else .error .badConfig

/-- R145. -/
def execFsqrt (d a : RIdx) (s : State) : Outcome := fieldUnary sqrtMod d a s

/-! ## Predicates -/

/-- R148: `T <- (R[a].val = 0)`, any tag. -/
def execFisz (a : RIdx) (s : State) : Outcome := finish s (.ok (s.setT (s.val a == 0)))

/-- R149: tag and value compared; never `MismatchedField`. -/
def execFeq (a b : RIdx) (s : State) : Outcome :=
  finish s (.ok (s.setT (s.tag a == s.tag b && s.val a == s.val b)))

end Sys2Proof.Machine
end

