-- ==== Sys2Proof/Machine/Move.lean ====
section
/-! DEFINITION. Meanings of the move commands (40_move.md). A meaning maps the state at acceptance to the
state after completion (00_scope.md R11). -/

namespace Sys2Proof.Machine

/-- R120: nothing but completion. -/
def execNop (s : State) : Outcome := finish s (.ok s)

/-- R121: `R[d] <- { R[a].val, R[a].tag }`. -/
def execMov (d a : RIdx) (s : State) : Outcome := finish s (.ok (s.setReg d (s.reg a)))

/-- R122: `R[d] <- { R[a].val, INT }`. -/
def execFraw (d a : RIdx) (s : State) : Outcome := finish s (.ok (s.setReg d ⟨(s.reg a).val, .int⟩))

end Sys2Proof.Machine
end

