-- ==== Sys2Proof/Machine/Hash.lean ====
section
/-! DEFINITION. The hash provider the machine is built with (log 7): SHA-256 as 44_ecdsa.md R211 writes it
out, and HMAC over it as R212 does. "The model takes it as an argument or instantiates it with the function
below" (R211). -/

namespace Sys2Proof.Machine

/-- `rotr(x,k)`. -/
def rotr (x : HWord) (k : Nat) : HWord := (x >>> k) ||| (x <<< (32 - k))

def smallSigma0 (x : HWord) : HWord := rotr x 7 ^^^ rotr x 18 ^^^ (x >>> 3)
def smallSigma1 (x : HWord) : HWord := rotr x 17 ^^^ rotr x 19 ^^^ (x >>> 10)
def bigSigma0 (x : HWord) : HWord := rotr x 2 ^^^ rotr x 13 ^^^ rotr x 22
def bigSigma1 (x : HWord) : HWord := rotr x 6 ^^^ rotr x 11 ^^^ rotr x 25
def shaCh (x y z : HWord) : HWord := (x &&& y) ^^^ (~~~x &&& z)
def shaMaj (x y z : HWord) : HWord := (x &&& y) ^^^ (x &&& z) ^^^ (y &&& z)

/-- The working variables `a` to `h`, and the chaining value `H[0..7]`. -/
structure ShaState where
  a : HWord
  b : HWord
  c : HWord
  d : HWord
  e : HWord
  f : HWord
  g : HWord
  h : HWord
  deriving DecidableEq, Repr

/-- The initial `H[0..7]`. -/
def shaInit : ShaState :=
  ⟨0x6A09E667, 0xBB67AE85, 0x3C6EF372, 0xA54FF53A, 0x510E527F, 0x9B05688C, 0x1F83D9AB, 0x5BE0CD19⟩

/-- The round constants `K[0..63]`. -/
def shaK : List HWord :=
  [0x428A2F98, 0x71374491, 0xB5C0FBCF, 0xE9B5DBA5, 0x3956C25B, 0x59F111F1, 0x923F82A4, 0xAB1C5ED5] ++
  [0xD807AA98, 0x12835B01, 0x243185BE, 0x550C7DC3, 0x72BE5D74, 0x80DEB1FE, 0x9BDC06A7, 0xC19BF174] ++
  [0xE49B69C1, 0xEFBE4786, 0x0FC19DC6, 0x240CA1CC, 0x2DE92C6F, 0x4A7484AA, 0x5CB0A9DC, 0x76F988DA] ++
  [0x983E5152, 0xA831C66D, 0xB00327C8, 0xBF597FC7, 0xC6E00BF3, 0xD5A79147, 0x06CA6351, 0x14292967] ++
  [0x27B70A85, 0x2E1B2138, 0x4D2C6DFC, 0x53380D13, 0x650A7354, 0x766A0ABB, 0x81C2C92E, 0x92722C85] ++
  [0xA2BFE8A1, 0xA81A664B, 0xC24B8B70, 0xC76C51A3, 0xD192E819, 0xD6990624, 0xF40E3585, 0x106AA070] ++
  [0x19A4C116, 0x1E376C08, 0x2748774C, 0x34B0BCB5, 0x391C0CB3, 0x4ED8AA4A, 0x5B9CCA4F, 0x682E6FF3] ++
  [0x748F82EE, 0x78A5636F, 0x84C87814, 0x8CC70208, 0x90BEFFFA, 0xA4506CEB, 0xBEF9A3F7, 0xC67178F2]

/-- `msg ‖ 0x80 ‖ 0x00 × ((55 − L) mod 64) ‖ len8(8·L)`. -/
def shaPad (msg : List Byte) : List Byte :=
  let L := msg.length
  msg ++ [0x80] ++ List.replicate (subMod64 L) 0x00 ++ bytesBe 8 (8 * L)
where
  /-- `(55 − L) mod 64`, by R8's form of a residue of a difference. -/
  subMod64 (L : Nat) : Nat := (55 + 64 - L % 64) % 64

/-- Big-endian 32-bit words of a byte string (a trailing part of fewer than 4 bytes is dropped; a padded
message has none). -/
def wordsBe : List Byte → List HWord
  | b0 :: b1 :: b2 :: b3 :: rest => (b0 ++ b1 ++ b2 ++ b3) :: wordsBe rest
  | _ => []

/-- The message schedule, latest word first: `k` more words onto `w`, each
`W[t−16] + s0(W[t−15]) + W[t−7] + s1(W[t−2])`. -/
def shaSchedule : Nat → List HWord → List HWord
  | 0, w => w
  | k + 1, w =>
    shaSchedule k
      ((w.getD 15 0 + smallSigma0 (w.getD 14 0) + w.getD 6 0 + smallSigma1 (w.getD 1 0)) :: w)

/-- One round with round constant `k` and schedule word `w`. -/
def shaRound (s : ShaState) (k w : HWord) : ShaState :=
  let t1 := s.h + bigSigma1 s.e + shaCh s.e s.f s.g + k + w
  let t2 := bigSigma0 s.a + shaMaj s.a s.b s.c
  ⟨t1 + t2, s.a, s.b, s.c, s.d + t1, s.e, s.f, s.g⟩

/-- The 64 rounds. -/
def shaRounds : ShaState → List HWord → List HWord → ShaState
  | s, k :: ks, w :: ws => shaRounds (shaRound s k w) ks ws
  | s, _, _ => s

/-- One 64-byte chunk, given as its 16 words. -/
def shaChunk (h : ShaState) (chunk : List HWord) : ShaState :=
  let r := shaRounds h shaK (shaSchedule 48 chunk.reverse).reverse
  ⟨h.a + r.a, h.b + r.b, h.c + r.c, h.d + r.d, h.e + r.e, h.f + r.f, h.g + r.g, h.h + r.h⟩

/-- All chunks in order, `n` of them. -/
def shaChunks : Nat → ShaState → List HWord → ShaState
  | 0, h, _ => h
  | n + 1, h, ws => shaChunks n (shaChunk h (ws.take 16)) (ws.drop 16)

/-- `SHA256` (44_ecdsa.md R211), as the number whose big-endian bytes are `w4(H[0]) ‖ … ‖ w4(H[7])`. -/
def sha256 (msg : List Byte) : Word :=
  let ws := wordsBe (shaPad msg)
  let h := shaChunks (ws.length / 16) shaInit ws
  h.a ++ h.b ++ h.c ++ h.d ++ h.e ++ h.f ++ h.g ++ h.h

/-- The HMAC key: hashed if longer than 64 bytes, then padded with `0x00` to 64. -/
def hmacKey (key : List Byte) : List Byte :=
  let k := if key.length > 64 then be32 (sha256 key) else key
  k ++ List.replicate (64 - k.length) 0x00

/-- `HMAC_SHA256` (44_ecdsa.md R212). -/
def hmacSha256 (key msg : List Byte) : Word :=
  let k := hmacKey key
  sha256 (k.map (· ^^^ 0x5C) ++ be32 (sha256 (k.map (· ^^^ 0x36) ++ msg)))

/-- The provider this machine is built with (log 7). -/
def hashProvider : HashProvider := ⟨sha256, hmacSha256⟩

end Sys2Proof.Machine
end

