-- ==== Sys2Proof/Machine/Nonce.lean ====
section
/-! DEFINITION. The nonce generator as the state machine of 44_ecdsa.md R221, over any hash provider, and
the command `NONCE` (R220). The search has no cap (R224): one turn of the sequencer runs the machine to the
end of one iteration, and a candidate that fails leaves the block `BUSY` with the machine at `N_GEN`, so a
search that never ends is an endless run (70_reset_and_hazards.md R324; log 5). -/

namespace Sys2Proof.Machine

/-- The constant inputs of one `NONCE` command: provider, message, secret, `n` (R223). -/
structure NonceInputs where
  H      : HashProvider
  msg    : List Byte
  secret : Word
  n      : Nat

/-- `0x01 × 32` as a digest (R220 step 2). -/
def onesDigest : Word := BitVec.ofNat 256 (intBe (List.replicate 32 0x01))

/-- The test of a candidate, `0 < t < n` with `t = int_be(T)` (R220 step 4). -/
def nonceGood (n : Nat) (T : Word) : Bool := decide (0 < T.toNat) && decide (T.toNat < n)

/-- One row of R221's table: the state's action and the next state. (`N_CHECK`'s tests are the command's.) -/
def nonceNext (c : NonceInputs) : NoncePhase → NonceRegs → NoncePhase × NonceRegs
  | .check,   r => (.hash, r)
  | .hash,    r => (.init, { r with h1 := c.H.sha256 c.msg })
  | .init,    r => (.seedK, { r with V := onesDigest, K := 0 })
  | .seedK,   r =>
    (.seedV, { r with K := c.H.hmacSha256 (be32 r.K) (be32 r.V ++ [0x00] ++ be32 c.secret ++ be32 r.h1) })
  | .seedV,   r => (.gen, { r with V := c.H.hmacSha256 (be32 r.K) (be32 r.V) })
  | .gen,     r =>
    let v := c.H.hmacSha256 (be32 r.K) (be32 r.V)
    (.test, { r with V := v, T := v })
  | .test,    r => (if nonceGood c.n r.T then .wb else .reseedK, r)
  | .reseedK, r => (.reseedV, { r with K := c.H.hmacSha256 (be32 r.K) (be32 r.V ++ [0x00]) })
  | .reseedV, r => (.gen, { r with V := c.H.hmacSha256 (be32 r.K) (be32 r.V) })
  | .wb,      r => (.wb, r)

/-- `k` rows of the table. -/
def nonceRows (c : NonceInputs) : Nat → NoncePhase → NonceRegs → NoncePhase × NonceRegs
  | 0, ph, r => (ph, r)
  | k + 1, ph, r => nonceRows c k (nonceNext c ph r).1 (nonceNext c ph r).2

/-- The rows of one turn of the sequencer: four from `N_GEN` in mid-search; otherwise nine from `N_CHECK`
(check, hash, init, seedK, seedV, gen, test, and reseedK, reseedV after a miss). A hit stays at `N_WB`. -/
def nonceTurn (c : NonceInputs) (ph : NoncePhase) (r : NonceRegs) : NoncePhase × NonceRegs :=
  if ph = .gen then nonceRows c 4 .gen r else nonceRows c 9 .check r

/-- The tests of `N_CHECK` (R220, R221), made once, at the start of the command. -/
def nonceCheck (s : State) : Except ErrKind Unit :=
  if s.nPhase = .gen then .ok ()
  else if s.key.valid = false then .error .noKey
  else if s.msgLen.toNat > Config.MSG_MAX then .error .badConfig
  else .ok ()

/-- The inputs of `NONCE` in a state (R223). -/
def State.nonceInputs (s : State) (H : HashProvider) : NonceInputs := ⟨H, s.message, s.key.secret, s.n⟩

/-- `NONCE d` over a provider `H`: at `N_WB`, `R[d] <- {t, INT}` and normal completion; after a miss, still
`BUSY` with only hidden state changed. -/
def nonceWith (H : HashProvider) (d : RIdx) (s : State) : Outcome :=
  match nonceCheck s with
  | .error e => finish s (.error e)
  | .ok () =>
    let (ph, r) := nonceTurn (s.nonceInputs H) s.nPhase s.nonce
    if ph = .wb then finish s (.ok ({ s with nonce := r }.setReg d ⟨r.T, .int⟩))
    else .next { s with nonce := r, nPhase := ph }

/-- R220, with the provider of this machine. -/
def execNonce (d : RIdx) (s : State) : Outcome := nonceWith hashProvider d s

end Sys2Proof.Machine
end

