-- ==== Sys2Proof/Machine/PointUnit.lean ====
section
/-! DEFINITION. Meanings of the point adder/doubler's commands (42_point.md R170 to R185). -/

namespace Sys2Proof.Machine

/-- R172: `P[d] <- INF`. -/
def execPinf (d : PIdx) (s : State) : Outcome := finish s (.ok (s.setPt d .inf))

/-- R173: both coordinates `FP`, then `make_point`. -/
def execPnew (d : PIdx) (a b : RIdx) (s : State) : Outcome :=
  finish s do
    elemOf s .p a
    elemOf s .p b
    let q ← s.makePoint (s.val a) (s.val b)
    return s.setPt d q

/-- R174: integer operands, reduced, then `make_point`. -/
def execPnewi (d : PIdx) (a b : RIdx) (s : State) : Outcome :=
  finish s do
    let q ← s.makePointIntegral (s.val a) (s.val b)
    return s.setPt d q

/-- R175: `T <- on_curve(R[a].val, R[b].val)`. -/
def execPonc (a b : RIdx) (s : State) : Outcome :=
  finish s do
    elemOf s .p a
    elemOf s .p b
    return s.setT (s.onCurve (s.val a) (s.val b))

/-- R177: `P[d] <- padd(P[a], P[b])`. -/
def execPadd (d a b : PIdx) (s : State) : Outcome :=
  finish s do
    let q ← s.padd (s.pt a) (s.pt b)
    return s.setPt d q

/-- R178: `P[d] <- padd(P[a], P[a])`. -/
def execPdbl (d a : PIdx) (s : State) : Outcome :=
  finish s do
    let q ← s.padd (s.pt a) (s.pt a)
    return s.setPt d q

/-- A coordinate of a point as a base-field element; the identity has none: `AbsentCoordinate`
(60_exceptions.md R277). -/
def coordinate (sel : Word → Word → Word) : Point → Except ErrKind Word
  | .inf     => .error .absentCoordinate
  | .aff x y => .ok (sel x y)

/-- R179: `R[d] <- { P[a].x, FP }`. -/
def execPgetx (d : RIdx) (a : PIdx) (s : State) : Outcome :=
  finish s do
    let v ← coordinate (fun x _ => x) (s.pt a)
    return s.setReg d ⟨v, .fp⟩

/-- R180: `R[d] <- { P[a].y, FP }`. -/
def execPgety (d : RIdx) (a : PIdx) (s : State) : Outcome :=
  finish s do
    let v ← coordinate (fun _ y => y) (s.pt a)
    return s.setReg d ⟨v, .fp⟩

/-- R181: `T <- (P[a] = P[b])` (10_state.md R26). -/
def execPeq (a b : PIdx) (s : State) : Outcome := finish s (.ok (s.setT (s.pt a == s.pt b)))

/-- R182: `T <- (P[a] = INF)`. -/
def execPisinf (a : PIdx) (s : State) : Outcome := finish s (.ok (s.setT (s.pt a == .inf)))

/-- R184: `P[d] <- P[a]`. -/
def execPmov (d a : PIdx) (s : State) : Outcome := finish s (.ok (s.setPt d (s.pt a)))

/-- R185: `P[d] <- gen()`. -/
def execPgen (d : PIdx) (s : State) : Outcome :=
  finish s do
    let g ← s.gen
    return s.setPt d g

end Sys2Proof.Machine
end

