-- ==== Sys2Proof/Machine/ScalarUnit.lean ====
section
/-! DEFINITION. Meaning of the scalar multiplier's command (43_scalar.md). -/

namespace Sys2Proof.Machine

/-- R202: `P[d] <- smul(R[b].val, P[a])`; the scalar is an integer operand, never reduced. -/
def execSmul (d a : PIdx) (b : RIdx) (s : State) : Outcome :=
  finish s do
    let q ← s.smul (s.val b) (s.pt a)
    return s.setPt d q

end Sys2Proof.Machine
end

