-- ==== Sys2Proof/Machine/Dispatch.lean ====
section
/-! DEFINITION. The dispatch: one arm per command. -/

namespace Sys2Proof.Machine

def exec (i : Instr) (s : State) : Host.Outcome State Fault Refusal :=
  match i with
  | .nop => Sys2Proof.Machine.execNop s
  | .mov d a => Sys2Proof.Machine.execMov d a s
  | .fraw d a => Sys2Proof.Machine.execFraw d a s
  | .fredP d a => Sys2Proof.Machine.execFredP d a s
  | .fredN d a => Sys2Proof.Machine.execFredN d a s
  | .fnewP d a => Sys2Proof.Machine.execFnewP d a s
  | .fnewN d a => Sys2Proof.Machine.execFnewN d a s
  | .fadd d a b => Sys2Proof.Machine.execFadd d a b s
  | .fsub d a b => Sys2Proof.Machine.execFsub d a b s
  | .fmul d a b => Sys2Proof.Machine.execFmul d a b s
  | .fdiv d a b => Sys2Proof.Machine.execFdiv d a b s
  | .finv d a => Sys2Proof.Machine.execFinv d a s
  | .fpow d a b => Sys2Proof.Machine.execFpow d a b s
  | .fpowNeg d a b => Sys2Proof.Machine.execFpowNeg d a b s
  | .fsqrt d a => Sys2Proof.Machine.execFsqrt d a s
  | .fisz a => Sys2Proof.Machine.execFisz a s
  | .feq a b => Sys2Proof.Machine.execFeq a b s
  | .pinf d => Sys2Proof.Machine.execPinf d s
  | .pnew d a b => Sys2Proof.Machine.execPnew d a b s
  | .pnewi d a b => Sys2Proof.Machine.execPnewi d a b s
  | .ponc a b => Sys2Proof.Machine.execPonc a b s
  | .padd d a b => Sys2Proof.Machine.execPadd d a b s
  | .pdbl d a => Sys2Proof.Machine.execPdbl d a s
  | .pgetx d a => Sys2Proof.Machine.execPgetx d a s
  | .pgety d a => Sys2Proof.Machine.execPgety d a s
  | .peq a b => Sys2Proof.Machine.execPeq a b s
  | .pisinf a => Sys2Proof.Machine.execPisinf a s
  | .pmov d a => Sys2Proof.Machine.execPmov d a s
  | .pgen d => Sys2Proof.Machine.execPgen d s
  | .smul d a b => Sys2Proof.Machine.execSmul d a b s
  | .keygen a => Sys2Proof.Machine.execKeygen a s
  | .keyclr => Sys2Proof.Machine.execKeyclr s
  | .pubkey d => Sys2Proof.Machine.execPubkey d s
  | .nonce d => Sys2Proof.Machine.execNonce d s
  | .sign d a b c => Sys2Proof.Machine.execSign d a b c s
  | .verify d a b c => Sys2Proof.Machine.execVerify d a b c s

end Sys2Proof.Machine
end

