-- ==== Sys2Proof/Machine/Sequencer.lean ====
section
/-! DEFINITION. A turn of the sequencer (70_reset_and_hazards.md R320 to R324). -/

namespace Sys2Proof.Machine

/-- Executing the accepted command, the word in `CMD` (20_memory.md R75): a word that decodes to no command
"completes at once with the error `IllegalCommand` and no other effect" (30_encoding.md R92). -/
def runCommand (s : State) : Outcome :=
  match decode s.cmd with
  | .ok i => exec i s
  | .error _ => finish s (.error .illegalCommand)

/-- The sequencer's turn: execute when `BUSY`; when idle "the block simply waits for a `CMD` write"
(60_exceptions.md R306). -/
def sequencerTurn (s : State) : Outcome := if s.busy then runCommand s else .next s

end Sys2Proof.Machine
end

