-- ==== Sys2Proof/Machine/Step.lean ====
section
/-! DEFINITION. One step of the machine: one atomic step of one agent (20_memory.md R72). -/

namespace Sys2Proof.Machine

/-- What happens next is the head of `events`; with nothing listed it is the sequencer's turn (log 1, log 3). -/
def step (s : State) : Host.Outcome State Fault Refusal :=
  match s.events with
  | [] => sequencerTurn s
  | .sequencer :: rest => sequencerTurn { s with events := rest }
  | .bus a :: rest => .next (busStep { s with events := rest } a)
  | .reset :: rest => .next { s with events := rest }.resetBlock

/-- The host has written the word to `CMD` and the block has accepted it (R320), and the sequencer's turn is
next, so that the very next step runs the command (log 4). -/
def State.withFetchWord (s : State) (nbits w : Nat) : State :=
  { s.accept (BitVec.ofNat 32 (w % 2 ^ nbits)) with events := .sequencer :: s.events }

end Sys2Proof.Machine
end

