-- ==== Sys2Proof/Machine/HostEncodings.lean ====
section
/-! DEFINITION. The host-side encodings (46_host_encodings.md R251 to R262): SEC points, DER signatures,
Base58, and the `Hash256` of the worked example. "None of it is in the block": no step calls these; they
are the pure functions the source's vectors are stated in (00_scope.md R5, log 15). -/

namespace Sys2Proof.Machine

/-! ## SEC points -/

/-- `0x04 ‖ be32(x) ‖ be32(y)` (R251); the identity has no encoding. -/
def secUncompressed : Point → Option (List Byte)
  | .inf => none
  | .aff x y => some ([0x04] ++ be32 x ++ be32 y)

/-- `(0x02 if y even else 0x03) ‖ be32(x)` (R252); the identity has no encoding. -/
def secCompressed : Point → Option (List Byte)
  | .inf => none
  | .aff x y => some ([if y.toNat % 2 = 0 then 0x02 else 0x03] ++ be32 x)

/-- Decompression (R254, R255): recover `y` from the curve equation by one square root, select the root of
the prefix's parity, and validate the point (R256). The `a·x` term is R254's "with a non-zero `CURVE_A` the
host must add `a·x`"; it is 0 for the source's curves. -/
def secDecompress (s : State) (odd : Bool) (xBytes : List Byte) : Except ErrKind Point :=
  if s.p = 0 then .error .badConfig
  else do
    let x := intBe xBytes % s.p
    let root ← sqrtMod s.p ((x * x * x + s.a * x + s.b) % s.p)
    s.makePoint x (if (root % 2 == 1) = odd then root else (s.p - root) % s.p)

/-- `sec_decode(B)` (R254), with the block's current configuration. -/
def secDecode (s : State) (bytes : List Byte) : Except ErrKind Point :=
  match bytes with
  | [] => .error .invalidEncoding
  | b :: rest =>
    if b = 0x04 then
      if rest.length = 64 then s.makePointIntegral (intBe (rest.take 32)) (intBe (rest.drop 32))
      else .error .invalidEncoding
    else if b = 0x02 ∨ b = 0x03 then
      if rest.length = 32 then secDecompress s (b == 0x03) rest else .error .invalidEncoding
    else .error .invalidEncoding

/-! ## DER signatures -/

/-- "Minimal big-endian bytes of v (no leading zero byte)"; of 0, the open value (R258, log 15). -/
def minimalBe (v : Word) : List Byte :=
  if v = 0 then Config.derZero else (be32 v).dropWhile (· == 0x00)

/-- `0x00 ‖ B` when the high bit of the first byte is set (R258). -/
def derSignByte (bs : List Byte) : List Byte := if 0x80 ≤ (bs.headD 0).toNat then 0x00 :: bs else bs

/-- `der_int(v)` (R258). -/
def derInt (v : Word) : List Byte :=
  let bs := derSignByte (minimalBe v)
  [0x02, BitVec.ofNat 8 bs.length] ++ bs

/-- `der(r, s)` (R258). -/
def der (r s : Word) : List Byte :=
  let body := derInt r ++ derInt s
  [0x30, BitVec.ofNat 8 body.length] ++ body

/-! ## Base58 -/

/-- The alphabet, "excluding `0 O I l`" (R260). -/
def base58Alphabet : List Char :=
  ['1', '2', '3', '4', '5', '6', '7', '8', '9'] ++
  ['A', 'B', 'C', 'D', 'E', 'F', 'G', 'H', 'J', 'K', 'L', 'M', 'N'] ++
  ['P', 'Q', 'R', 'S', 'T', 'U', 'V', 'W', 'X', 'Y', 'Z'] ++
  ['a', 'b', 'c', 'd', 'e', 'f', 'g', 'h', 'i', 'j', 'k', 'm'] ++
  ['n', 'o', 'p', 'q', 'r', 's', 't', 'u', 'v', 'w', 'x', 'y', 'z']

/-- `while v > 0: digits = ALPHABET[v mod 58] ‖ digits; v = v div 58`. -/
def base58Digits : Nat → Nat → List Char → List Char
  | 0, _, digits => digits
  | fuel + 1, v, digits =>
    if v = 0 then digits
    else base58Digits fuel (v / 58) (base58Alphabet.getD (v % 58) '1' :: digits)

/-- `base58(B)` (R260); two digits a byte are always enough, since `58 · 58 > 256`. -/
def base58 (bytes : List Byte) : List Char :=
  List.replicate (bytes.takeWhile (· == 0x00)).length '1'
    ++ base58Digits (2 * bytes.length) (intBe bytes) []

/-! ## The message hash of the worked example -/

/-- `Hash256(x) = int_be(SHA256(SHA256(x)))` (44_ecdsa.md R228, 92_eei_decisions.md D36). -/
def hash256 (msg : List Byte) : Nat := (sha256 (be32 (sha256 msg))).toNat

end Sys2Proof.Machine
end

