-- ==== Sys2Proof/Machine/Montgomery.lean ====
section
/-! DEFINITION. The Montgomery datapath (41_field.md R160 to R163): "an internal property of the datapath
that no host access can observe". No command's meaning calls it; the architectural product is `mulMod`
(R138), and the refinement law R161 ties the two. -/

namespace Sys2Proof.Machine

/-- `m' = (−m^(−1)) mod 2^256`, which "exists because m is odd" (R160). -/
def montPrime (m : Nat) : Nat := (Config.R_MONT - invMod m Config.R_MONT) % Config.R_MONT

/-- `REDC(t)` for `0 ≤ t < m · 2^256` (R160). -/
def redc (m t : Nat) : Nat :=
  let q := (t % Config.R_MONT) * montPrime m % Config.R_MONT
  let u := (t + q * m) / Config.R_MONT
  if u ≥ m then u - m else u

/-- `MontMul(x, y) = REDC(x · y)` for an odd modulus (R160). -/
def montMul (m x y : Nat) : Nat := redc m (x * y)

/-- `R2 = R_MONT² mod m` (R161). -/
def montR2 (m : Nat) : Nat := Config.R_MONT * Config.R_MONT % m

/-- The Montgomery form of `x`, `MontMul(x, R2)` (R161). -/
def toMont (m x : Nat) : Nat := montMul m x (montR2 m)

/-- "The way back is `x = MontMul(x̃, 1)`" (R161). -/
def fromMont (m x : Nat) : Nat := montMul m x 1

/-- The multiplier: through Montgomery form for an odd modulus, "by some other path (for instance a plain
reduction)" for an even one (R161, R163). -/
def datapathMul (m x y : Nat) : Nat :=
  if m % 2 = 1 then fromMont m (montMul m (toMont m x) (toMont m y)) else x * y % m

end Sys2Proof.Machine
end

