-- ==== Sys2Proof/Safety.lean ====
section
/-! DEFINITION. What claims about the block are said in: its invariant (10_state.md R23, R25, R27, R28, R42;
44_ecdsa.md R213), how a command ends (60_exceptions.md R280, 70_reset_and_hazards.md R322), and what a
command leaves alone. No step of this machine stops, so a safe run is one all of whose states meet `Inv`. -/

namespace Sys2Proof.Machine

/-! ## The invariant -/

/-- R23: an element is a canonical residue of its field, whose modulus is then at least 1. -/
def RegOk (s : State) (r : Reg) : Prop := ∀ f : FieldSel, r.tag = f.tag → r.val.toNat < s.modOf f

/-- R25, without the curve equation: a finite point has coordinates below `MOD_P ≥ 1`. -/
def PointOk (s : State) : Point → Prop
  | .inf => True
  | .aff x y => x.toNat < s.p ∧ y.toNat < s.p

/-- R27, R28, R213 (ii): an empty slot is all zero; a valid key has `MOD_N ≥ 2`, `0 < secret < MOD_N`,
`MOD_P ≥ 1`, a generator on the curve, and `pub = smul(secret, gen())`. -/
def KeyOk (s : State) : Prop :=
  (s.key.valid = false → s.key = KeySlot.empty) ∧
  (s.key.valid = true →
    2 ≤ s.n ∧ 0 < s.key.secret.toNat ∧ s.key.secret.toNat < s.n ∧ 1 ≤ s.p ∧ PointOk s s.key.pub ∧
    ∃ g, s.gen = .ok g ∧ s.smul s.key.secret.toNat g = .ok s.key.pub)

/-- R42: while `BUSY`, no `DONE`, `ERR`, `T` or code; `ERR = 1` iff `ERRCODE ≠ 0`; and the code is one the
block produces (60_exceptions.md R270: 3 and 10 to 15 never). -/
def StatusOk (s : State) : Prop :=
  (s.busy = true → s.done = false ∧ s.err = false ∧ s.errcode = 0 ∧ s.t = false) ∧
  (s.err = true ↔ s.errcode ≠ 0) ∧
  s.errcode ≠ 3 ∧ s.errcode.toNat ≤ 9

/-- R29: the message buffer in canonical form, inside its window. -/
def MemOk (s : State) : Prop := s.mem.wf = true ∧ s.mem.inWindow = true

/-- Between steps the nonce generator stands at `N_CHECK`, or at `N_GEN` inside a running `NONCE` that has
passed its checks (44_ecdsa.md R221, log 5). -/
def NonceOk (s : State) : Prop :=
  s.nPhase = .check ∨
  (s.nPhase = .gen ∧ s.busy = true ∧ (∃ d, decode s.cmd = .ok (.nonce d)) ∧
    s.key.valid = true ∧ s.msgLen.toNat ≤ Config.MSG_MAX)

/-- The invariant of the block. -/
structure Inv (s : State) : Prop where
  regs   : ∀ i, RegOk s (s.reg i)
  pts    : ∀ j, PointOk s (s.pt j)
  key    : KeyOk s
  status : StatusOk s
  mem    : MemOk s
  nonce  : NonceOk s

/-- The curve equation for a point, the full R25. -/
def OnCurve (p a b : Nat) : Point → Prop
  | .inf => True
  | .aff x y => x.toNat < p ∧ y.toNat < p ∧ onCurve p a b x.toNat y.toNat = true

/-- Every stored point is on the current curve. -/
def PointsOnCurve (s : State) : Prop :=
  (∀ j, OnCurve s.p s.a s.b (s.pt j)) ∧ OnCurve s.p s.a s.b s.key.pub

/-! ## How a command ends -/

/-- What no command writes: `MSG` (R29), every byte of it, `MSG_LEN`, the configuration (R30), `CTRL.IE`,
`CMD`, and the model's own fields. -/
structure Untouched (s t : State) : Prop where
  mem      : t.mem = s.mem
  bytes    : ∀ a, t.mem.read a = s.mem.read a
  msgLen   : t.msgLen = s.msgLen
  cfg      : t.cfg = s.cfg
  ie       : t.ie = s.ie
  cmd      : t.cmd = s.cmd
  events   : t.events = s.events
  response : t.response = s.response

/-- Normal completion (R322): `BUSY` 0, `DONE` 1, while `ERR`, `ERRCODE` and `ERRCMD` stay; the nonce
generator is back at its first state. -/
structure Completed (s t : State) : Prop extends Untouched s t where
  busy    : t.busy = false
  done    : t.done = true
  err     : t.err = s.err
  errcode : t.errcode = s.errcode
  errcmd  : t.errcmd = s.errcmd
  phase   : t.nPhase = .check

/-- Error completion (R280): `ERR`, `ERRCODE`, `ERRCMD`, `BUSY`, `DONE`, and nothing else. -/
structure Failed (s t : State) (e : ErrKind) : Prop extends Untouched s t where
  regs    : ∀ i, t.reg i = s.reg i
  pts     : ∀ j, t.pt j = s.pt j
  key     : t.key = s.key
  flag    : t.t = s.t
  hidden  : t.nonce = s.nonce
  busy    : t.busy = false
  done    : t.done = true
  err     : t.err = true
  errcode : t.errcode = e.code
  errcmd  : t.errcmd = s.cmd
  phase   : t.nPhase = .check

/-- Normal completion with the frame of a command: operand registers but `rds`, point registers but `pds`,
`KEY` unless `wk`, `T` unless `wt`, and the hidden nonce registers are unchanged. -/
structure Ends (s t : State) (rds : List RIdx) (pds : List PIdx) (wk wt : Bool) : Prop extends
    Completed s t where
  regs   : ∀ i, i ∉ rds → t.reg i = s.reg i
  pts    : ∀ j, j ∉ pds → t.pt j = s.pt j
  key    : wk = false → t.key = s.key
  flag   : wt = false → t.t = s.t
  hidden : t.nonce = s.nonce

/-- Frame of a command with the operand-register destinations `ds`. -/
abbrev WritesRegs (s t : State) (ds : List RIdx) : Prop := Ends s t ds [] false false

/-- Frame of a command with the point-register destinations `ds`. -/
abbrev WritesPts (s t : State) (ds : List PIdx) : Prop := Ends s t [] ds false false

/-- Frame of a command that writes the key slot. -/
abbrev WritesKey (s t : State) : Prop := Ends s t [] [] true false

/-- Frame of a predicate command: only `T` (R39). -/
abbrev WritesFlag (s t : State) : Prop := Ends s t [] [] false true

/-- The command completes normally, in a state with the given property. -/
abbrev Completes (i : Instr) (s : State) (post : State → Prop) : Prop := ∃ t, exec i s = .next t ∧ post t

/-- The command ends with the error `e` (R280). -/
abbrev Raises (i : Instr) (s : State) (e : ErrKind) : Prop := ∃ t, exec i s = .next t ∧ Failed s t e

/-- The word with the fields `f` is the command `i`. -/
abbrev Encodes (f : Fields) (i : Instr) : Prop := decode (packWord f) = .ok i

/-! ## What the commands write (30_encoding.md R93, R94) -/

/-- The six predicate commands (R39). -/
def isPredicate : Instr → Bool
  | .fisz .. | .feq .. | .ponc .. | .peq .. | .pisinf .. | .verify .. => true
  | .nop | .mov .. | .fraw .. | .fredP .. | .fredN .. | .fnewP .. | .fnewN .. | .fadd .. | .fsub ..
  | .fmul .. | .fdiv .. | .finv .. | .fpow .. | .fpowNeg .. | .fsqrt .. | .pinf .. | .pnew ..
  | .pnewi .. | .padd .. | .pdbl .. | .pgetx .. | .pgety .. | .pmov .. | .pgen .. | .smul ..
  | .keygen .. | .keyclr | .pubkey .. | .nonce .. | .sign .. => false

/-- The two commands that write the key slot (10_state.md R27). -/
def writesKey : Instr → Bool
  | .keygen .. | .keyclr => true
  | .nop | .mov .. | .fraw .. | .fredP .. | .fredN .. | .fnewP .. | .fnewN .. | .fadd .. | .fsub ..
  | .fmul .. | .fdiv .. | .finv .. | .fpow .. | .fpowNeg .. | .fsqrt .. | .fisz .. | .feq .. | .pinf ..
  | .pnew .. | .pnewi .. | .ponc .. | .padd .. | .pdbl .. | .pgetx .. | .pgety .. | .peq ..
  | .pisinf .. | .pmov .. | .pgen .. | .smul .. | .pubkey .. | .nonce .. | .sign .. | .verify .. => false

/-- The operand registers a command writes. -/
def regDests : Instr → List RIdx
  | .mov d _ | .fraw d _ | .fredP d _ | .fredN d _ | .fnewP d _ | .fnewN d _ | .fadd d _ _ | .fsub d _ _
  | .fmul d _ _ | .fdiv d _ _ | .finv d _ | .fpow d _ _ | .fpowNeg d _ _ | .fsqrt d _ | .pgetx d _
  | .pgety d _ | .nonce d => [d]
  | .sign d a _ _ => [d, a]
  | .nop | .fisz .. | .feq .. | .pinf .. | .pnew .. | .pnewi .. | .ponc .. | .padd .. | .pdbl ..
  | .peq .. | .pisinf .. | .pmov .. | .pgen .. | .smul .. | .keygen .. | .keyclr | .pubkey ..
  | .verify .. => []

/-- The point registers a command writes (10_state.md R24). -/
def ptDests : Instr → List PIdx
  | .pinf d | .pnew d _ _ | .pnewi d _ _ | .padd d _ _ | .pdbl d _ | .pmov d _ | .pgen d | .smul d _ _
  | .pubkey d => [d]
  | .nop | .mov .. | .fraw .. | .fredP .. | .fredN .. | .fnewP .. | .fnewN .. | .fadd .. | .fsub ..
  | .fmul .. | .fdiv .. | .finv .. | .fpow .. | .fpowNeg .. | .fsqrt .. | .fisz .. | .feq .. | .ponc ..
  | .pgetx .. | .pgety .. | .peq .. | .pisinf .. | .keygen .. | .keyclr | .nonce .. | .sign ..
  | .verify .. => []

/-- `NONCE`, the one command that need not end in one turn of the sequencer (70_reset_and_hazards.md R324). -/
def isNonce : Instr → Bool
  | .nonce .. => true
  | .nop | .mov .. | .fraw .. | .fredP .. | .fredN .. | .fnewP .. | .fnewN .. | .fadd .. | .fsub ..
  | .fmul .. | .fdiv .. | .finv .. | .fpow .. | .fpowNeg .. | .fsqrt .. | .fisz .. | .feq .. | .pinf ..
  | .pnew .. | .pnewi .. | .ponc .. | .padd .. | .pdbl .. | .pgetx .. | .pgety .. | .peq ..
  | .pisinf .. | .pmov .. | .pgen .. | .smul .. | .keygen .. | .keyclr | .pubkey .. | .sign ..
  | .verify .. => false

/-! ## The rules' own words, for statements -/

/-- `inv(x, m)` (00_scope.md R8): "the unique `y` with `0 ≤ y < m` and `(x·y) mod m = 1 mod m`". -/
def IsInv (m x y : Nat) : Prop := y < m ∧ x * y % m = 1 % m

/-- The curve equation over the current configuration, with the coefficients as they stand in
`CURVE_A`, `CURVE_B` (10_state.md R33, R34; 42_point.md R171). -/
def CurveEq (s : State) (x y : Nat) : Prop :=
  y * y ≡ x * x * x + s.cfg.curveA.toNat * x + s.cfg.curveB.toNat [MOD s.p]

/-- Lines 1 to 3 of `NONCE`'s loop set-up (44_ecdsa.md R220 steps 1 to 3): `(K, V)`. -/
def nonceSeed (H : HashProvider) (msg : List Byte) (x : Word) : Word × Word :=
  let ones := List.replicate 32 (0x01 : Byte)
  let K := H.hmacSha256 (List.replicate 32 0x00) (ones ++ [0x00] ++ be32 x ++ be32 (H.sha256 msg))
  (K, H.hmacSha256 (be32 K) ones)

/-- `(K, V)` at the top of iteration `i` of the loop (R220 step 4). -/
def nonceHead (H : HashProvider) (msg : List Byte) (x : Word) : Nat → Word × Word
  | 0 => nonceSeed H msg x
  | i + 1 =>
    let kv := nonceHead H msg x i
    let V := H.hmacSha256 (be32 kv.1) (be32 kv.2)
    let K := H.hmacSha256 (be32 kv.1) (be32 V ++ [0x00])
    (K, H.hmacSha256 (be32 K) (be32 V))

/-- `t` of iteration `i` (R220 step 4). -/
def nonceCandidate (H : HashProvider) (msg : List Byte) (x : Word) (i : Nat) : Word :=
  H.hmacSha256 (be32 (nonceHead H msg x i).1) (be32 (nonceHead H msg x i).2)

/-- The candidate of iteration `i` of a `NONCE` accepted in `s`. -/
def State.candidate (s : State) (i : Nat) : Word := nonceCandidate hashProvider s.message s.key.secret i

/-- "`0 < t and t < n`". -/
def State.goodCandidate (s : State) (i : Nat) : Prop :=
  0 < (s.candidate i).toNat ∧ (s.candidate i).toNat < s.n

/-- The mapped offsets of the register window (20_memory.md R61), and the read-only ones (R63). -/
abbrev Mapped (o : Nat) : Prop :=
  o % 4 = 0 ∧ (o < 0x1C ∨ (0x100 ≤ o ∧ o < 0x1C0) ∨ (0x400 ≤ o ∧ o < 0x600) ∨
    (0x800 ≤ o ∧ o < 0xA00 ∧ (o - 0x800) % 0x80 ≤ 0x40) ∨ (0xC00 ≤ o ∧ o < 0xD00))

abbrev ReadOnly (o : Nat) : Prop := o = 0x00 ∨ o = 0x14 ∨ o = 0x18 ∨ (0x800 ≤ o ∧ o < 0xA00)

/-- Equal but for the secret in the key slot. -/
def SameButSecret (s t : State) : Prop := { s with key := { s.key with secret := t.key.secret } } = t

/-- Equal but for the hidden registers of the nonce generator, and equal in those too in the middle of a
search (10_state.md R47). -/
def SameButHidden (s t : State) : Prop := { s with nonce := t.nonce } = t ∧ (s.nPhase = .gen → s.nonce = t.nonce)

/-! ## The opcode map as a table (30_encoding.md R93), for the statement of R92 -/

/-- What a field of the command word names: `R`, `P`, or `—`, "a field that must be 0". -/
inductive Role where
  | reg | pt | unused
  deriving DecidableEq, Repr

/-- R91, R92 (2), (3). -/
def Role.ok : Role → Nat → Prop
  | .reg, _    => True
  | .pt, n     => n ≤ 3
  | .unused, n => n = 0

/-- A row of R93; `fn` has the one modifier bit the opcode uses, or none. -/
structure OpRow where
  op : Nat
  d  : Role
  a  : Role
  b  : Role
  c  : Role
  fn : Nat
  deriving DecidableEq, Repr

/-- The table of R93. -/
def opcodeMap : List OpRow :=
  [⟨0x00, .unused, .unused, .unused, .unused, 0⟩, ⟨0x01, .reg, .reg, .unused, .unused, 0⟩,
   ⟨0x02, .reg, .reg, .unused, .unused, 0⟩, ⟨0x10, .reg, .reg, .unused, .unused, 1⟩,
   ⟨0x11, .reg, .reg, .unused, .unused, 1⟩, ⟨0x12, .reg, .reg, .reg, .unused, 0⟩,
   ⟨0x13, .reg, .reg, .reg, .unused, 0⟩, ⟨0x14, .reg, .reg, .reg, .unused, 0⟩] ++
  [⟨0x15, .reg, .reg, .reg, .unused, 0⟩, ⟨0x16, .reg, .reg, .unused, .unused, 0⟩,
   ⟨0x17, .reg, .reg, .reg, .unused, 2⟩, ⟨0x18, .reg, .reg, .unused, .unused, 0⟩,
   ⟨0x19, .unused, .reg, .unused, .unused, 0⟩, ⟨0x1A, .unused, .reg, .reg, .unused, 0⟩,
   ⟨0x20, .pt, .unused, .unused, .unused, 0⟩, ⟨0x21, .pt, .reg, .reg, .unused, 0⟩] ++
  [⟨0x22, .pt, .reg, .reg, .unused, 0⟩, ⟨0x23, .unused, .reg, .reg, .unused, 0⟩,
   ⟨0x24, .pt, .pt, .pt, .unused, 0⟩, ⟨0x25, .pt, .pt, .unused, .unused, 0⟩,
   ⟨0x26, .reg, .pt, .unused, .unused, 0⟩, ⟨0x27, .reg, .pt, .unused, .unused, 0⟩,
   ⟨0x28, .unused, .pt, .pt, .unused, 0⟩, ⟨0x29, .unused, .pt, .unused, .unused, 0⟩] ++
  [⟨0x2A, .pt, .pt, .unused, .unused, 0⟩, ⟨0x2B, .pt, .unused, .unused, .unused, 0⟩,
   ⟨0x30, .pt, .pt, .reg, .unused, 0⟩, ⟨0x40, .unused, .reg, .unused, .unused, 0⟩,
   ⟨0x41, .unused, .unused, .unused, .unused, 0⟩, ⟨0x42, .pt, .unused, .unused, .unused, 0⟩,
   ⟨0x43, .reg, .unused, .unused, .unused, 0⟩, ⟨0x44, .reg, .reg, .reg, .reg, 0⟩,
   ⟨0x45, .pt, .reg, .reg, .reg, 0⟩]

/-- R92: "A command word is **legal** when all of the following hold". -/
def LegalWord (w : HWord) : Prop :=
  ∃ r ∈ opcodeMap,
    bitsOf w.toNat 31 24 = r.op ∧ r.d.ok (bitsOf w.toNat 23 20) ∧ r.a.ok (bitsOf w.toNat 19 16) ∧
    r.b.ok (bitsOf w.toNat 15 12) ∧ r.c.ok (bitsOf w.toNat 11 8) ∧
    (bitsOf w.toNat 7 0 = 0 ∨ bitsOf w.toNat 7 0 = r.fn) ∧
    (r.op = 0x44 → bitsOf w.toNat 23 20 ≠ bitsOf w.toNat 19 16)

/-! ## The window, for statements (20_memory.md R61) -/

/-- Offset of word 0 of a configuration register. -/
def CfgReg.offset : CfgReg → Nat
  | .modP   => 0x100
  | .modN   => 0x120
  | .curveA => 0x140
  | .curveB => 0x160
  | .genX   => 0x180
  | .genY   => 0x1A0

/-- Word `w` of `R[i]`. -/
def regOffset (i : RIdx) (w : Fin 8) : Offset := BitVec.ofNat 12 (0x400 + 0x20 * i.val + 4 * w.val)

/-- Word `w` of a configuration register. -/
def cfgOffset (c : CfgReg) (w : Fin 8) : Offset := BitVec.ofNat 12 (c.offset + 4 * w.val)

/-- Byte `o` of the block of `P[j]`. -/
def ptOffset (j : PIdx) (o : Nat) : Offset := BitVec.ofNat 12 (0x800 + 0x80 * j.val + o)

/-- Word `q` of `MSG`. -/
def msgOffset (q : Fin 64) : Offset := BitVec.ofNat 12 (0xC00 + 4 * q.val)

/-- The table of 10_state.md R49, row by row. -/
structure AtReset (t : State) : Prop where
  regs    : ∀ i, (t.reg i).val = 0 ∧ (t.reg i).tag = .int
  pts     : ∀ j, t.pt j = .inf
  key     : t.key.valid = false ∧ t.key.secret = 0 ∧ t.key.pub = .inf
  msg     : ∀ i, i < 256 → t.msgByte i = 0x00
  msgLen  : t.msgLen = 0
  modP    : t.cfg.modP.toNat = 2 ^ 256 - 2 ^ 32 - 977
  modN    : t.cfg.modN.toNat = 0xFFFFFFFFFFFFFFFFFFFFFFFFFFFFFFFEBAAEDCE6AF48A03BBFD25E8CD0364141
  curveA  : t.cfg.curveA.toNat = 0
  curveB  : t.cfg.curveB.toNat = 7
  genX    : t.cfg.genX.toNat = 0x79BE667EF9DCBBAC55A06295CE870B07029BFCDB2DCE28D959F2815B16F81798
  genY    : t.cfg.genY.toNat = 0x483ADA7726A3C4655DA4FBFC0E1108A8FD17B448A68554199C47D08FFB10D4B8
  cmd     : t.cmd = 0x00000000
  status  : t.busy = false ∧ t.done = false ∧ t.err = false ∧ t.t = false ∧ t.errcode = 0 ∧ t.statusWord = 0
  ie      : t.ie = false
  errcmd  : t.errcmd = 0x00000000
  irq     : t.irq = false

/-- `k` steps, stopping at the first fault or refusal. -/
def runSteps : Nat → State → Outcome
  | 0, s => .next s
  | k + 1, s =>
    match step s with
    | .next t => runSteps k t
    | .fault r => .fault r
    | .refused r => .refused r

/-- Whose turn it is: the sequencer's. -/
def State.sequencerNext (s : State) : Bool :=
  match s.events with
  | [] => true
  | .sequencer :: _ => true
  | .bus _ :: _ => false
  | .reset :: _ => false

end Sys2Proof.Machine
end

