-- ==== Sys2Proof/Certificates/Slice0/Obligations.lean ====
section
/-! DEFINITION. The statements for the provers. Each docstring says which rule of spec/ it formalises. A rule
of a command is stated whole: its encoding, its result and frame, and every error it lists. -/

open Sys2Proof Sys2Proof.Machine

/-! ## Moves (40_move.md) -/

/-- R120: `NOP` is the word 0, completes and changes nothing else; no other word with its opcode is legal. -/
def Obligations.NopCompletes : Prop :=
  Encodes ⟨0x00, 0, 0, 0, 0, 0⟩ .nop ∧ packWord ⟨0x00, 0, 0, 0, 0, 0⟩ = 0x00000000 ∧
  (∀ w : HWord, bitsOf w.toNat 31 24 = 0x00 → w ≠ 0 → ∃ r, decode w = .error r) ∧
  ∀ s : State, Completes .nop s fun t => WritesRegs s t []

/-- R121, R122: `MOV` copies value and tag, `FRAW` the value with the tag `INT`; both complete in every state. -/
def Obligations.MovAndFrawCopy : Prop :=
  ∀ (d a : RIdx) (s : State),
    Encodes ⟨0x01, d, a, 0, 0, 0⟩ (.mov d a) ∧
    Completes (.mov d a) s (fun t => t.reg d = ⟨(s.reg a).val, (s.reg a).tag⟩ ∧ WritesRegs s t [d]) ∧
    Encodes ⟨0x02, d, a, 0, 0, 0⟩ (.fraw d a) ∧
    Completes (.fraw d a) s (fun t => t.reg d = ⟨(s.reg a).val, .int⟩ ∧ WritesRegs s t [d])

/-! ## Prime field unit (41_field.md) -/

/-- R132: `FRED.p`, `FRED.n`. -/
def Obligations.FredReduces : Prop :=
  ∀ (d a : RIdx) (s : State),
    Encodes ⟨0x10, d, a, 0, 0, 0⟩ (.fredP d a) ∧ Encodes ⟨0x10, d, a, 0, 0, 1⟩ (.fredN d a) ∧
    (s.p = 0 → Raises (.fredP d a) s .badConfig) ∧
    (s.p ≠ 0 → Completes (.fredP d a) s fun t =>
      t.val d = s.val a % s.p ∧ t.tag d = .int ∧ WritesRegs s t [d]) ∧
    (s.n = 0 → Raises (.fredN d a) s .badConfig) ∧
    (s.n ≠ 0 → Completes (.fredN d a) s fun t =>
      t.val d = s.val a % s.n ∧ t.tag d = .int ∧ WritesRegs s t [d])

/-- R133: `FNEW.p`, `FNEW.n`. -/
def Obligations.FnewConstructs : Prop :=
  ∀ (d a : RIdx) (s : State),
    Encodes ⟨0x11, d, a, 0, 0, 0⟩ (.fnewP d a) ∧ Encodes ⟨0x11, d, a, 0, 0, 1⟩ (.fnewN d a) ∧
    (s.p = 0 → Raises (.fnewP d a) s .badConfig) ∧
    (s.p ≠ 0 → Completes (.fnewP d a) s fun t =>
      t.val d = s.val a % s.p ∧ t.tag d = .fp ∧ WritesRegs s t [d]) ∧
    (s.n = 0 → Raises (.fnewN d a) s .badConfig) ∧
    (s.n ≠ 0 → Completes (.fnewN d a) s fun t =>
      t.val d = s.val a % s.n ∧ t.tag d = .fn ∧ WritesRegs s t [d])

/-- R136: `FADD`. The modulus of an element's field is at least 1 (R130). -/
def Obligations.FaddAdds : Prop :=
  ∀ (d a b : RIdx) (s : State),
    Encodes ⟨0x12, d, a, b, 0, 0⟩ (.fadd d a b) ∧
    (s.tag a = .int ∨ s.tag a ≠ s.tag b → Raises (.fadd d a b) s .mismatchedField) ∧
    ∀ f : FieldSel, s.tag a = f.tag → s.tag b = f.tag → 0 < s.modOf f →
      Completes (.fadd d a b) s fun t =>
        t.val d = (s.val a + s.val b) % s.modOf f ∧ t.tag d = f.tag ∧ WritesRegs s t [d]

/-- R137: `FSUB`, the residue of the integer difference (00_scope.md R8). -/
def Obligations.FsubSubtracts : Prop :=
  ∀ (d a b : RIdx) (s : State),
    Encodes ⟨0x13, d, a, b, 0, 0⟩ (.fsub d a b) ∧
    (s.tag a = .int ∨ s.tag a ≠ s.tag b → Raises (.fsub d a b) s .mismatchedField) ∧
    ∀ f : FieldSel, s.tag a = f.tag → s.tag b = f.tag → 0 < s.modOf f →
      Completes (.fsub d a b) s fun t =>
        (t.val d : ℤ) = ((s.val a : ℤ) - s.val b) % s.modOf f ∧ t.tag d = f.tag ∧ WritesRegs s t [d]

/-- R138: `FMUL`, the full product reduced once, for every modulus, odd or even. -/
def Obligations.FmulMultiplies : Prop :=
  ∀ (d a b : RIdx) (s : State),
    Encodes ⟨0x14, d, a, b, 0, 0⟩ (.fmul d a b) ∧
    (s.tag a = .int ∨ s.tag a ≠ s.tag b → Raises (.fmul d a b) s .mismatchedField) ∧
    ∀ f : FieldSel, s.tag a = f.tag → s.tag b = f.tag → 0 < s.modOf f →
      Completes (.fmul d a b) s fun t =>
        t.val d = s.val a * s.val b % s.modOf f ∧ t.tag d = f.tag ∧ WritesRegs s t [d]

/-- R140: `FDIV`. -/
def Obligations.FdivDivides : Prop :=
  ∀ (d a b : RIdx) (s : State),
    Encodes ⟨0x15, d, a, b, 0, 0⟩ (.fdiv d a b) ∧
    (s.tag a = .int ∨ s.tag a ≠ s.tag b → Raises (.fdiv d a b) s .mismatchedField) ∧
    ∀ f : FieldSel, s.tag a = f.tag → s.tag b = f.tag → 0 < s.modOf f →
      (Nat.gcd (s.val b) (s.modOf f) ≠ 1 → Raises (.fdiv d a b) s .divisionByZero) ∧
      (Nat.gcd (s.val b) (s.modOf f) = 1 → Completes (.fdiv d a b) s fun t =>
        (∃ y, IsInv (s.modOf f) (s.val b) y ∧ t.val d = s.val a * y % s.modOf f) ∧
        t.val d * s.val b % s.modOf f = s.val a % s.modOf f ∧ t.tag d = f.tag ∧ WritesRegs s t [d])

/-- R141, R142: `FINV` and the function the inverter computes. -/
def Obligations.FinvInverts : Prop :=
  ∀ (d a : RIdx) (s : State),
    Encodes ⟨0x16, d, a, 0, 0, 0⟩ (.finv d a) ∧
    (s.tag a = .int → Raises (.finv d a) s .mismatchedField) ∧
    ∀ f : FieldSel, s.tag a = f.tag → 0 < s.modOf f →
      (Nat.gcd (s.val a) (s.modOf f) ≠ 1 → Raises (.finv d a) s .divisionByZero) ∧
      (Nat.gcd (s.val a) (s.modOf f) = 1 → Completes (.finv d a) s fun t =>
        IsInv (s.modOf f) (s.val a) (t.val d) ∧ t.tag d = f.tag ∧ WritesRegs s t [d])

/-- R143: `FPOW`, for every 256-bit exponent, and `FPOW.neg`, the positive power of the inverse. -/
def Obligations.FpowRaises : Prop :=
  ∀ (d a b : RIdx) (s : State),
    Encodes ⟨0x17, d, a, b, 0, 0⟩ (.fpow d a b) ∧ Encodes ⟨0x17, d, a, b, 0, 2⟩ (.fpowNeg d a b) ∧
    (s.tag a = .int → Raises (.fpow d a b) s .mismatchedField ∧ Raises (.fpowNeg d a b) s .mismatchedField) ∧
    ∀ f : FieldSel, s.tag a = f.tag → 0 < s.modOf f →
      (Completes (.fpow d a b) s fun t =>
        t.val d = (if s.modOf f = 1 then 0 else if s.val b = 0 then 1 else s.val a ^ s.val b % s.modOf f) ∧
        t.tag d = f.tag ∧ WritesRegs s t [d]) ∧
      (s.modOf f = 1 → Completes (.fpowNeg d a b) s fun t =>
        t.val d = 0 ∧ t.tag d = f.tag ∧ WritesRegs s t [d]) ∧
      (s.modOf f ≠ 1 → s.val b = 0 → Completes (.fpowNeg d a b) s fun t =>
        t.val d = 1 ∧ t.tag d = f.tag ∧ WritesRegs s t [d]) ∧
      (s.modOf f ≠ 1 → s.val b ≠ 0 → Nat.gcd (s.val a) (s.modOf f) ≠ 1 →
        Raises (.fpowNeg d a b) s .divisionByZero) ∧
      (s.modOf f ≠ 1 → s.val b ≠ 0 → Nat.gcd (s.val a) (s.modOf f) = 1 →
        Completes (.fpowNeg d a b) s fun t =>
          (∃ y, IsInv (s.modOf f) (s.val a) y ∧ t.val d = y ^ s.val b % s.modOf f) ∧
          t.tag d = f.tag ∧ WritesRegs s t [d])

/-- R145: `FSQRT`. -/
def Obligations.FsqrtExponent : Prop :=
  ∀ (d a : RIdx) (s : State),
    Encodes ⟨0x18, d, a, 0, 0, 0⟩ (.fsqrt d a) ∧
    (s.tag a = .int → Raises (.fsqrt d a) s .mismatchedField) ∧
    ∀ f : FieldSel, s.tag a = f.tag →
      (s.modOf f % 4 ≠ 3 → Raises (.fsqrt d a) s .badConfig) ∧
      (s.modOf f % 4 = 3 → Completes (.fsqrt d a) s fun t =>
        t.val d = s.val a ^ ((s.modOf f + 1) / 4) % s.modOf f ∧ t.tag d = f.tag ∧ WritesRegs s t [d])

/-- R146: for a prime modulus `m ≡ 3 (mod 4)`, the result of `FSQRT` on a residue is a root and so is `m − r`;
on a non-residue its square is `m − a`. -/
def Obligations.FsqrtRoots : Prop :=
  ∀ (d a : RIdx) (f : FieldSel) (s : State),
    s.tag a = f.tag → (s.modOf f).Prime → s.modOf f % 4 = 3 → s.val a < s.modOf f →
    Completes (.fsqrt d a) s fun t =>
      ((∃ y, y * y % s.modOf f = s.val a) →
        t.val d * t.val d % s.modOf f = s.val a ∧
        (s.modOf f - t.val d) * (s.modOf f - t.val d) % s.modOf f = s.val a) ∧
      ((¬ ∃ y, y * y % s.modOf f = s.val a) → t.val d * t.val d % s.modOf f = s.modOf f - s.val a)

/-- R148, R149: `FISZ` and `FEQ` complete in every state and answer in `T`. -/
def Obligations.ZeroAndEqualityTests : Prop :=
  ∀ (a b : RIdx) (s : State),
    Encodes ⟨0x19, 0, a, 0, 0, 0⟩ (.fisz a) ∧
    Completes (.fisz a) s (fun t => (t.t = true ↔ s.val a = 0) ∧ WritesFlag s t) ∧
    Encodes ⟨0x1A, 0, a, b, 0, 0⟩ (.feq a b) ∧
    Completes (.feq a b) s (fun t => (t.t = true ↔ s.tag a = s.tag b ∧ s.val a = s.val b) ∧ WritesFlag s t)

/-! ## Point unit (42_point.md) -/

/-- R172, R184: `PINF` and `PMOV` complete in every state. -/
def Obligations.PinfAndPmov : Prop :=
  ∀ (d a : PIdx) (s : State),
    Encodes ⟨0x20, d, 0, 0, 0, 0⟩ (.pinf d) ∧
    Completes (.pinf d) s (fun t => t.pt d = .inf ∧ WritesPts s t [d]) ∧
    Encodes ⟨0x2A, d, a, 0, 0, 0⟩ (.pmov d a) ∧
    Completes (.pmov d a) s (fun t => t.pt d = s.pt a ∧ WritesPts s t [d])

/-- R173: `PNEW`. An `FP` tag implies `MOD_P ≥ 1` (10_state.md R23). -/
def Obligations.PnewValidates : Prop :=
  ∀ (d : PIdx) (a b : RIdx) (s : State),
    Encodes ⟨0x21, d, a, b, 0, 0⟩ (.pnew d a b) ∧
    (s.tag a ≠ .fp ∨ s.tag b ≠ .fp → Raises (.pnew d a b) s .mismatchedField) ∧
    (s.tag a = .fp → s.tag b = .fp → 0 < s.p →
      (¬ CurveEq s (s.val a) (s.val b) → Raises (.pnew d a b) s .pointNotOnCurve) ∧
      (CurveEq s (s.val a) (s.val b) → Completes (.pnew d a b) s fun t =>
        t.pt d = .aff (s.reg a).val (s.reg b).val ∧ WritesPts s t [d]))

/-- R174: `PNEWI`. -/
def Obligations.PnewiValidates : Prop :=
  ∀ (d : PIdx) (a b : RIdx) (s : State),
    Encodes ⟨0x22, d, a, b, 0, 0⟩ (.pnewi d a b) ∧
    (s.p = 0 → Raises (.pnewi d a b) s .badConfig) ∧
    (s.p ≠ 0 → ¬ CurveEq s (s.val a % s.p) (s.val b % s.p) → Raises (.pnewi d a b) s .pointNotOnCurve) ∧
    (s.p ≠ 0 → CurveEq s (s.val a % s.p) (s.val b % s.p) → Completes (.pnewi d a b) s fun t =>
      (∃ x y : Word, x.toNat = s.val a % s.p ∧ y.toNat = s.val b % s.p ∧ t.pt d = .aff x y) ∧
      WritesPts s t [d])

/-- R175: `PONC`. -/
def Obligations.PoncTests : Prop :=
  ∀ (a b : RIdx) (s : State),
    Encodes ⟨0x23, 0, a, b, 0, 0⟩ (.ponc a b) ∧
    (s.tag a ≠ .fp ∨ s.tag b ≠ .fp → Raises (.ponc a b) s .mismatchedField) ∧
    (s.tag a = .fp → s.tag b = .fp → 0 < s.p → Completes (.ponc a b) s fun t =>
      (t.t = true ↔ CurveEq s (s.val a) (s.val b)) ∧ WritesFlag s t)

/-- R176: the five cases of the group law, for every modulus `p ≥ 1`, prime or not; for an odd prime no division
fails, and for `p = 2` every doubling of a point with `y = 1` does. -/
def Obligations.GroupLaw : Prop :=
  ∀ s : State, 0 < s.p →
    (∀ Q, s.padd .inf Q = .ok Q) ∧ (∀ P, s.padd P .inf = .ok P) ∧
    (∀ x1 y1 : Word,
      (y1 = 0 → s.padd (.aff x1 y1) (.aff x1 y1) = .ok .inf) ∧
      (y1 ≠ 0 → Nat.gcd (2 * y1.toNat % s.p) s.p ≠ 1 →
        s.padd (.aff x1 y1) (.aff x1 y1) = .error .divisionByZero) ∧
      (y1 ≠ 0 → Nat.gcd (2 * y1.toNat % s.p) s.p = 1 → ∃ (l : ℕ) (x3 y3 : Word),
        2 * y1.toNat * l ≡ 3 * x1.toNat * x1.toNat + s.cfg.curveA.toNat [MOD s.p] ∧
        x3.toNat < s.p ∧ (x3.toNat : ℤ) ≡ l * l - 2 * x1.toNat [ZMOD s.p] ∧
        y3.toNat < s.p ∧ (y3.toNat : ℤ) ≡ l * (x1.toNat - x3.toNat) - y1.toNat [ZMOD s.p] ∧
        s.padd (.aff x1 y1) (.aff x1 y1) = .ok (.aff x3 y3))) ∧
    (∀ x y1 y2 : Word, y1 ≠ y2 → s.padd (.aff x y1) (.aff x y2) = .ok .inf) ∧
    (∀ x1 y1 x2 y2 : Word, x1 ≠ x2 →
      (Int.gcd ((x2.toNat : ℤ) - x1.toNat) s.p ≠ 1 →
        s.padd (.aff x1 y1) (.aff x2 y2) = .error .divisionByZero) ∧
      (Int.gcd ((x2.toNat : ℤ) - x1.toNat) s.p = 1 → ∃ (l : ℕ) (x3 y3 : Word),
        ((x2.toNat : ℤ) - x1.toNat) * l ≡ y2.toNat - y1.toNat [ZMOD s.p] ∧
        x3.toNat < s.p ∧ (x3.toNat : ℤ) ≡ l * l - x1.toNat - x2.toNat [ZMOD s.p] ∧
        y3.toNat < s.p ∧ (y3.toNat : ℤ) ≡ l * (x1.toNat - x3.toNat) - y1.toNat [ZMOD s.p] ∧
        s.padd (.aff x1 y1) (.aff x2 y2) = .ok (.aff x3 y3))) ∧
    (s.p.Prime → s.p ≠ 2 → ∀ P Q, PointOk s P → PointOk s Q → ∃ R, s.padd P Q = .ok R ∧ PointOk s R) ∧
    (s.p = 2 → ∀ x, s.padd (.aff x 1) (.aff x 1) = .error .divisionByZero)

/-- R177, R178: `PADD` and `PDBL` write what the group law returns and raise what it raises; for an odd prime
`p` and coordinates below it they always complete (R176: "neither division can fail"). -/
def Obligations.PaddAndPdbl : Prop :=
  ∀ (d a b : PIdx) (s : State),
    Encodes ⟨0x24, d, a, b, 0, 0⟩ (.padd d a b) ∧ Encodes ⟨0x25, d, a, 0, 0, 0⟩ (.pdbl d a) ∧
    (∀ q, s.padd (s.pt a) (s.pt b) = .ok q →
      Completes (.padd d a b) s fun t => t.pt d = q ∧ WritesPts s t [d]) ∧
    (∀ e, s.padd (s.pt a) (s.pt b) = .error e → e = .divisionByZero ∧ Raises (.padd d a b) s e) ∧
    (∀ q, s.padd (s.pt a) (s.pt a) = .ok q →
      Completes (.pdbl d a) s fun t => t.pt d = q ∧ WritesPts s t [d]) ∧
    (∀ e, s.padd (s.pt a) (s.pt a) = .error e → e = .divisionByZero ∧ Raises (.pdbl d a) s e) ∧
    (s.p.Prime → s.p ≠ 2 → PointOk s (s.pt a) → PointOk s (s.pt b) →
      Completes (.padd d a b) s (fun t => s.padd (s.pt a) (s.pt b) = .ok (t.pt d)) ∧
      Completes (.pdbl d a) s (fun t => s.padd (s.pt a) (s.pt a) = .ok (t.pt d)))

/-- R179, R180: `PGETX` and `PGETY`. -/
def Obligations.CoordinateReads : Prop :=
  ∀ (d : RIdx) (a : PIdx) (s : State),
    Encodes ⟨0x26, d, a, 0, 0, 0⟩ (.pgetx d a) ∧ Encodes ⟨0x27, d, a, 0, 0, 0⟩ (.pgety d a) ∧
    (s.pt a = .inf → Raises (.pgetx d a) s .absentCoordinate ∧ Raises (.pgety d a) s .absentCoordinate) ∧
    (∀ x y, s.pt a = .aff x y →
      Completes (.pgetx d a) s (fun t => t.reg d = ⟨x, .fp⟩ ∧ WritesRegs s t [d]) ∧
      Completes (.pgety d a) s (fun t => t.reg d = ⟨y, .fp⟩ ∧ WritesRegs s t [d]))

/-- R181, R182 (and 10_state.md R26): `PEQ` and `PISINF` complete in every state. -/
def Obligations.PeqAndPisinf : Prop :=
  ∀ (a b : PIdx) (s : State),
    Encodes ⟨0x28, 0, a, b, 0, 0⟩ (.peq a b) ∧
    Completes (.peq a b) s (fun t =>
      (t.t = true ↔ (s.pt a = .inf ∧ s.pt b = .inf) ∨
        ∃ xa ya xb yb, s.pt a = .aff xa ya ∧ s.pt b = .aff xb yb ∧ xa = xb ∧ ya = yb) ∧
      WritesFlag s t) ∧
    Encodes ⟨0x29, 0, a, 0, 0, 0⟩ (.pisinf a) ∧
    Completes (.pisinf a) s (fun t => (t.t = true ↔ s.pt a = .inf) ∧ WritesFlag s t)

/-- R183, R185: `gen()` and `PGEN`; with the reset configuration `gen()` is the secp256k1 generator. -/
def Obligations.GeneratorValidated : Prop :=
  ∀ (d : PIdx) (s : State),
    Encodes ⟨0x2B, d, 0, 0, 0, 0⟩ (.pgen d) ∧
    (s.p = 0 → s.gen = .error .badConfig ∧ Raises (.pgen d) s .badConfig) ∧
    (s.p ≠ 0 → ¬ CurveEq s (s.cfg.genX.toNat % s.p) (s.cfg.genY.toNat % s.p) →
      s.gen = .error .pointNotOnCurve ∧ Raises (.pgen d) s .pointNotOnCurve) ∧
    (s.p ≠ 0 → CurveEq s (s.cfg.genX.toNat % s.p) (s.cfg.genY.toNat % s.p) → ∃ gx gy : Word,
      gx.toNat = s.cfg.genX.toNat % s.p ∧ gy.toNat = s.cfg.genY.toNat % s.p ∧ s.gen = .ok (.aff gx gy) ∧
      Completes (.pgen d) s (fun t => t.pt d = .aff gx gy ∧ WritesPts s t [d])) ∧
    (s.cfg = CurveConfig.secp256k1 → s.gen = .ok (.aff s.cfg.genX s.cfg.genY))

/-! ## Scalar multiplier (43_scalar.md) -/

/-- R201: the laws it draws from the loop, the loop's one step, and that 256 rounds suffice for every
256-bit scalar (70_reset_and_hazards.md R324). -/
def Obligations.SmulSchedule : Prop :=
  ∀ (s : State) (P : Point),
    s.smul 0 P = .ok .inf ∧ s.smul 1 P = .ok P ∧ s.smul 2 P = s.padd P P ∧
    (∀ k, k < 2 ^ 256 → s.smul k .inf = .ok .inf) ∧
    (∀ k e, s.smul k P = .error e → e = .divisionByZero) ∧
    (∀ k fuel, k < 2 ^ 256 → 256 ≤ fuel → smulLoop s.p s.a fuel k .inf P = s.smul k P) ∧
    (∀ fuel k acc addend, k ≠ 0 → smulLoop s.p s.a (fuel + 1) k acc addend =
      (if k % 2 = 1 then s.padd acc addend else .ok acc).bind fun acc' =>
        if k / 2 = 0 then .ok acc'
        else (s.padd addend addend).bind fun addend' => smulLoop s.p s.a fuel (k / 2) acc' addend')

/-- R202: `SMUL` writes `smul(R[b].val, P[a])`, the scalar unreduced; for an odd prime `p` and coordinates
below it, it always completes. -/
def Obligations.SmulMultiplies : Prop :=
  ∀ (d a : PIdx) (b : RIdx) (s : State),
    Encodes ⟨0x30, d, a, b, 0, 0⟩ (.smul d a b) ∧
    (∀ q, s.smul (s.val b) (s.pt a) = .ok q →
      Completes (.smul d a b) s fun t => t.pt d = q ∧ WritesPts s t [d]) ∧
    (∀ e, s.smul (s.val b) (s.pt a) = .error e → e = .divisionByZero ∧ Raises (.smul d a b) s e) ∧
    (s.p.Prime → s.p ≠ 2 → PointOk s (s.pt a) →
      Completes (.smul d a b) s fun t => s.smul (s.val b) (s.pt a) = .ok (t.pt d) ∧ PointOk s (t.pt d))

/-! ## ECDSA engine (44_ecdsa.md) -/

/-- R215: `KEYGEN`, its errors in the order written; for an odd prime `p` and a generator on the curve, a
non-zero `FN` secret always makes a key. -/
def Obligations.KeygenMakesKey : Prop :=
  ∀ (a : RIdx) (s : State),
    Encodes ⟨0x40, 0, a, 0, 0, 0⟩ (.keygen a) ∧
    (s.tag a ≠ .fn → Raises (.keygen a) s .mismatchedField) ∧
    (s.tag a = .fn → s.val a = 0 → Raises (.keygen a) s .invalidSecret) ∧
    (∀ e, s.tag a = .fn → s.val a ≠ 0 → s.gen = .error e → Raises (.keygen a) s e) ∧
    (∀ g e, s.tag a = .fn → s.val a ≠ 0 → s.gen = .ok g → s.smul (s.val a) g = .error e →
      e = .divisionByZero ∧ Raises (.keygen a) s e) ∧
    (∀ g q, s.tag a = .fn → s.val a ≠ 0 → s.gen = .ok g → s.smul (s.val a) g = .ok q →
      Completes (.keygen a) s fun t => t.key = ⟨true, (s.reg a).val, q⟩ ∧ WritesKey s t) ∧
    (s.tag a = .fn → s.val a ≠ 0 → s.p.Prime → s.p ≠ 2 →
      CurveEq s (s.cfg.genX.toNat % s.p) (s.cfg.genY.toNat % s.p) →
      Completes (.keygen a) s fun t => t.key.valid = true ∧ t.key.secret = (s.reg a).val)

/-- R216, R217: `KEYCLR` and `PUBKEY`. -/
def Obligations.KeyclrAndPubkey : Prop :=
  ∀ (d : PIdx) (s : State),
    Encodes ⟨0x41, 0, 0, 0, 0, 0⟩ .keyclr ∧ packWord ⟨0x41, 0, 0, 0, 0, 0⟩ = 0x41000000 ∧
    Completes .keyclr s (fun t => t.key = ⟨false, 0, .inf⟩ ∧ WritesKey s t) ∧
    Encodes ⟨0x42, d, 0, 0, 0, 0⟩ (.pubkey d) ∧
    (s.key.valid = false → Raises (.pubkey d) s .noKey) ∧
    (s.key.valid = true → Completes (.pubkey d) s fun t => t.pt d = s.key.pub ∧ WritesPts s t [d])

/-- R220: the checks of `NONCE` and its first iteration: a first candidate in `(0, n)` completes, with the tag
`INT`; any other leaves the search running, with only hidden state changed (model's two-step form, log 5). -/
def Obligations.NonceFirstIteration : Prop :=
  ∀ (d : RIdx) (s : State), s.nPhase = .check →
    Encodes ⟨0x43, d, 0, 0, 0, 0⟩ (.nonce d) ∧
    (s.key.valid = false → Raises (.nonce d) s .noKey) ∧
    (s.key.valid = true → 256 < s.msgLen.toNat → Raises (.nonce d) s .badConfig) ∧
    (s.key.valid = true → s.msgLen.toNat ≤ 256 → s.goodCandidate 0 → Completes (.nonce d) s fun t =>
      t.reg d = ⟨s.candidate 0, .int⟩ ∧ WritesRegs { s with nonce := t.nonce } t [d]) ∧
    (s.key.valid = true → s.msgLen.toNat ≤ 256 → ¬ s.goodCandidate 0 →
      ∃ t, exec (.nonce d) s = .next t ∧ t = { s with nonce := t.nonce, nPhase := .gen })

/-- R220, R224: `NONCE` completes with the first candidate in `(0, n)`, however late it comes, and is `BUSY`
until then. That a turn of the sequencer is one iteration of the loop is the model's choice (log 5). -/
def Obligations.NonceCompletesAtFirstHit : Prop :=
  ∀ (s : State) (d : RIdx) (i : ℕ),
    s.busy = true → s.events = [] → decode s.cmd = .ok (.nonce d) → s.nPhase = .check →
    s.key.valid = true → s.msgLen.toNat ≤ 256 → (∀ j, j < i → ¬ s.goodCandidate j) → s.goodCandidate i →
    (∃ t, runSteps (i + 1) s = .next t ∧ t.reg d = ⟨s.candidate i, .int⟩ ∧
      WritesRegs { s with nonce := t.nonce } t [d]) ∧
    ∀ j, j ≤ i → ∃ t, runSteps j s = .next t ∧ t.busy = true ∧
      t = { s with nonce := t.nonce, nPhase := t.nPhase }

/-- R224, 70_reset_and_hazards.md R324: with no candidate in `(0, n)` the block stays in the execution interval
for ever: it never gives up of its own accord. That a turn is one iteration is the model's choice (log 5). -/
def Obligations.NonceWithoutHitStaysBusy : Prop :=
  ∀ (s : State) (d : RIdx),
    s.busy = true → s.events = [] → decode s.cmd = .ok (.nonce d) → s.nPhase = .check →
    s.key.valid = true → s.msgLen.toNat ≤ 256 → (∀ j, ¬ s.goodCandidate j) →
    ∀ k, ∃ t, runSteps k s = .next t ∧ t.busy = true ∧
      t = { s with nonce := t.nonce, nPhase := t.nPhase }

/-- R225, R226: `SIGN`, its errors in the order written and its two results. A valid key implies `MOD_N ≥ 2`
and a `gen()` that succeeds (R213 (ii)). -/
def Obligations.SignSigns : Prop :=
  ∀ (d a b c : RIdx) (s : State), d ≠ a →
    Encodes ⟨0x44, d, a, b, c, 0⟩ (.sign d a b c) ∧
    (s.key.valid = false → Raises (.sign d a b c) s .noKey) ∧
    ∀ g, s.key.valid = true → 2 ≤ s.n → s.gen = .ok g →
      (s.val b % s.n = 0 → Raises (.sign d a b c) s .divisionByZero) ∧
      (∀ e, s.val b % s.n ≠ 0 → s.smul (s.val b % s.n) g = .error e →
        e = .divisionByZero ∧ Raises (.sign d a b c) s e) ∧
      (s.val b % s.n ≠ 0 → s.smul (s.val b % s.n) g = .ok .inf → Raises (.sign d a b c) s .absentCoordinate) ∧
      (∀ x y, s.val b % s.n ≠ 0 → s.smul (s.val b % s.n) g = .ok (.aff x y) →
        (Nat.gcd (s.val b % s.n) s.n ≠ 1 → Raises (.sign d a b c) s .divisionByZero) ∧
        (Nat.gcd (s.val b % s.n) s.n = 1 → Completes (.sign d a b c) s fun t =>
          t.val d = x.toNat % s.n ∧ t.tag d = .fn ∧ t.tag a = .fn ∧
          (∃ i s0, IsInv s.n (s.val b % s.n) i ∧
            s0 = (s.val c % s.n + t.val d * s.key.secret.toNat) % s.n * i % s.n ∧
            t.val a = if 2 * s0 > s.n then s.n - s0 else s0) ∧
          WritesRegs s t [d, a]))

/-- R230, R231: `VERIFY`, its errors in the order written and its answer in `T`. An `FN` tag implies
`MOD_N ≥ 1` (R213 (i)). -/
def Obligations.VerifyJudges : Prop :=
  ∀ (d : PIdx) (a b c : RIdx) (s : State),
    Encodes ⟨0x45, d, a, b, c, 0⟩ (.verify d a b c) ∧
    (s.tag a ≠ .fn ∨ s.tag b ≠ .fn → Raises (.verify d a b c) s .mismatchedField) ∧
    (∀ e, s.tag a = .fn → s.tag b = .fn → s.gen = .error e → Raises (.verify d a b c) s e) ∧
    ∀ g, s.tag a = .fn → s.tag b = .fn → 0 < s.n → s.gen = .ok g →
      (Nat.gcd (s.val b) s.n ≠ 1 → Raises (.verify d a b c) s .divisionByZero) ∧
      ∀ si, IsInv s.n (s.val b) si →
        (∀ e, (s.smul (s.val c % s.n * si % s.n) g = .error e ∨ s.smul (s.val a * si % s.n) (s.pt d) = .error e ∨
            ∃ ug vq, s.smul (s.val c % s.n * si % s.n) g = .ok ug ∧ s.smul (s.val a * si % s.n) (s.pt d) = .ok vq ∧
              s.padd ug vq = .error e) →
          e = .divisionByZero ∧ Raises (.verify d a b c) s .divisionByZero) ∧
        (∀ ug vq total, s.smul (s.val c % s.n * si % s.n) g = .ok ug → s.smul (s.val a * si % s.n) (s.pt d) = .ok vq →
          s.padd ug vq = .ok total → Completes (.verify d a b c) s fun t =>
            (t.t = true ↔ ∃ x y, total = .aff x y ∧ x.toNat = s.val a % s.p) ∧ WritesFlag s t)

/-! ## Command words (30_encoding.md) -/

/-- R92, 60_exceptions.md R276: a word that is not legal is accepted like any command, and completes at the
sequencer's turn with `IllegalCommand` and no other effect; with no key, `STATUS` is then `0x00000606` (R95). -/
def Obligations.IllegalWordCompletes : Prop :=
  ∀ w : HWord, ¬ LegalWord w →
    (∀ (s : State) (rest : List Event), s.busy = false → s.events = .bus (.write 0x004 4 w) :: rest →
      ∃ t, step s = .next t ∧ t.busy = true ∧ t.cmd = w ∧ t.response = some .okay) ∧
    ∀ s : State, s.busy = true → s.sequencerNext = true → s.cmd = w →
      ∃ t, step s = .next t ∧ Failed { s with events := s.events.tail } t .illegalCommand ∧
        (s.t = false → s.key.valid = false → t.statusWord = 0x00000606)

/-- At the sequencer's turn a step runs exactly the command the word in `CMD` decodes to, with the event
consumed (70_reset_and_hazards.md R320, R321; 20_memory.md R75); a table word placed by `withFetchWord` is run
by the very next step. -/
def Obligations.StepRunsDecodedCommand : Prop :=
  (∀ (s : State) (i : Instr), s.busy = true → s.sequencerNext = true → decode s.cmd = .ok i →
    step s = exec i { s with events := s.events.tail }) ∧
  (∀ (s : State) (nbits w : ℕ) (i : Instr), decodeTableWord nbits w = some i →
    step (s.withFetchWord nbits w) = exec i (s.accept (BitVec.ofNat 32 (w % 2 ^ nbits))))

/-- Decoding the encoding of a well-formed instruction gives it back, with every operand at every value
(R90, R93). -/
def Obligations.DecodeEncode : Prop := ∀ i : Instr, i.wf = true → decode (encode i) = .ok i

/-- Each legal word has one meaning: what a word decodes to is well formed and encodes to that word, so no
bit of a word is ignored (R90, R92). -/
def Obligations.EncodeDecode : Prop := ∀ (w : HWord) (i : Instr), decode w = .ok i → encode i = w ∧ i.wf = true

/-- R92: the words that decode to a command are exactly the legal ones of R93's table. -/
def Obligations.LegalWordsDecode : Prop := ∀ w : HWord, (∃ i, decode w = .ok i) ↔ LegalWord w

/-- Words of the spec's examples, in the format of R90 and the opcode map of R93, decode to what they stand for
(R96's assembly order), and illegal words of R95 and 95_test_vectors.md section 7.1 are refused. -/
def Obligations.SpecWordsDecode : Prop :=
  decode 0x01100000 = .ok (.mov 1 0) ∧ decode 0x11710001 = .ok (.fnewN 7 1) ∧
  decode 0x13532000 = .ok (.fsub 5 3 2) ∧ decode 0x17A29002 = .ok (.fpowNeg 10 2 9) ∧
  decode 0x221EF000 = .ok (.pnewi 1 14 15) ∧ decode 0x30106000 = .ok (.smul 1 0 6) ∧
  decode 0x44452300 = .ok (.sign 4 5 2 3) ∧ decode 0x45145300 = .ok (.verify 1 4 5 3) ∧
  decode 0x03000000 = .error .reservedOpcode ∧ decode 0x00100000 = .error .unusedField ∧
  decode 0x12123001 = .error .modifierBits ∧ decode 0x20400000 = .error .pointIndex ∧
  decode 0x44112300 = .error .signSameDestination

/-! ## The life of a command, and the invariant -/

/-- Every step, from every state that meets it, keeps the invariant: R23, R27, R28, R42, R29 and the rest of
`Inv`. -/
def Obligations.InvariantKept : Prop := ∀ s t : State, Inv s → step s = .next t → Inv t

/-- The invariant holds after reset. -/
def Obligations.InvariantAtReset : Prop := Inv State.reset

/-- No step of the block stops (60_exceptions.md R281, R294). -/
def Obligations.StepNeverStops : Prop := ∀ s : State, ∃ t, step s = .next t

/-- 60_exceptions.md R280, 70_reset_and_hazards.md R322, R324: every command but `NONCE` ends in one turn,
either with its own destinations written and nothing else, or with an error and none of its writes; `NONCE`
may also go on, with only hidden state changed. -/
def Obligations.CommandsEndWhole : Prop :=
  (∀ (i : Instr) (s : State), isNonce i = false →
    (Completes i s fun t => Ends s t (regDests i) (ptDests i) (writesKey i) (isPredicate i)) ∨
    ∃ e, e ≠ .invalidEncoding ∧ Raises i s e) ∧
  (∀ (d : RIdx) (s : State),
    (Completes (.nonce d) s fun t => Ends { s with nonce := t.nonce } t [d] [] false false) ∨
    (∃ t, exec (.nonce d) s = .next t ∧ t = { s with nonce := t.nonce, nPhase := .gen }) ∨
    ∃ e, e ≠ .invalidEncoding ∧ Raises (.nonce d) s e)

/-- 70_reset_and_hazards.md R321: between acceptance and completion `STATUS` shows `BUSY` and `KEYV` alone, and
whatever the host does, short of a reset, no architectural state but `CTRL.IE` changes; the nonce generator's
hidden registers and the model's `events` and `response` (log 1, log 2, log 5) may. -/
def Obligations.ExecutionInterval : Prop :=
  ∀ s : State, Inv s → s.busy = true →
    s.statusWord = BitVec.ofNat 32 (1 + 16 * s.key.valid.toNat) ∧
    ∀ t, step s = .next t → t.busy = true →
      t = { s with ie := t.ie, nonce := t.nonce, nPhase := t.nPhase, events := t.events, response := t.response }

/-- R320: acceptance of a command word, one atomic step, possible only when idle; until completion no bus
access changes a register the command reads. -/
def Obligations.Acceptance : Prop :=
  (∀ (s : State) (w : HWord) (rest : List Event),
    s.busy = false → s.events = .bus (.write 0x004 4 w) :: rest →
    ∃ t, step s = .next t ∧ t.irq = false ∧ t = { s with
      cmd := w, busy := true, done := false, err := false, errcode := 0, t := false,
      nPhase := .check, events := rest, response := some .okay }) ∧
  (∀ (s : State) (w : HWord) (rest : List Event),
    s.busy = true → s.events = .bus (.write 0x004 4 w) :: rest →
    step s = .next { s with events := rest, response := some .error }) ∧
  ∀ (s : State) (a : Access), s.busy = true → (busStep s a).busy = true →
    busStep s a = { s with ie := (busStep s a).ie, response := (busStep s a).response }

/-- 20_memory.md R70, 70_reset_and_hazards.md R325: the busy rule, and R311's soft reset through it. -/
def Obligations.BusyRule : Prop :=
  ∀ s : State, s.busy = true →
    busStep s (.read 0x000 4) = s.respond (.data 0x4D4D5631) ∧
    busStep s (.read 0x004 4) = s.respond (.data s.cmd) ∧
    busStep s (.read 0x008 4) = s.respond (.data s.statusWord) ∧
    busStep s (.read 0x00C 4) = s.respond (.data s.ctrlWord) ∧
    busStep s (.read 0x010 4) = s.respond (.data (s.msgLen.setWidth 32)) ∧
    busStep s (.read 0x014 4) = s.respond (.data s.errcmd) ∧
    (∀ (off : Offset) (width : ℕ), ¬ (width = 4 ∧ off.toNat % 4 = 0 ∧ off.toNat ≤ 0x014) →
      busStep s (.read off width) = s.respond .error) ∧
    (∀ v : HWord, v.getLsbD 1 = false →
      busStep s (.write 0x00C 4 v) = { s with ie := v.getLsbD 0, response := some .okay }) ∧
    (∀ v : HWord, v.getLsbD 1 = true → AtReset (busStep s (.write 0x00C 4 v))) ∧
    (∀ (off : Offset) (width : ℕ) (v : HWord), ¬ (width = 4 ∧ off = 0x00C) →
      busStep s (.write off width v) = s.respond .error)

/-- 20_memory.md R61, R62, R71 (a): what an idle read of each mapped word returns. -/
def Obligations.IdleReads : Prop :=
  ∀ s : State, s.busy = false →
    busStep s (.read 0x000 4) = s.respond (.data 0x4D4D5631) ∧
    busStep s (.read 0x004 4) = s.respond (.data s.cmd) ∧
    busStep s (.read 0x008 4) = s.respond (.data s.statusWord) ∧
    busStep s (.read 0x00C 4) = s.respond (.data s.ctrlWord) ∧
    busStep s (.read 0x010 4) = s.respond (.data (s.msgLen.setWidth 32)) ∧
    busStep s (.read 0x014 4) = s.respond (.data s.errcmd) ∧
    busStep s (.read 0x018 4) = s.respond (.data s.rtagWord) ∧
    (∀ (c : CfgReg) (w : Fin 8), busStep s (.read (cfgOffset c w) 4) =
      s.respond (.data ((s.cfg.get c).extractLsb' (32 * w.val) 32))) ∧
    (∀ (i : RIdx) (w : Fin 8), busStep s (.read (regOffset i w) 4) =
      s.respond (.data ((s.reg i).val.extractLsb' (32 * w.val) 32))) ∧
    (∀ (j : PIdx) (w : Fin 8), s.pt j = .inf →
      busStep s (.read (ptOffset j (4 * w.val)) 4) = s.respond (.data 0) ∧
      busStep s (.read (ptOffset j (0x20 + 4 * w.val)) 4) = s.respond (.data 0) ∧
      busStep s (.read (ptOffset j 0x40) 4) = s.respond (.data 1)) ∧
    (∀ (j : PIdx) (w : Fin 8) (x y : Word), s.pt j = .aff x y →
      busStep s (.read (ptOffset j (4 * w.val)) 4) = s.respond (.data (x.extractLsb' (32 * w.val) 32)) ∧
      busStep s (.read (ptOffset j (0x20 + 4 * w.val)) 4) = s.respond (.data (y.extractLsb' (32 * w.val) 32)) ∧
      busStep s (.read (ptOffset j 0x40) 4) = s.respond (.data 0)) ∧
    (∀ q : Fin 64, ∃ v : HWord, busStep s (.read (msgOffset q) 4) = s.respond (.data v) ∧
      ∀ k : Fin 4, v.extractLsb' (8 * k.val) 8 = s.msgByte (4 * q.val + k.val))

/-- 20_memory.md R62, R63, R69: accesses outside the map, misaligned, of another width, and writes to
read-only registers are answered `ERROR` and change nothing; every other idle access is answered `OKAY`. -/
def Obligations.RefusedAccesses : Prop :=
  ∀ (s : State) (off : Offset) (width : ℕ) (v : HWord),
    (¬ Mapped off.toNat ∨ width ≠ 4 → busStep s (.read off width) = s.respond .error) ∧
    (¬ Mapped off.toNat ∨ ReadOnly off.toNat ∨ width ≠ 4 → busStep s (.write off width v) = s.respond .error) ∧
    (s.busy = false → Mapped off.toNat → width = 4 → ∃ x, busStep s (.read off width) = s.respond (.data x)) ∧
    (s.busy = false → Mapped off.toNat → ¬ ReadOnly off.toNat → width = 4 →
      (busStep s (.write off width v)).response = some .okay)

/-- 20_memory.md R66 (10_state.md R21): a host write of one word of `R[i]`. -/
def Obligations.OperandWrites : Prop :=
  ∀ (s : State) (i : RIdx) (w : Fin 8) (v : HWord), s.busy = false →
    ∃ t, busStep s (.write (regOffset i w) 4 v) = t ∧
      t = { s with regs := t.regs, response := some .okay } ∧
      (∀ j, j ≠ i → t.reg j = s.reg j) ∧ (t.reg i).tag = .int ∧
      (t.reg i).val.extractLsb' (32 * w.val) 32 = v ∧
      ∀ w' : Fin 8, w' ≠ w →
        (t.reg i).val.extractLsb' (32 * w'.val) 32 = (s.reg i).val.extractLsb' (32 * w'.val) 32

/-- 20_memory.md R67, 10_state.md R37: a host write of one word of a configuration register demotes every tag
and point and clears the key, whatever the written word. -/
def Obligations.ConfigWritesDemote : Prop :=
  ∀ (s : State) (c : CfgReg) (w : Fin 8) (v : HWord), s.busy = false →
    ∃ t, busStep s (.write (cfgOffset c w) 4 v) = t ∧
      t = { s with regs := t.regs, pts := t.pts, key := t.key, cfg := t.cfg, response := some .okay } ∧
      (∀ i, (t.reg i).val = (s.reg i).val ∧ (t.reg i).tag = .int) ∧ (∀ j, t.pt j = .inf) ∧
      t.key = ⟨false, 0, .inf⟩ ∧ (∀ c', c' ≠ c → t.cfg.get c' = s.cfg.get c') ∧
      (t.cfg.get c).extractLsb' (32 * w.val) 32 = v ∧
      ∀ w' : Fin 8, w' ≠ w →
        (t.cfg.get c).extractLsb' (32 * w'.val) 32 = (s.cfg.get c).extractLsb' (32 * w'.val) 32

/-- 20_memory.md R68, R71 (b): a host write of one word of `MSG` and what it reads back as; every byte of
memory outside the word is unchanged, and the canonical form is kept. -/
def Obligations.MsgWrites : Prop :=
  ∀ (s : State) (q : Fin 64) (v : HWord), s.busy = false → MemOk s →
    ∃ t, busStep s (.write (msgOffset q) 4 v) = t ∧ t = { s with mem := t.mem, response := some .okay } ∧
      MemOk t ∧ (∀ k : Fin 4, t.msgByte (4 * q.val + k.val) = v.extractLsb' (8 * k.val) 8) ∧
      (∀ a, ¬ (0xC00 + 4 * q.val ≤ a ∧ a < 0xC00 + 4 * q.val + 4) → t.mem.read a = s.mem.read a) ∧
      busStep t (.read (msgOffset q) 4) = t.respond (.data v)

/-- 20_memory.md R65: writes to `STATUS`, `CTRL` and `MSG_LEN`. -/
def Obligations.ControlWrites : Prop :=
  ∀ (s : State) (v : HWord),
    (s.busy = false → v.getLsbD 1 = true →
      busStep s (.write 0x008 4 v) = { s with done := false, response := some .okay }) ∧
    (s.busy = false → v.getLsbD 1 = false → busStep s (.write 0x008 4 v) = s.respond .okay) ∧
    (v.getLsbD 1 = true → AtReset (busStep s (.write 0x00C 4 v))) ∧
    (v.getLsbD 1 = false → busStep s (.write 0x00C 4 v) = { s with ie := v.getLsbD 0, response := some .okay }) ∧
    (s.busy = false →
      busStep s (.write 0x010 4 v) = { s with msgLen := v.extractLsb' 0 9, response := some .okay })

/-- 10_state.md R49, 70_reset_and_hazards.md R310, R311: `RESET` and a soft reset, in whatever state the block
is, leave every piece of architectural state at its reset value, and so does power-on; a soft reset is the only
host access that ends a running command. -/
def Obligations.ResetValues : Prop :=
  AtReset State.reset ∧
  (∀ (s : State) (rest : List Event), s.events = .reset :: rest →
    ∃ t, step s = .next t ∧ AtReset t) ∧
  (∀ (s : State) (v : HWord) (rest : List Event),
    s.events = .bus (.write 0x00C 4 v) :: rest → v.getLsbD 1 = true →
    ∃ t, step s = .next t ∧ AtReset t ∧ t.response = some .okay) ∧
  (∀ (s : State) (a : Access), s.busy = true → (busStep s a).busy = false →
    ∃ v, a = .write 0x00C 4 v ∧ v.getLsbD 1 = true)

/-- 10_state.md R42, R43, R46, R22; 60_exceptions.md R290: the bits of `STATUS`, `CTRL` and `RTAG`, and `irq`. -/
def Obligations.StatusWords : Prop :=
  ∀ s : State,
    s.statusWord.getLsbD 0 = s.busy ∧ s.statusWord.getLsbD 1 = s.done ∧ s.statusWord.getLsbD 2 = s.err ∧
    s.statusWord.getLsbD 3 = s.t ∧ s.statusWord.getLsbD 4 = s.key.valid ∧
    s.statusWord.extractLsb' 5 3 = 0 ∧ s.statusWord.extractLsb' 8 4 = s.errcode ∧
    s.statusWord.extractLsb' 12 20 = 0 ∧
    s.ctrlWord.getLsbD 0 = s.ie ∧ s.ctrlWord.extractLsb' 1 31 = 0 ∧
    (∀ i : RIdx, s.rtagWord.extractLsb' (2 * i.val) 2 =
      match s.tag i with
      | .int => 0b00#2
      | .fp => 0b01#2
      | .fn => 0b10#2) ∧
    (s.irq = true ↔ s.ie = true ∧ s.done = true)

/-- 10_state.md R39: `T` is written only by the six predicate commands, and only when they complete without
error; from a state of the invariant, a step that leaves `T = 1` found it 1 or completed a predicate. -/
def Obligations.PredicateFlag : Prop :=
  (∀ (i : Instr) (s t : State), exec i s = .next t → isPredicate i = false → t.t = s.t) ∧
  (∀ (i : Instr) (s t : State), exec i s = .next t → s.err = false → t.err = true → t.t = s.t) ∧
  (∀ s t : State, Inv s → step s = .next t → t.t = true →
    s.t = true ∨ ∃ i, decode s.cmd = .ok i ∧ isPredicate i = true ∧ s.busy = true ∧
      t.busy = false ∧ t.done = true ∧ t.err = false)

/-- 10_state.md R27: only `KEYGEN` sets the key slot, all three fields together; only `KEYCLR`, demotion and
reset clear it; nothing else changes it. -/
def Obligations.KeyLifetime : Prop :=
  ∀ s t : State, step s = .next t →
    t.key = s.key ∨
    (t.key = ⟨false, 0, .inf⟩ ∧
      ((∃ rest, s.events = .reset :: rest) ∨
       (∃ v rest, s.events = .bus (.write 0x00C 4 v) :: rest ∧ v.getLsbD 1 = true) ∨
       (∃ c w v rest, s.events = .bus (.write (cfgOffset c w) 4 v) :: rest ∧ s.busy = false) ∨
       (s.busy = true ∧ decode s.cmd = .ok .keyclr))) ∨
    (s.busy = true ∧ ∃ a g q, decode s.cmd = .ok (.keygen a) ∧ s.tag a = .fn ∧ s.val a ≠ 0 ∧
      s.gen = .ok g ∧ s.smul (s.val a) g = .ok q ∧ t.key = ⟨true, (s.reg a).val, q⟩)

/-- 60_exceptions.md R301, 10_state.md R27: no answer of the bus depends on `KEY.secret`, and no command but
`NONCE` and `SIGN`, which the rule excepts, leaves anything that does. No claim is made about those two, nor
about the operand register `KEYGEN` took the secret from. -/
def Obligations.SecretUnread : Prop :=
  ∀ s s' : State, SameButSecret s s' →
    (∀ a : Access, (busStep s' a).response = (busStep s a).response ∧ SameButSecret (busStep s a) (busStep s' a)) ∧
    (∀ (i : Instr) (t : State), isNonce i = false → (∀ d a b c, i ≠ .sign d a b c) → exec i s = .next t →
      ∃ t', exec i s' = .next t' ∧ SameButSecret t t')

/-- 10_state.md R47, 44_ecdsa.md R223: outside a running search the hidden registers of the nonce generator
are observed by nothing: two states that differ in them alone stay so under every step. -/
def Obligations.HiddenUnobservable : Prop :=
  ∀ s s' t : State, SameButHidden s s' → step s = .next t → ∃ t', step s' = .next t' ∧ SameButHidden t t'

/-! ## Refinement, the curve, host-side encodings -/

/-- 41_field.md R160, R161, R163: the Montgomery datapath computes the canonical product. -/
def Obligations.MontgomeryRefines : Prop :=
  (∀ m x y : ℕ, m % 2 = 1 → m < 2 ^ 256 → x < m → y < m →
    montMul m x y < m ∧ montMul m x y * 2 ^ 256 % m = x * y % m ∧
    montMul m x (montR2 m) = x * 2 ^ 256 % m ∧
    montMul m (montMul m x (montR2 m)) 1 = x ∧
    x * y % m = montMul m (montMul m x y) (montR2 m) ∧
    x * y % m = montMul m (montMul m (montMul m x (montR2 m)) (montMul m y (montR2 m))) 1) ∧
  (∀ m x y : ℕ, 0 < m → m < 2 ^ 256 → x < m → y < m → datapathMul m x y = x * y % m)

/-- 42_point.md R176, 10_state.md R25: for a prime `p` the group law keeps points on the curve. The rule marks
this as general knowledge. -/
def Obligations.GroupLawKeepsCurve : Prop :=
  ∀ (s : State) (P Q R : Point), s.p.Prime → OnCurve s.p s.a s.b P → OnCurve s.p s.a s.b Q →
    s.padd P Q = .ok R → OnCurve s.p s.a s.b R

/-- 10_state.md R25 in full, for a prime `MOD_P`: every step keeps every stored point on the curve. -/
def Obligations.PointsStayOnCurve : Prop :=
  ∀ s t : State, Inv s → s.p.Prime → PointsOnCurve s → step s = .next t → PointsOnCurve t

/-- 46_host_encodings.md R251, R252, R254: decoding an encoded point of the curve gives it back; the
compressed form for a prime `p ≡ 3 (mod 4)`. -/
def Obligations.SecRoundTrip : Prop :=
  ∀ (s : State) (x y : Word) (bytes : List Byte), OnCurve s.p s.a s.b (.aff x y) →
    (secUncompressed (.aff x y) = some bytes → bytes.length = 65 ∧ secDecode s bytes = .ok (.aff x y)) ∧
    (s.p.Prime → s.p % 4 = 3 → secCompressed (.aff x y) = some bytes →
      bytes.length = 33 ∧ secDecode s bytes = .ok (.aff x y))
end

