-- ==== Sys2Proof/Laws/State.lean ====
section
/-! SUPPORT. The state's update lemmas: one per field per update, true by `rfl`, so that no later proof
unfolds a record update. -/

namespace Sys2Proof.Machine

variable (s : State)

/-! ## `State.setReg` -/

@[simp] theorem State.setReg_regs (i : RIdx) (r : Reg) : (s.setReg i r).regs = s.regs.set i.val r := rfl
@[simp] theorem State.setReg_pts (i : RIdx) (r : Reg) : (s.setReg i r).pts = s.pts := rfl
@[simp] theorem State.setReg_key (i : RIdx) (r : Reg) : (s.setReg i r).key = s.key := rfl
@[simp] theorem State.setReg_mem (i : RIdx) (r : Reg) : (s.setReg i r).mem = s.mem := rfl
@[simp] theorem State.setReg_msgLen (i : RIdx) (r : Reg) : (s.setReg i r).msgLen = s.msgLen := rfl
@[simp] theorem State.setReg_cfg (i : RIdx) (r : Reg) : (s.setReg i r).cfg = s.cfg := rfl
@[simp] theorem State.setReg_cmd (i : RIdx) (r : Reg) : (s.setReg i r).cmd = s.cmd := rfl
@[simp] theorem State.setReg_busy (i : RIdx) (r : Reg) : (s.setReg i r).busy = s.busy := rfl
@[simp] theorem State.setReg_done (i : RIdx) (r : Reg) : (s.setReg i r).done = s.done := rfl
@[simp] theorem State.setReg_err (i : RIdx) (r : Reg) : (s.setReg i r).err = s.err := rfl
@[simp] theorem State.setReg_t (i : RIdx) (r : Reg) : (s.setReg i r).t = s.t := rfl
@[simp] theorem State.setReg_errcode (i : RIdx) (r : Reg) : (s.setReg i r).errcode = s.errcode := rfl
@[simp] theorem State.setReg_ie (i : RIdx) (r : Reg) : (s.setReg i r).ie = s.ie := rfl
@[simp] theorem State.setReg_errcmd (i : RIdx) (r : Reg) : (s.setReg i r).errcmd = s.errcmd := rfl
@[simp] theorem State.setReg_nonce (i : RIdx) (r : Reg) : (s.setReg i r).nonce = s.nonce := rfl
@[simp] theorem State.setReg_nPhase (i : RIdx) (r : Reg) : (s.setReg i r).nPhase = s.nPhase := rfl
@[simp] theorem State.setReg_events (i : RIdx) (r : Reg) : (s.setReg i r).events = s.events := rfl
@[simp] theorem State.setReg_response (i : RIdx) (r : Reg) : (s.setReg i r).response = s.response := rfl

/-! ## `State.setPt` -/

@[simp] theorem State.setPt_regs (j : PIdx) (q : Point) : (s.setPt j q).regs = s.regs := rfl
@[simp] theorem State.setPt_pts (j : PIdx) (q : Point) : (s.setPt j q).pts = s.pts.set j.val q := rfl
@[simp] theorem State.setPt_key (j : PIdx) (q : Point) : (s.setPt j q).key = s.key := rfl
@[simp] theorem State.setPt_mem (j : PIdx) (q : Point) : (s.setPt j q).mem = s.mem := rfl
@[simp] theorem State.setPt_msgLen (j : PIdx) (q : Point) : (s.setPt j q).msgLen = s.msgLen := rfl
@[simp] theorem State.setPt_cfg (j : PIdx) (q : Point) : (s.setPt j q).cfg = s.cfg := rfl
@[simp] theorem State.setPt_cmd (j : PIdx) (q : Point) : (s.setPt j q).cmd = s.cmd := rfl
@[simp] theorem State.setPt_busy (j : PIdx) (q : Point) : (s.setPt j q).busy = s.busy := rfl
@[simp] theorem State.setPt_done (j : PIdx) (q : Point) : (s.setPt j q).done = s.done := rfl
@[simp] theorem State.setPt_err (j : PIdx) (q : Point) : (s.setPt j q).err = s.err := rfl
@[simp] theorem State.setPt_t (j : PIdx) (q : Point) : (s.setPt j q).t = s.t := rfl
@[simp] theorem State.setPt_errcode (j : PIdx) (q : Point) : (s.setPt j q).errcode = s.errcode := rfl
@[simp] theorem State.setPt_ie (j : PIdx) (q : Point) : (s.setPt j q).ie = s.ie := rfl
@[simp] theorem State.setPt_errcmd (j : PIdx) (q : Point) : (s.setPt j q).errcmd = s.errcmd := rfl
@[simp] theorem State.setPt_nonce (j : PIdx) (q : Point) : (s.setPt j q).nonce = s.nonce := rfl
@[simp] theorem State.setPt_nPhase (j : PIdx) (q : Point) : (s.setPt j q).nPhase = s.nPhase := rfl
@[simp] theorem State.setPt_events (j : PIdx) (q : Point) : (s.setPt j q).events = s.events := rfl
@[simp] theorem State.setPt_response (j : PIdx) (q : Point) : (s.setPt j q).response = s.response := rfl

/-! ## `State.setKey` -/

@[simp] theorem State.setKey_regs (k : KeySlot) : (s.setKey k).regs = s.regs := rfl
@[simp] theorem State.setKey_pts (k : KeySlot) : (s.setKey k).pts = s.pts := rfl
@[simp] theorem State.setKey_key (k : KeySlot) : (s.setKey k).key = k := rfl
@[simp] theorem State.setKey_mem (k : KeySlot) : (s.setKey k).mem = s.mem := rfl
@[simp] theorem State.setKey_msgLen (k : KeySlot) : (s.setKey k).msgLen = s.msgLen := rfl
@[simp] theorem State.setKey_cfg (k : KeySlot) : (s.setKey k).cfg = s.cfg := rfl
@[simp] theorem State.setKey_cmd (k : KeySlot) : (s.setKey k).cmd = s.cmd := rfl
@[simp] theorem State.setKey_busy (k : KeySlot) : (s.setKey k).busy = s.busy := rfl
@[simp] theorem State.setKey_done (k : KeySlot) : (s.setKey k).done = s.done := rfl
@[simp] theorem State.setKey_err (k : KeySlot) : (s.setKey k).err = s.err := rfl
@[simp] theorem State.setKey_t (k : KeySlot) : (s.setKey k).t = s.t := rfl
@[simp] theorem State.setKey_errcode (k : KeySlot) : (s.setKey k).errcode = s.errcode := rfl
@[simp] theorem State.setKey_ie (k : KeySlot) : (s.setKey k).ie = s.ie := rfl
@[simp] theorem State.setKey_errcmd (k : KeySlot) : (s.setKey k).errcmd = s.errcmd := rfl
@[simp] theorem State.setKey_nonce (k : KeySlot) : (s.setKey k).nonce = s.nonce := rfl
@[simp] theorem State.setKey_nPhase (k : KeySlot) : (s.setKey k).nPhase = s.nPhase := rfl
@[simp] theorem State.setKey_events (k : KeySlot) : (s.setKey k).events = s.events := rfl
@[simp] theorem State.setKey_response (k : KeySlot) : (s.setKey k).response = s.response := rfl

/-! ## `State.setT` -/

@[simp] theorem State.setT_regs (b : Bool) : (s.setT b).regs = s.regs := rfl
@[simp] theorem State.setT_pts (b : Bool) : (s.setT b).pts = s.pts := rfl
@[simp] theorem State.setT_key (b : Bool) : (s.setT b).key = s.key := rfl
@[simp] theorem State.setT_mem (b : Bool) : (s.setT b).mem = s.mem := rfl
@[simp] theorem State.setT_msgLen (b : Bool) : (s.setT b).msgLen = s.msgLen := rfl
@[simp] theorem State.setT_cfg (b : Bool) : (s.setT b).cfg = s.cfg := rfl
@[simp] theorem State.setT_cmd (b : Bool) : (s.setT b).cmd = s.cmd := rfl
@[simp] theorem State.setT_busy (b : Bool) : (s.setT b).busy = s.busy := rfl
@[simp] theorem State.setT_done (b : Bool) : (s.setT b).done = s.done := rfl
@[simp] theorem State.setT_err (b : Bool) : (s.setT b).err = s.err := rfl
@[simp] theorem State.setT_t (b : Bool) : (s.setT b).t = b := rfl
@[simp] theorem State.setT_errcode (b : Bool) : (s.setT b).errcode = s.errcode := rfl
@[simp] theorem State.setT_ie (b : Bool) : (s.setT b).ie = s.ie := rfl
@[simp] theorem State.setT_errcmd (b : Bool) : (s.setT b).errcmd = s.errcmd := rfl
@[simp] theorem State.setT_nonce (b : Bool) : (s.setT b).nonce = s.nonce := rfl
@[simp] theorem State.setT_nPhase (b : Bool) : (s.setT b).nPhase = s.nPhase := rfl
@[simp] theorem State.setT_events (b : Bool) : (s.setT b).events = s.events := rfl
@[simp] theorem State.setT_response (b : Bool) : (s.setT b).response = s.response := rfl

/-! ## `State.accept` -/

@[simp] theorem State.accept_regs (w : HWord) : (s.accept w).regs = s.regs := rfl
@[simp] theorem State.accept_pts (w : HWord) : (s.accept w).pts = s.pts := rfl
@[simp] theorem State.accept_key (w : HWord) : (s.accept w).key = s.key := rfl
@[simp] theorem State.accept_mem (w : HWord) : (s.accept w).mem = s.mem := rfl
@[simp] theorem State.accept_msgLen (w : HWord) : (s.accept w).msgLen = s.msgLen := rfl
@[simp] theorem State.accept_cfg (w : HWord) : (s.accept w).cfg = s.cfg := rfl
@[simp] theorem State.accept_cmd (w : HWord) : (s.accept w).cmd = w := rfl
@[simp] theorem State.accept_busy (w : HWord) : (s.accept w).busy = true := rfl
@[simp] theorem State.accept_done (w : HWord) : (s.accept w).done = false := rfl
@[simp] theorem State.accept_err (w : HWord) : (s.accept w).err = false := rfl
@[simp] theorem State.accept_t (w : HWord) : (s.accept w).t = false := rfl
@[simp] theorem State.accept_errcode (w : HWord) : (s.accept w).errcode = 0 := rfl
@[simp] theorem State.accept_ie (w : HWord) : (s.accept w).ie = s.ie := rfl
@[simp] theorem State.accept_errcmd (w : HWord) : (s.accept w).errcmd = s.errcmd := rfl
@[simp] theorem State.accept_nonce (w : HWord) : (s.accept w).nonce = s.nonce := rfl
@[simp] theorem State.accept_nPhase (w : HWord) : (s.accept w).nPhase = .check := rfl
@[simp] theorem State.accept_events (w : HWord) : (s.accept w).events = s.events := rfl
@[simp] theorem State.accept_response (w : HWord) : (s.accept w).response = s.response := rfl

/-! ## `State.complete` -/

@[simp] theorem State.complete_regs : (s.complete).regs = s.regs := rfl
@[simp] theorem State.complete_pts : (s.complete).pts = s.pts := rfl
@[simp] theorem State.complete_key : (s.complete).key = s.key := rfl
@[simp] theorem State.complete_mem : (s.complete).mem = s.mem := rfl
@[simp] theorem State.complete_msgLen : (s.complete).msgLen = s.msgLen := rfl
@[simp] theorem State.complete_cfg : (s.complete).cfg = s.cfg := rfl
@[simp] theorem State.complete_cmd : (s.complete).cmd = s.cmd := rfl
@[simp] theorem State.complete_busy : (s.complete).busy = false := rfl
@[simp] theorem State.complete_done : (s.complete).done = true := rfl
@[simp] theorem State.complete_err : (s.complete).err = s.err := rfl
@[simp] theorem State.complete_t : (s.complete).t = s.t := rfl
@[simp] theorem State.complete_errcode : (s.complete).errcode = s.errcode := rfl
@[simp] theorem State.complete_ie : (s.complete).ie = s.ie := rfl
@[simp] theorem State.complete_errcmd : (s.complete).errcmd = s.errcmd := rfl
@[simp] theorem State.complete_nonce : (s.complete).nonce = s.nonce := rfl
@[simp] theorem State.complete_nPhase : (s.complete).nPhase = .check := rfl
@[simp] theorem State.complete_events : (s.complete).events = s.events := rfl
@[simp] theorem State.complete_response : (s.complete).response = s.response := rfl

/-! ## `State.completeError` -/

@[simp] theorem State.completeError_regs (e : ErrKind) : (s.completeError e).regs = s.regs := rfl
@[simp] theorem State.completeError_pts (e : ErrKind) : (s.completeError e).pts = s.pts := rfl
@[simp] theorem State.completeError_key (e : ErrKind) : (s.completeError e).key = s.key := rfl
@[simp] theorem State.completeError_mem (e : ErrKind) : (s.completeError e).mem = s.mem := rfl
@[simp] theorem State.completeError_msgLen (e : ErrKind) : (s.completeError e).msgLen = s.msgLen := rfl
@[simp] theorem State.completeError_cfg (e : ErrKind) : (s.completeError e).cfg = s.cfg := rfl
@[simp] theorem State.completeError_cmd (e : ErrKind) : (s.completeError e).cmd = s.cmd := rfl
@[simp] theorem State.completeError_busy (e : ErrKind) : (s.completeError e).busy = false := rfl
@[simp] theorem State.completeError_done (e : ErrKind) : (s.completeError e).done = true := rfl
@[simp] theorem State.completeError_err (e : ErrKind) : (s.completeError e).err = true := rfl
@[simp] theorem State.completeError_t (e : ErrKind) : (s.completeError e).t = s.t := rfl
@[simp] theorem State.completeError_errcode (e : ErrKind) : (s.completeError e).errcode = e.code := rfl
@[simp] theorem State.completeError_ie (e : ErrKind) : (s.completeError e).ie = s.ie := rfl
@[simp] theorem State.completeError_errcmd (e : ErrKind) : (s.completeError e).errcmd = s.cmd := rfl
@[simp] theorem State.completeError_nonce (e : ErrKind) : (s.completeError e).nonce = s.nonce := rfl
@[simp] theorem State.completeError_nPhase (e : ErrKind) : (s.completeError e).nPhase = .check := rfl
@[simp] theorem State.completeError_events (e : ErrKind) : (s.completeError e).events = s.events := rfl
@[simp] theorem State.completeError_response (e : ErrKind) : (s.completeError e).response = s.response := rfl

/-! ## `State.demote` -/

@[simp] theorem State.demote_regs : (s.demote).regs = s.regs.map (fun r => { r with tag := .int }) := rfl
@[simp] theorem State.demote_pts : (s.demote).pts = Vector.replicate 4 .inf := rfl
@[simp] theorem State.demote_key : (s.demote).key = KeySlot.empty := rfl
@[simp] theorem State.demote_mem : (s.demote).mem = s.mem := rfl
@[simp] theorem State.demote_msgLen : (s.demote).msgLen = s.msgLen := rfl
@[simp] theorem State.demote_cfg : (s.demote).cfg = s.cfg := rfl
@[simp] theorem State.demote_cmd : (s.demote).cmd = s.cmd := rfl
@[simp] theorem State.demote_busy : (s.demote).busy = s.busy := rfl
@[simp] theorem State.demote_done : (s.demote).done = s.done := rfl
@[simp] theorem State.demote_err : (s.demote).err = s.err := rfl
@[simp] theorem State.demote_t : (s.demote).t = s.t := rfl
@[simp] theorem State.demote_errcode : (s.demote).errcode = s.errcode := rfl
@[simp] theorem State.demote_ie : (s.demote).ie = s.ie := rfl
@[simp] theorem State.demote_errcmd : (s.demote).errcmd = s.errcmd := rfl
@[simp] theorem State.demote_nonce : (s.demote).nonce = s.nonce := rfl
@[simp] theorem State.demote_nPhase : (s.demote).nPhase = s.nPhase := rfl
@[simp] theorem State.demote_events : (s.demote).events = s.events := rfl
@[simp] theorem State.demote_response : (s.demote).response = s.response := rfl

/-! ## `State.setMsgByte` -/

@[simp] theorem State.setMsgByte_regs (i : Nat) (b : Byte) : (s.setMsgByte i b).regs = s.regs := rfl
@[simp] theorem State.setMsgByte_pts (i : Nat) (b : Byte) : (s.setMsgByte i b).pts = s.pts := rfl
@[simp] theorem State.setMsgByte_key (i : Nat) (b : Byte) : (s.setMsgByte i b).key = s.key := rfl
@[simp] theorem State.setMsgByte_mem (i : Nat) (b : Byte) : (s.setMsgByte i b).mem = s.mem.write (msgAddr i) b := rfl
@[simp] theorem State.setMsgByte_msgLen (i : Nat) (b : Byte) : (s.setMsgByte i b).msgLen = s.msgLen := rfl
@[simp] theorem State.setMsgByte_cfg (i : Nat) (b : Byte) : (s.setMsgByte i b).cfg = s.cfg := rfl
@[simp] theorem State.setMsgByte_cmd (i : Nat) (b : Byte) : (s.setMsgByte i b).cmd = s.cmd := rfl
@[simp] theorem State.setMsgByte_busy (i : Nat) (b : Byte) : (s.setMsgByte i b).busy = s.busy := rfl
@[simp] theorem State.setMsgByte_done (i : Nat) (b : Byte) : (s.setMsgByte i b).done = s.done := rfl
@[simp] theorem State.setMsgByte_err (i : Nat) (b : Byte) : (s.setMsgByte i b).err = s.err := rfl
@[simp] theorem State.setMsgByte_t (i : Nat) (b : Byte) : (s.setMsgByte i b).t = s.t := rfl
@[simp] theorem State.setMsgByte_errcode (i : Nat) (b : Byte) : (s.setMsgByte i b).errcode = s.errcode := rfl
@[simp] theorem State.setMsgByte_ie (i : Nat) (b : Byte) : (s.setMsgByte i b).ie = s.ie := rfl
@[simp] theorem State.setMsgByte_errcmd (i : Nat) (b : Byte) : (s.setMsgByte i b).errcmd = s.errcmd := rfl
@[simp] theorem State.setMsgByte_nonce (i : Nat) (b : Byte) : (s.setMsgByte i b).nonce = s.nonce := rfl
@[simp] theorem State.setMsgByte_nPhase (i : Nat) (b : Byte) : (s.setMsgByte i b).nPhase = s.nPhase := rfl
@[simp] theorem State.setMsgByte_events (i : Nat) (b : Byte) : (s.setMsgByte i b).events = s.events := rfl
@[simp] theorem State.setMsgByte_response (i : Nat) (b : Byte) : (s.setMsgByte i b).response = s.response := rfl

/-! ## `State.respond` -/

@[simp] theorem State.respond_regs (r : Response) : (s.respond r).regs = s.regs := rfl
@[simp] theorem State.respond_pts (r : Response) : (s.respond r).pts = s.pts := rfl
@[simp] theorem State.respond_key (r : Response) : (s.respond r).key = s.key := rfl
@[simp] theorem State.respond_mem (r : Response) : (s.respond r).mem = s.mem := rfl
@[simp] theorem State.respond_msgLen (r : Response) : (s.respond r).msgLen = s.msgLen := rfl
@[simp] theorem State.respond_cfg (r : Response) : (s.respond r).cfg = s.cfg := rfl
@[simp] theorem State.respond_cmd (r : Response) : (s.respond r).cmd = s.cmd := rfl
@[simp] theorem State.respond_busy (r : Response) : (s.respond r).busy = s.busy := rfl
@[simp] theorem State.respond_done (r : Response) : (s.respond r).done = s.done := rfl
@[simp] theorem State.respond_err (r : Response) : (s.respond r).err = s.err := rfl
@[simp] theorem State.respond_t (r : Response) : (s.respond r).t = s.t := rfl
@[simp] theorem State.respond_errcode (r : Response) : (s.respond r).errcode = s.errcode := rfl
@[simp] theorem State.respond_ie (r : Response) : (s.respond r).ie = s.ie := rfl
@[simp] theorem State.respond_errcmd (r : Response) : (s.respond r).errcmd = s.errcmd := rfl
@[simp] theorem State.respond_nonce (r : Response) : (s.respond r).nonce = s.nonce := rfl
@[simp] theorem State.respond_nPhase (r : Response) : (s.respond r).nPhase = s.nPhase := rfl
@[simp] theorem State.respond_events (r : Response) : (s.respond r).events = s.events := rfl
@[simp] theorem State.respond_response (r : Response) : (s.respond r).response = some r := rfl

/-! ## `State.resetBlock`: the reset state, the pending events kept -/

@[simp] theorem State.resetBlock_events : s.resetBlock.events = s.events := rfl
theorem State.resetBlock_eq : s.resetBlock = { State.reset with events := s.events } := rfl

end Sys2Proof.Machine
end

