-- ==== Sys2Proof/Laws/Ops.lean ====
section
/-! SUPPORT. Laws of the register operations, of command completion, and of the operand forms: what each
shared operation can do, said once. -/

namespace Sys2Proof.Machine

/-! ## Registers: read after write -/

section Registers
variable (s : State) (i j : RIdx) (k l : PIdx) (r : Reg) (q : Point) (key : KeySlot) (b : Bool)

theorem State.reg_setReg : (s.setReg i r).reg j = if j = i then r else s.reg j := by
  simp only [State.reg, State.setReg, Vector.getElem_set, Fin.ext_iff]
  by_cases h : i.val = j.val
  · simp [h]
  · simp [h, Ne.symm h]

@[simp] theorem State.reg_setReg_self : (s.setReg i r).reg i = r := by simp [State.reg_setReg]

theorem State.reg_setReg_of_ne (h : j ≠ i) : (s.setReg i r).reg j = s.reg j := by simp [State.reg_setReg, h]

theorem State.pt_setPt : (s.setPt k q).pt l = if l = k then q else s.pt l := by
  simp only [State.pt, State.setPt, Vector.getElem_set, Fin.ext_iff]
  by_cases h : k.val = l.val
  · simp [h]
  · simp [h, Ne.symm h]

@[simp] theorem State.pt_setPt_self : (s.setPt k q).pt k = q := by simp [State.pt_setPt]

theorem State.pt_setPt_of_ne (h : l ≠ k) : (s.setPt k q).pt l = s.pt l := by simp [State.pt_setPt, h]

@[simp] theorem State.pt_setReg : (s.setReg i r).pt l = s.pt l := rfl
@[simp] theorem State.reg_setPt : (s.setPt k q).reg j = s.reg j := rfl
@[simp] theorem State.reg_setKey : (s.setKey key).reg j = s.reg j := rfl
@[simp] theorem State.pt_setKey : (s.setKey key).pt l = s.pt l := rfl
@[simp] theorem State.reg_setT : (s.setT b).reg j = s.reg j := rfl
@[simp] theorem State.pt_setT : (s.setT b).pt l = s.pt l := rfl
@[simp] theorem State.reg_complete : s.complete.reg j = s.reg j := rfl
@[simp] theorem State.pt_complete : s.complete.pt l = s.pt l := rfl
@[simp] theorem State.reg_completeError (e : ErrKind) : (s.completeError e).reg j = s.reg j := rfl
@[simp] theorem State.pt_completeError (e : ErrKind) : (s.completeError e).pt l = s.pt l := rfl
@[simp] theorem State.reg_accept (w : HWord) : (s.accept w).reg j = s.reg j := rfl
@[simp] theorem State.pt_accept (w : HWord) : (s.accept w).pt l = s.pt l := rfl

@[simp] theorem State.reg_demote : s.demote.reg j = ⟨(s.reg j).val, .int⟩ := by
  simp [State.reg, State.demote]

@[simp] theorem State.pt_demote : s.demote.pt l = .inf := by
  simp [State.pt, State.demote]

@[simp] theorem State.reg_reset : State.reset.reg j = ⟨0, .int⟩ := by simp [State.reg, State.reset]
@[simp] theorem State.pt_reset : State.reset.pt l = .inf := by simp [State.pt, State.reset]

/-- An element of fewer than `2^256` reads back as it was written. -/
theorem State.val_setElem_self (f : FieldSel) {v : Nat} (h : v < 2 ^ 256) : (s.setElem i f v).val i = v := by
  simpa [State.val, State.setElem] using h

@[simp] theorem State.tag_setElem_self (f : FieldSel) (v : Nat) : (s.setElem i f v).tag i = f.tag := by
  simp [State.tag, State.setElem]

theorem State.val_setInt_self {v : Nat} (h : v < 2 ^ 256) : (s.setInt i v).val i = v := by
  simpa [State.val, State.setInt] using h

@[simp] theorem State.tag_setInt_self (v : Nat) : (s.setInt i v).tag i = .int := by
  simp [State.tag, State.setInt]

theorem State.val_lt : s.val i < 2 ^ 256 := (s.reg i).val.isLt

/-- A modulus is a 256-bit value, so every residue fits in a register (41_field.md R150 (2)). -/
theorem State.modOf_lt (f : FieldSel) : s.modOf f < 2 ^ 256 := by
  cases f
  · exact s.cfg.modP.isLt
  · exact s.cfg.modN.isLt

end Registers

/-! ## How a command ends -/

@[simp] theorem finish_ok (s t : State) : finish s (.ok t) = .next t.complete := rfl
@[simp] theorem finish_error (s : State) (e : ErrKind) : finish s (.error e) = .next (s.completeError e) := rfl

/-- Everything a command's end can be: all its writes and normal completion, or an error completion. -/
theorem finish_cases {s t : State} {r : Except ErrKind State} (h : finish s r = .next t) :
    (∃ w, r = .ok w ∧ t = w.complete) ∨ (∃ e, r = .error e ∧ t = s.completeError e) := by
  cases r with
  | ok w => exact .inl ⟨w, rfl, by simpa using h.symm⟩
  | error e => exact .inr ⟨e, rfl, by simpa using h.symm⟩

/-- A command's end is always a next state. -/
theorem finish_next (s : State) (r : Except ErrKind State) : ∃ t, finish s r = .next t := by
  cases r <;> exact ⟨_, rfl⟩

/-- An error completion changes what R280 says and nothing else. -/
theorem completeError_failed (s : State) (e : ErrKind) : Failed s (s.completeError e) e where
  mem := rfl
  bytes _ := rfl
  msgLen := rfl
  cfg := rfl
  ie := rfl
  cmd := rfl
  events := rfl
  response := rfl
  regs _ := rfl
  pts _ := rfl
  key := rfl
  flag := rfl
  hidden := rfl
  busy := rfl
  done := rfl
  err := rfl
  errcode := rfl
  errcmd := rfl
  phase := rfl

/-! ## Tags and operand forms -/

@[simp] theorem Tag.field_int : Tag.int.field = none := rfl
@[simp] theorem FieldSel.field_tag (f : FieldSel) : f.tag.field = some f := by cases f <;> rfl
@[simp] theorem FieldSel.tag_ne_int (f : FieldSel) : f.tag ≠ .int := by cases f <;> simp [FieldSel.tag]
theorem FieldSel.tag_inj {f g : FieldSel} (h : f.tag = g.tag) : f = g := by
  cases f <;> cases g <;> simp_all [FieldSel.tag]

/-- A tag is `INT` or the tag of a field. -/
theorem Tag.cases_field (t : Tag) : t = .int ∨ ∃ f : FieldSel, t = f.tag := by
  cases t
  · exact .inl rfl
  · exact .inr ⟨.p, rfl⟩
  · exact .inr ⟨.n, rfl⟩

theorem elem_of_tag {s : State} {i : RIdx} {f : FieldSel} (h : s.tag i = f.tag) : elem s i = .ok f := by
  simp [elem, h]

theorem elem_of_int {s : State} {i : RIdx} (h : s.tag i = .int) : elem s i = .error .mismatchedField := by
  simp [elem, h]

/-- Everything `elem` can answer (41_field.md R130). -/
theorem elem_cases (s : State) (i : RIdx) :
    (s.tag i = .int ∧ elem s i = .error .mismatchedField) ∨ (∃ f : FieldSel, s.tag i = f.tag ∧ elem s i = .ok f) := by
  rcases Tag.cases_field (s.tag i) with h | ⟨f, h⟩
  · exact .inl ⟨h, elem_of_int h⟩
  · exact .inr ⟨f, h, elem_of_tag h⟩

/-- Everything `sameField` can answer (R130). -/
theorem sameField_cases (s : State) (i j : RIdx) :
    ((s.tag i = .int ∨ s.tag i ≠ s.tag j) ∧ sameField s i j = .error .mismatchedField) ∨
    (∃ f : FieldSel, s.tag i = f.tag ∧ s.tag j = f.tag ∧ sameField s i j = .ok f) := by
  by_cases h : s.tag i = s.tag j
  · rcases elem_cases s i with ⟨ht, he⟩ | ⟨f, ht, he⟩
    · exact .inl ⟨.inl ht, by simp [sameField, h, he]⟩
    · exact .inr ⟨f, ht, h ▸ ht, by simp [sameField, h, he]⟩
  · exact .inl ⟨.inr h, by simp [sameField, h]⟩

theorem elemOf_of_tag {s : State} {f : FieldSel} {i : RIdx} (h : s.tag i = f.tag) : elemOf s f i = .ok () := by
  simp [elemOf, h]

theorem elemOf_of_ne {s : State} {f : FieldSel} {i : RIdx} (h : s.tag i ≠ f.tag) :
    elemOf s f i = .error .mismatchedField := by
  simp [elemOf, h]

end Sys2Proof.Machine
end

