-- ==== Sys2Proof/Laws/Arith.lean ====
section
/-! SUPPORT. Laws of the datapath's arithmetic (00_scope.md R8): the fast functions compute what the rules
say. -/

namespace Sys2Proof.Machine

theorem addMod_lt {m : Nat} (hm : 0 < m) (x y : Nat) : addMod m x y < m := Nat.mod_lt _ hm
theorem subMod_lt {m : Nat} (hm : 0 < m) (x y : Nat) : subMod m x y < m := Nat.mod_lt _ hm
theorem mulMod_lt {m : Nat} (hm : 0 < m) (x y : Nat) : mulMod m x y < m := Nat.mod_lt _ hm

/-- `subMod` is the Euclidean residue of the integer difference (R8). -/
theorem subMod_int {m : Nat} (hm : 0 < m) (x y : Nat) : (subMod m x y : ℤ) = ((x : ℤ) - y) % m := by
  have hy : y % m < m := Nat.mod_lt _ hm
  have h : (((x + m - y % m : Nat) : ℤ)) = (x : ℤ) + m - (y : ℤ) % m := by
    rw [Nat.cast_sub (by omega)]
    push_cast
    ring
  rw [subMod, Int.natCast_mod, h, show (x : ℤ) + m - (y : ℤ) % m = (x - (y : ℤ) % m) + m by ring,
    Int.add_emod_right, Int.sub_emod, Int.emod_emod_of_dvd _ (dvd_refl _), ← Int.sub_emod]

/-- In the integers modulo `m`, `subMod` is subtraction. -/
theorem subMod_cast {m : Nat} (hm : 0 < m) (x y : Nat) : (subMod m x y : ZMod m) = x - y := by
  have h := congrArg (Int.cast : ℤ → ZMod m) (subMod_int hm x y)
  simpa using h

/-- What the rounds of extended Euclid keep: `r0 ≡ t0·x` and `r1 ≡ t1·x`, and the gcd. The loop ends on the
cofactor of the gcd. -/
theorem invLoop_spec {m x : Nat} (hm : 0 < m) :
    ∀ (fuel r0 r1 t0 t1 : Nat), r1 < fuel → t0 < m → t1 < m →
      (t0 * x : ZMod m) = r0 → (t1 * x : ZMod m) = r1 →
      invLoop m fuel r0 r1 t0 t1 < m ∧
        ((invLoop m fuel r0 r1 t0 t1 : ZMod m) * x = (Nat.gcd r0 r1 : ZMod m)) := by
  intro fuel
  induction fuel with
  | zero => intro r0 r1 t0 t1 h; omega
  | succ fuel ih =>
    intro r0 r1 t0 t1 hf h0 h1 e0 e1
    rw [invLoop]
    by_cases hr : r1 = 0
    · simp [hr, h0, e0]
    · rw [if_neg hr]
      have hlt : r0 % r1 < r1 := Nat.mod_lt _ (Nat.pos_of_ne_zero hr)
      have key : ((subMod m t0 (r0 / r1 * t1) : Nat) * x : ZMod m) = (r0 % r1 : Nat) := by
        rw [subMod_cast hm]
        have hd : (r0 : ZMod m) = (r1 * (r0 / r1) + r0 % r1 : Nat) := by rw [Nat.div_add_mod]
        push_cast at hd ⊢
        rw [sub_mul, e0, mul_assoc, e1, hd]
        ring
      have := ih r1 (r0 % r1) t1 _ (by omega) h1 (subMod_lt hm _ _) e1 key
      rwa [Nat.gcd_comm r1, ← Nat.gcd_rec, Nat.gcd_comm] at this

/-- `inv(x, m)` (00_scope.md R8): below `m`, and the inverse when there is one. -/
theorem invMod_spec {x m : Nat} (hm : 0 < m) (h : Nat.gcd x m = 1) :
    invMod x m < m ∧ x * invMod x m % m = 1 % m := by
  have hl := invLoop_spec (x := x) hm (x % m + 1) m (x % m) 0 (1 % m) (by omega) hm (Nat.mod_lt _ hm)
    (by simp) (by simp)
  refine ⟨hl.1, ?_⟩
  have hg : Nat.gcd m (x % m) = 1 := by rw [Nat.gcd_comm, ← Nat.gcd_rec, Nat.gcd_comm]; exact h
  have h2 := hl.2
  rw [hg] at h2
  have : ((x * invMod x m : Nat) : ZMod m) = (1 : Nat) := by
    push_cast at h2 ⊢
    rw [mul_comm]
    exact h2
  exact (ZMod.natCast_eq_natCast_iff' _ _ _).1 this

theorem invMod_lt {x m : Nat} (hm : 0 < m) : invMod x m < m :=
  (invLoop_spec (x := x) hm (x % m + 1) m (x % m) 0 (1 % m) (by omega) hm (Nat.mod_lt _ hm)
    (by simp) (by simp)).1

/-- Everything the inverter can answer (41_field.md R142). -/
theorem inverter_cases {x m : Nat} (hm : 0 < m) :
    (Nat.gcd x m = 1 ∧ ∃ i, inverter x m = .ok i ∧ i < m ∧ x * i % m = 1 % m) ∨
    (Nat.gcd x m ≠ 1 ∧ inverter x m = .error .divisionByZero) := by
  by_cases h : Nat.gcd x m = 1
  · exact .inl ⟨h, invMod x m, by simp [inverter, h], invMod_spec hm h⟩
  · exact .inr ⟨h, by simp [inverter, h]⟩

/-- The square-and-multiply loop multiplies `x^e` into the accumulator. -/
theorem powLoop_spec (m : Nat) : ∀ (fuel x e acc : Nat), e < 2 ^ fuel → acc % m = acc →
    powLoop m fuel x e acc = acc * x ^ e % m := by
  intro fuel
  induction fuel with
  | zero => intro x e acc h ha; have : e = 0 := by simpa using h
            simp [powLoop, this, ha]
  | succ fuel ih =>
    intro x e acc he ha
    rw [powLoop]
    by_cases h0 : e = 0
    · simp [h0, ha]
    · rw [if_neg h0]
      have hlt : e / 2 < 2 ^ fuel := by rw [Nat.div_lt_iff_lt_mul (by decide)]; omega
      have hsq : ∀ k, (x * x % m) ^ k % m = x ^ (2 * k) % m := by
        intro k
        rw [← Nat.pow_mod, ← pow_two, ← pow_mul]
      by_cases hodd : e % 2 = 1
      · rw [if_pos hodd, ih _ _ _ hlt (Nat.mod_mod _ _), Nat.mul_mod, hsq, Nat.mod_mod, ← Nat.mul_mod]
        have : e = 2 * (e / 2) + 1 := by omega
        conv_rhs => rw [this, pow_succ]
        ring_nf
      · rw [if_neg hodd, ih _ _ _ hlt ha, Nat.mul_mod, hsq, ← Nat.mul_mod]
        have : e = 2 * (e / 2) := by omega
        conv_rhs => rw [this]

/-- `x^e mod m` (00_scope.md R8), for every exponent of at most 256 bits. -/
theorem powMod_eq {m x e : Nat} (he : e < 2 ^ 256) : powMod m x e = x ^ e % m := by
  rw [powMod, powLoop_spec m 256 _ _ _ he (Nat.mod_mod _ _), Nat.mul_mod, Nat.mod_mod, ← Nat.mul_mod, one_mul,
    ← Nat.pow_mod]

end Sys2Proof.Machine
end

