-- ==== Sys2Proof/Laws/Memory.lean ====
section
/-! SUPPORT. Laws of the message buffer's storage: read after write, and that a write keeps the canonical
form and the window. -/

namespace Sys2Proof.Machine

@[simp] theorem Memory.read_nil (a : Nat) : Memory.read [] a = Memory.unlisted := rfl

theorem Memory.read_cons (k : Nat) (v : Byte) (m : Memory) (a : Nat) :
    Memory.read ((k, v) :: m) a = if k = a then v else Memory.read m a := rfl

theorem Memory.wf_cons (k : Nat) (v : Byte) (m : Memory) :
    Memory.wf ((k, v) :: m) = true ↔ v ≠ Memory.unlisted ∧ (∀ c ∈ m, k < c.1) ∧ Memory.wf m = true := by
  simp [Memory.wf, and_assoc]

/-- Below every listed address, a byte reads as unlisted. -/
theorem Memory.read_of_lt {m : Memory} {a : Nat} (h : ∀ c ∈ m, a < c.1) : Memory.read m a = Memory.unlisted := by
  induction m with
  | nil => rfl
  | cons c m ih =>
    obtain ⟨k, v⟩ := c
    have hk : a < k := h (k, v) (by simp)
    rw [Memory.read_cons, if_neg (by omega)]
    exact ih fun c hc => h c (by simp [hc])

/-- Read after write, in a memory of canonical form. -/
theorem Memory.read_write {m : Memory} (hw : Memory.wf m = true) (a : Nat) (b : Byte) (a' : Nat) :
    Memory.read (Memory.write m a b) a' = if a' = a then b else Memory.read m a' := by
  induction m with
  | nil =>
    by_cases hb : b = Memory.unlisted
    · simp [Memory.write, hb]
    · by_cases ha : a' = a
      · simp [Memory.write, hb, Memory.read_cons, ha]
      · simp [Memory.write, hb, Memory.read_cons, ha, Ne.symm ha]
  | cons c m ih =>
    obtain ⟨k, v⟩ := c
    obtain ⟨hv, hlt, hm⟩ := (Memory.wf_cons k v m).1 hw
    have hbelow : ∀ x, x ≤ k → Memory.read m x = Memory.unlisted := fun x hx =>
      Memory.read_of_lt fun c hc => lt_of_le_of_lt hx (hlt c hc)
    by_cases h1 : a < k
    · by_cases hb : b = Memory.unlisted
      · simp only [Memory.write, h1, if_true, hb, Memory.read_cons]
        by_cases ha : a' = a
        · simp [ha, hbelow a (by omega), show k ≠ a by omega]
        · simp [ha]
      · simp only [Memory.write, h1, if_true, hb, if_false, Memory.read_cons]
        by_cases ha : a' = a
        · simp [ha]
        · simp [ha, Ne.symm ha]
    · by_cases h2 : a = k
      · subst h2
        by_cases hb : b = Memory.unlisted
        · simp only [Memory.write, lt_irrefl, if_false, if_true, hb, Memory.read_cons]
          by_cases ha : a' = a
          · simp [ha, hbelow a le_rfl]
          · simp [ha, Ne.symm ha]
        · simp only [Memory.write, lt_irrefl, if_false, if_true, hb, Memory.read_cons]
          by_cases ha : a' = a
          · simp [ha]
          · simp [ha, Ne.symm ha]
      · simp only [Memory.write, h1, h2, if_false, Memory.read_cons, ih hm]
        by_cases hk : k = a'
        · subst hk
          simp [Ne.symm h2]
        · simp [hk]

/-- A property of addresses that the old entries and the written address have, the new entries have. -/
theorem Memory.write_forall {P : Nat → Prop} {m : Memory} (hm : ∀ c ∈ m, P c.1) {a : Nat} (ha : P a) (b : Byte) :
    ∀ c ∈ Memory.write m a b, P c.1 := by
  induction m with
  | nil =>
    by_cases hb : b = Memory.unlisted <;> simp [Memory.write, hb, ha]
  | cons c m ih =>
    obtain ⟨k, v⟩ := c
    have hk : P k := hm (k, v) (by simp)
    have hm' : ∀ c ∈ m, P c.1 := fun c hc => hm c (by simp [hc])
    intro c hc
    simp only [Memory.write] at hc
    split_ifs at hc
    · exact hm c hc
    · rcases List.mem_cons.1 hc with rfl | hc
      · exact ha
      · exact hm c hc
    · exact hm' c hc
    · rcases List.mem_cons.1 hc with rfl | hc
      · exact ha
      · exact hm' c hc
    · rcases List.mem_cons.1 hc with rfl | hc
      · exact hk
      · exact ih hm' c hc

/-- A write keeps the canonical form. -/
theorem Memory.write_wf {m : Memory} (hw : Memory.wf m = true) (a : Nat) (b : Byte) : Memory.wf (Memory.write m a b) = true := by
  induction m with
  | nil =>
    by_cases hb : b = Memory.unlisted
    · simp [Memory.write, hb, Memory.wf]
    · simp [Memory.write, hb, Memory.wf]
  | cons c m ih =>
    obtain ⟨k, v⟩ := c
    obtain ⟨hv, hlt, hm⟩ := (Memory.wf_cons k v m).1 hw
    simp only [Memory.write]
    split_ifs with h1 hb h2 hb
    · exact hw
    · refine (Memory.wf_cons a b _).2 ⟨hb, ?_, hw⟩
      intro c hc
      rcases List.mem_cons.1 hc with rfl | hc
      · exact h1
      · exact lt_trans h1 (hlt c hc)
    · exact hm
    · subst h2
      exact (Memory.wf_cons a b _).2 ⟨hb, hlt, hm⟩
    · refine (Memory.wf_cons k v _).2 ⟨hv, ?_, ih hm⟩
      exact Memory.write_forall (P := fun x => k < x) hlt (by omega) b

/-- A write inside the message buffer keeps every entry inside it. -/
theorem Memory.write_inWindow {m : Memory} (hm : m.inWindow = true) {a : Nat} (ha : 0xC00 ≤ a ∧ a < 0xD00)
    (b : Byte) : (Memory.write m a b).inWindow = true := by
  have h : ∀ c ∈ m, 0xC00 ≤ c.1 ∧ c.1 < 0xD00 := by simpa [Memory.inWindow] using hm
  simpa [Memory.inWindow] using Memory.write_forall (P := fun x => 0xC00 ≤ x ∧ x < 0xD00) h ha b

/-- A write of a message byte keeps the canonical form and the window. -/
theorem MemOk.setMsgByte {s : State} (h : MemOk s) {i : Nat} (hi : i < 256) (b : Byte) :
    MemOk (s.setMsgByte i b) :=
  ⟨Memory.write_wf h.1 _ b, Memory.write_inWindow h.2 (by simp [msgAddr]; omega) b⟩

theorem State.msgByte_setMsgByte {s : State} (h : MemOk s) (i : Nat) (b : Byte) (j : Nat) :
    (s.setMsgByte i b).msgByte j = if j = i then b else s.msgByte j := by
  simp [State.msgByte, Memory.read_write h.1, msgAddr]

end Sys2Proof.Machine
end

