-- ==== Sys2Proof/Laws/Bus.lean ====
section
/-! SUPPORT. Laws of the register window: where each offset leads, what an access can do, and the 32-bit
slices of a wide register. -/

namespace Sys2Proof.Machine

/-! ## The map (20_memory.md R61) -/

/-- A row of the map against R61, R63 and R70, checked offset by offset. -/
theorem locAt_table : ∀ k j : Fin 64,
    ((locAt (BitVec.ofNat 12 (64 * k.val + j.val))).isSome = decide (Mapped (64 * k.val + j.val))) ∧
    ((locAt (BitVec.ofNat 12 (64 * k.val + j.val))).all fun l =>
      l.writable == !(decide (ReadOnly (64 * k.val + j.val))) &&
      l.readableBusy == decide ((64 * k.val + j.val) % 4 = 0 ∧ 64 * k.val + j.val ≤ 0x014) &&
      (l.writableBusy == decide (64 * k.val + j.val = 0x00C))) = true := by
  decide +kernel

theorem locAt_row (off : Offset) :
    ((locAt off).isSome = decide (Mapped off.toNat)) ∧
    ((locAt off).all fun l => l.writable == !(decide (ReadOnly off.toNat)) &&
      l.readableBusy == decide (off.toNat % 4 = 0 ∧ off.toNat ≤ 0x014) &&
      (l.writableBusy == decide (off.toNat = 0x00C))) = true := by
  have hlt : off.toNat < 4096 := off.isLt
  have := locAt_table ⟨off.toNat / 64, by omega⟩ ⟨off.toNat % 64, by omega⟩
  have e : 64 * (off.toNat / 64) + off.toNat % 64 = off.toNat := Nat.div_add_mod _ _
  simp only [e, BitVec.ofNat_toNat, BitVec.setWidth_eq] at this
  exact this

/-- The mapped offsets are the words of the map. -/
theorem locAt_isSome (off : Offset) : (locAt off).isSome = true ↔ Mapped off.toNat := by
  rw [(locAt_row off).1, decide_eq_true_iff]

section Rows
variable {off : Offset} {l : Loc} (hl : locAt off = some l)
include hl

theorem mapped_of_locAt : Mapped off.toNat := (locAt_isSome off).1 (by simp [hl])

theorem locAt_bits : (l.writable = true ↔ ¬ ReadOnly off.toNat) ∧
    (l.readableBusy = true ↔ off.toNat % 4 = 0 ∧ off.toNat ≤ 0x014) ∧ (l.writableBusy = true ↔ off = 0x00C) := by
  have := (locAt_row off).2
  rw [hl] at this
  simp only [Option.all_some, Bool.and_eq_true, beq_iff_eq] at this
  obtain ⟨⟨h1, h2⟩, h3⟩ := this
  refine ⟨by rw [h1, Bool.not_eq_true', decide_eq_false_iff_not], by rw [h2, decide_eq_true_iff], ?_⟩
  rw [h3, decide_eq_true_iff, ← BitVec.toNat_inj]
  rfl

end Rows

theorem locAt_cfg : ∀ (c : CfgReg) (w : Fin 8), locAt (cfgOffset c w) = some (.cfg c w) := by
  intro c; cases c <;> decide +kernel

/-- Only the six registers' own offsets lead to a configuration word. -/
theorem cfgOffset_of_locAt {off : Offset} {c : CfgReg} {w : Fin 8} (h : locAt off = some (.cfg c w)) :
    off = cfgOffset c w := by
  have table : ∀ k j : Fin 64, ((locAt (BitVec.ofNat 12 (64 * k.val + j.val))).all fun l =>
      match l with
      | .cfg c w => BitVec.ofNat 12 (64 * k.val + j.val) == cfgOffset c w
      | _ => true) = true := by
    decide +kernel
  have hlt : off.toNat < 4096 := off.isLt
  have := table ⟨off.toNat / 64, by omega⟩ ⟨off.toNat % 64, by omega⟩
  have e : 64 * (off.toNat / 64) + off.toNat % 64 = off.toNat := Nat.div_add_mod _ _
  simp only [e, BitVec.ofNat_toNat, BitVec.setWidth_eq, h] at this
  simpa using this

theorem locAt_reg : ∀ (i : RIdx) (w : Fin 8), locAt (regOffset i w) = some (.reg i w) := by decide +kernel
theorem locAt_ptX : ∀ (j : PIdx) (w : Fin 8), locAt (ptOffset j (4 * w.val)) = some (.ptX j w) := by decide +kernel
theorem locAt_ptY : ∀ (j : PIdx) (w : Fin 8), locAt (ptOffset j (0x20 + 4 * w.val)) = some (.ptY j w) := by
  decide +kernel
theorem locAt_ptInf : ∀ j : PIdx, locAt (ptOffset j 0x40) = some (.ptInf j) := by decide +kernel
theorem locAt_msg : ∀ q : Fin 64, locAt (msgOffset q) = some (.msg q) := by decide +kernel

/-! ## Accesses -/

section Accesses
variable {s : State} {off : Offset} {l : Loc}

/-- A read of a mapped word. -/
theorem busStep_read (h : locAt off = some l) (hb : s.busy = false ∨ l.readableBusy = true) :
    busStep s (.read off 4) = s.respond (.data (readLoc s l)) := by
  rcases hb with hb | hb <;> simp [busStep, busRead, target, h, hb]

/-- A write of a mapped word. -/
theorem busStep_write (h : locAt off = some l) (hw : l.writable = true) (hb : s.busy = false ∨ l.writableBusy = true)
    (v : HWord) : busStep s (.write off 4 v) = (writeLoc s l v).respond .okay := by
  rcases hb with hb | hb <;> simp [busStep, busWrite, target, h, hb, hw]

/-- Everything an access can do. -/
theorem busStep_cases (s : State) (a : Access) :
    busStep s a = s.respond .error ∨
    (∃ off l, a = .read off 4 ∧ locAt off = some l ∧ (s.busy = false ∨ l.readableBusy = true) ∧
      busStep s a = s.respond (.data (readLoc s l))) ∨
    (∃ off l v, a = .write off 4 v ∧ locAt off = some l ∧ l.writable = true ∧
      (s.busy = false ∨ l.writableBusy = true) ∧ busStep s a = (writeLoc s l v).respond .okay) := by
  cases a with
  | read off width =>
    by_cases hw : width = 4
    · subst hw
      cases hl : locAt off with
      | none => exact .inl (by simp [busStep, busRead, target, hl])
      | some l =>
        by_cases hb : s.busy = false ∨ l.readableBusy = true
        · exact .inr (.inl ⟨off, l, rfl, hl, hb, busStep_read hl hb⟩)
        · rw [not_or] at hb
          exact .inl (by simp [busStep, busRead, target, hl, hb])
    · exact .inl (by simp [busStep, busRead, target, hw])
  | write off width v =>
    by_cases hw : width = 4
    · subst hw
      cases hl : locAt off with
      | none => exact .inl (by simp [busStep, busWrite, target, hl])
      | some l =>
        by_cases hb : l.writable = true ∧ (s.busy = false ∨ l.writableBusy = true)
        · exact .inr (.inr ⟨off, l, v, rfl, hl, hb.1, hb.2, busStep_write hl hb.1 hb.2 v⟩)
        · refine .inl ?_
          have : (l.writable && (!s.busy || l.writableBusy)) = false := by
            by_contra h
            exact hb (by cases hs : s.busy <;> simp_all)
          simp [busStep, busWrite, target, hl, this]
    · exact .inl (by simp [busStep, busWrite, target, hw])

end Accesses

/-! ## Slices of a wide register (20_memory.md R66, R67) -/

theorem getLsbD_mask32 (i : Nat) : (0xFFFFFFFF#256).getLsbD i = decide (i < 32) := by
  have h : (0xFFFFFFFF#256) = BitVec.ofNat 256 (2 ^ 32 - 1) := rfl
  rw [h, BitVec.getLsbD_ofNat, Nat.testBit_two_pow_sub_one]
  by_cases hi : i < 32
  · simp [hi, show i < 256 by omega]
  · simp [hi]

theorem wordOf_setWordOf_self (v : Word) (w : Fin 8) (x : HWord) : wordOf (setWordOf v w x) w = x := by
  unfold wordOf setWordOf
  ext i hi
  have hw := w.isLt
  simp only [BitVec.getElem_extractLsb', BitVec.getLsbD_or, BitVec.getLsbD_and, BitVec.getLsbD_not,
    BitVec.getLsbD_shiftLeft, BitVec.getLsbD_setWidth]
  have h0 : (0xFFFFFFFF#256).getLsbD i = true := by simpa [getLsbD_mask32] using hi
  simp [h0, show 32 * w.val + i < 256 by omega, show i < 256 by omega, BitVec.getLsbD_eq_getElem hi]

theorem wordOf_setWordOf_of_ne (v : Word) (w : Fin 8) (x : HWord) {w' : Fin 8} (h : w' ≠ w) :
    wordOf (setWordOf v w x) w' = wordOf v w' := by
  unfold wordOf setWordOf
  ext i hi
  have hw := w.isLt
  have hw' := w'.isLt
  have hne : w'.val ≠ w.val := fun e => h (Fin.ext e)
  simp only [BitVec.getElem_extractLsb', BitVec.getLsbD_or, BitVec.getLsbD_and, BitVec.getLsbD_not,
    BitVec.getLsbD_shiftLeft, BitVec.getLsbD_setWidth]
  by_cases hlt : 32 * w'.val + i < 32 * w.val
  · simp [hlt, show 32 * w'.val + i < 256 by omega]
  · have hge : 32 ≤ 32 * w'.val + i - 32 * w.val := by omega
    have h0 : (0xFFFFFFFF#256).getLsbD (32 * w'.val + i - 32 * w.val) = false := by
      rw [getLsbD_mask32, decide_eq_false (by omega)]
    simp [h0, hlt, show 32 * w'.val + i < 256 by omega, BitVec.getLsbD_of_ge x _ hge]

/-! ## Bytes of a word -/

theorem getLsbD_wordOfBytes (b0 b1 b2 b3 : Byte) (i : Nat) : (wordOfBytes b0 b1 b2 b3).getLsbD i =
    if i < 8 then b0.getLsbD i else if i - 8 < 8 then b1.getLsbD (i - 8) else
    if i - 16 < 8 then b2.getLsbD (i - 16) else b3.getLsbD (i - 24) := by
  unfold wordOfBytes
  rw [BitVec.getLsbD_append, BitVec.getLsbD_append, BitVec.getLsbD_append]
  simp only [Nat.sub_sub, Nat.reduceAdd]

/-- The byte at the lower offset is the less significant one (20_memory.md R68, R71 (b)). -/
theorem byteOfWord_wordOfBytes (b0 b1 b2 b3 : Byte) (k : Fin 4) :
    byteOfWord (wordOfBytes b0 b1 b2 b3) k = [b0, b1, b2, b3][k] := by
  ext i hi
  unfold byteOfWord
  rw [BitVec.getElem_extractLsb', getLsbD_wordOfBytes]
  match k with
  | 0 => simp [hi]
  | 1 => simp [hi]
  | 2 => simp [show ¬ (16 + i < 8) by omega, show ¬ (16 + i - 8 < 8) by omega, hi]
  | 3 => simp [show ¬ (24 + i < 8) by omega, show ¬ (24 + i - 8 < 8) by omega,
      show ¬ (24 + i - 16 < 8) by omega, hi]

theorem wordOfBytes_byteOfWord (v : HWord) :
    wordOfBytes (byteOfWord v 0) (byteOfWord v 1) (byteOfWord v 2) (byteOfWord v 3) = v := by
  apply BitVec.eq_of_getLsbD_eq
  intro i hi
  rw [getLsbD_wordOfBytes]
  unfold byteOfWord
  simp only [BitVec.getLsbD_extractLsb']
  split_ifs with h1 h2 h3
  · simp [h1]
  · simp [h2]; congr 1; omega
  · simp [h3]; congr 1; omega
  · simp [show i - 24 < 8 by omega]; congr 1; omega

/-! ## Control writes (R65) and message writes (R68) -/

section Writes
variable {s : State} {v : HWord}

theorem writeLoc_status_done (h : v.getLsbD 1 = true) : writeLoc s .status v = { s with done := false } := by
  show s.writeStatus v = _
  unfold State.writeStatus
  rw [h]; rfl

theorem writeLoc_status_keep (h : v.getLsbD 1 = false) : writeLoc s .status v = s := by
  show s.writeStatus v = _
  unfold State.writeStatus
  rw [h]; rfl

theorem writeLoc_ctrl_ie (h : v.getLsbD 1 = false) : writeLoc s .ctrl v = { s with ie := v.getLsbD 0 } := by
  show s.writeCtrl v = _
  unfold State.writeCtrl
  rw [h]; rfl

theorem writeLoc_ctrl_srst (h : v.getLsbD 1 = true) : writeLoc s .ctrl v = s.resetBlock := by
  show s.writeCtrl v = _
  unfold State.writeCtrl
  rw [h]; rfl

/-- A message write changes the four bytes of its word and no other byte of memory, and keeps the form. -/
theorem read_writeMsg (h : MemOk s) (q : Fin 64) (a : Nat) :
    Memory.read (s.writeMsg q v).mem a =
      if a = 0xC00 + 4 * q.val + 3 then byteOfWord v 3 else if a = 0xC00 + 4 * q.val + 2 then byteOfWord v 2 else
      if a = 0xC00 + 4 * q.val + 1 then byteOfWord v 1 else if a = 0xC00 + 4 * q.val then byteOfWord v 0 else
      Memory.read s.mem a := by
  have w0 := Memory.write_wf h.1 (msgAddr (4 * q.val)) (byteOfWord v 0)
  have w1 := Memory.write_wf w0 (msgAddr (4 * q.val + 1)) (byteOfWord v 1)
  have w2 := Memory.write_wf w1 (msgAddr (4 * q.val + 2)) (byteOfWord v 2)
  show Memory.read (Memory.write (Memory.write (Memory.write (Memory.write s.mem _ _) _ _) _ _) _ _) a = _
  rw [Memory.read_write w2, Memory.read_write w1, Memory.read_write w0, Memory.read_write h.1]
  rfl

theorem MemOk.writeMsg (h : MemOk s) (q : Fin 64) (v : HWord) : MemOk (s.writeMsg q v) := by
  have := q.isLt
  exact (((h.setMsgByte (by omega) _).setMsgByte (by omega) _).setMsgByte (by omega) _).setMsgByte (by omega) _

end Writes

end Sys2Proof.Machine
end

