-- ==== Sys2Proof/Laws/Commands.lean ====
section
/-! SUPPORT. What the write of each kind of destination leaves alone, said once, for the commands' frames. -/

namespace Sys2Proof.Machine

section Frames
variable (s : State)

/-- What no command writes stays, whatever else a command wrote, if the write left it alone. -/
theorem ends_self : Ends s s.complete [] [] false false where
  mem := rfl
  bytes _ := rfl
  msgLen := rfl
  cfg := rfl
  ie := rfl
  cmd := rfl
  events := rfl
  response := rfl
  busy := rfl
  done := rfl
  err := rfl
  errcode := rfl
  errcmd := rfl
  phase := rfl
  regs _ _ := rfl
  pts _ _ := rfl
  key _ := rfl
  flag _ := rfl
  hidden := rfl

/-- A command that writes one operand register. -/
theorem ends_setReg (d : RIdx) (r : Reg) : Ends s (s.setReg d r).complete [d] [] false false where
  toCompleted := { (ends_self s).toCompleted with }
  regs i hi := State.reg_setReg_of_ne s d i r (by simpa using hi)
  pts _ _ := rfl
  key _ := rfl
  flag _ := rfl
  hidden := rfl

/-- `SIGN`'s two destinations. -/
theorem ends_setReg_setReg (d a : RIdx) (r q : Reg) :
    Ends s ((s.setReg d r).setReg a q).complete [d, a] [] false false where
  toCompleted := { (ends_self s).toCompleted with }
  regs i hi := by
    simp only [List.mem_cons, List.not_mem_nil, or_false, not_or] at hi
    rw [State.reg_complete, State.reg_setReg_of_ne _ _ _ _ hi.2, State.reg_setReg_of_ne _ _ _ _ hi.1]
  pts _ _ := rfl
  key _ := rfl
  flag _ := rfl
  hidden := rfl

/-- A command that writes one point register. -/
theorem ends_setPt (d : PIdx) (q : Point) : Ends s (s.setPt d q).complete [] [d] false false where
  toCompleted := { (ends_self s).toCompleted with }
  regs _ _ := rfl
  pts j hj := State.pt_setPt_of_ne s d j q (by simpa using hj)
  key _ := rfl
  flag _ := rfl
  hidden := rfl

/-- A command that writes the key slot. -/
theorem ends_setKey (k : KeySlot) : Ends s (s.setKey k).complete [] [] true false where
  toCompleted := { (ends_self s).toCompleted with }
  regs _ _ := rfl
  pts _ _ := rfl
  key h := by simp at h
  flag _ := rfl
  hidden := rfl

/-- A predicate command. -/
theorem ends_setT (b : Bool) : Ends s (s.setT b).complete [] [] false true where
  toCompleted := { (ends_self s).toCompleted with }
  regs _ _ := rfl
  pts _ _ := rfl
  key _ := rfl
  flag h := by simp at h
  hidden := rfl

end Frames

end Sys2Proof.Machine
end

