-- ==== Sys2Proof/Laws/Field.lean ====
section
/-! SUPPORT. What each shared form of the field unit's commands answers (41_field.md R130 to R145), said once. -/

namespace Sys2Proof.Machine

/-- A residue fits in a register (R150 (2)). -/
theorem lt_of_lt_modOf {s : State} {f : FieldSel} {x : Nat} (h : x < s.modOf f) : x < 2 ^ 256 :=
  lt_trans h (s.modOf_lt f)

/-- An error completion is what raising it asks. -/
theorem raises_of_exec {i : Instr} {s : State} {e : ErrKind} (h : exec i s = .next (s.completeError e)) :
    Raises i s e := ⟨_, h, completeError_failed s e⟩

section Constructors
variable {f : FieldSel} {d a : RIdx} {s : State}

theorem fred_badConfig (h : s.modOf f = 0) : fred f d a s = .next (s.completeError .badConfig) := by
  simp [fred, reduceBy, h, bind, Except.bind]

theorem fred_ok (h : s.modOf f ≠ 0) : fred f d a s = .next (s.setInt d (s.val a % s.modOf f)).complete := by
  simp [fred, reduceBy, h, bind, Except.bind, pure, Except.pure]

theorem fnew_badConfig (h : s.modOf f = 0) : fnew f d a s = .next (s.completeError .badConfig) := by
  simp [fnew, reduceBy, h, bind, Except.bind]

theorem fnew_ok (h : s.modOf f ≠ 0) : fnew f d a s = .next (s.setElem d f (s.val a % s.modOf f)).complete := by
  simp [fnew, reduceBy, h, bind, Except.bind, pure, Except.pure]

end Constructors

section Binary
variable {op : Nat → Nat → Nat → Except ErrKind Nat} {d a b : RIdx} {s : State} {f : FieldSel}

theorem fieldBinary_mismatch (h : s.tag a = .int ∨ s.tag a ≠ s.tag b) :
    fieldBinary op d a b s = .next (s.completeError .mismatchedField) := by
  rcases sameField_cases s a b with ⟨_, h'⟩ | ⟨f, h1, h2, _⟩
  · simp [fieldBinary, h', bind, Except.bind]
  · rcases h with h | h
    · simp [h1] at h
    · simp [h1, h2] at h

theorem fieldBinary_ok (h1 : s.tag a = f.tag) (h2 : s.tag b = f.tag) {v : Nat}
    (hv : op (s.modOf f) (s.val a) (s.val b) = .ok v) :
    fieldBinary op d a b s = .next (s.setElem d f v).complete := by
  simp [fieldBinary, sameField, h1, h2, elem_of_tag h1, hv, bind, Except.bind, pure, Except.pure]

theorem fieldBinary_error (h1 : s.tag a = f.tag) (h2 : s.tag b = f.tag) {e : ErrKind}
    (hv : op (s.modOf f) (s.val a) (s.val b) = .error e) :
    fieldBinary op d a b s = .next (s.completeError e) := by
  simp [fieldBinary, sameField, h1, h2, elem_of_tag h1, hv, bind, Except.bind]

end Binary

section Unary
variable {op : Nat → Nat → Except ErrKind Nat} {d a : RIdx} {s : State} {f : FieldSel}

theorem fieldUnary_mismatch (h : s.tag a = .int) :
    fieldUnary op d a s = .next (s.completeError .mismatchedField) := by
  simp [fieldUnary, elem_of_int h, bind, Except.bind]

theorem fieldUnary_ok (h1 : s.tag a = f.tag) {v : Nat} (hv : op (s.modOf f) (s.val a) = .ok v) :
    fieldUnary op d a s = .next (s.setElem d f v).complete := by
  simp [fieldUnary, elem_of_tag h1, hv, bind, Except.bind, pure, Except.pure]

theorem fieldUnary_error (h1 : s.tag a = f.tag) {e : ErrKind} (hv : op (s.modOf f) (s.val a) = .error e) :
    fieldUnary op d a s = .next (s.completeError e) := by
  simp [fieldUnary, elem_of_tag h1, hv, bind, Except.bind]

end Unary

end Sys2Proof.Machine
end

