-- ==== Sys2Proof/Laws/Curve.lean ====
section
/-! SUPPORT. Laws of the point unit's functions (42_point.md R171, R176, R183; 43_scalar.md R201): everything
`padd`, `gen` and `smul` can answer, said once. -/

namespace Sys2Proof.Machine

/-- `on_curve` is the curve equation modulo `p` (R171). -/
theorem State.onCurve_iff (s : State) (x y : Nat) : s.onCurve x y = true ↔ CurveEq s x y := by
  simp only [State.onCurve, Machine.onCurve, beq_iff_eq, CurveEq, Nat.ModEq, State.a, State.b]
  constructor <;> intro h <;> rw [h] <;> simp [Nat.add_mod, Nat.mul_mod]

theorem toNat_ofNat_of_lt {x : Nat} (h : x < 2 ^ 256) : (BitVec.ofNat 256 x).toNat = x := by simpa using h

theorem toNat_eq_zero_iff {x : Word} : x.toNat = 0 ↔ x = 0 := by
  constructor
  · intro h; exact BitVec.eq_of_toNat_eq (by simpa using h)
  · rintro rfl; rfl

/-! ## Division -/

theorem divMod_ok {m x y : Nat} (hm : 0 < m) (h : Nat.gcd y m = 1) :
    ∃ l, divMod m x y = .ok l ∧ y * l ≡ x [MOD m] := by
  refine ⟨x * invMod y m % m, by simp [divMod, inverter, h, bind, Except.bind, pure, Except.pure], ?_⟩
  have hi : y * invMod y m ≡ 1 [MOD m] := (invMod_spec hm h).2
  calc y * (x * invMod y m % m) ≡ y * (x * invMod y m) [MOD m] := Nat.ModEq.mul_left _ (Nat.mod_modEq _ _)
    _ = x * (y * invMod y m) := by ring
    _ ≡ x * 1 [MOD m] := Nat.ModEq.mul_left _ hi
    _ = x := by ring

theorem divMod_divisionByZero {m x y : Nat} (h : Nat.gcd y m ≠ 1) : divMod m x y = .error .divisionByZero := by
  simp [divMod, inverter, h, bind, Except.bind]

theorem divMod_error {m x y : Nat} {e : ErrKind} (h : divMod m x y = .error e) : e = .divisionByZero := by
  by_cases hg : Nat.gcd y m = 1
  · simp [divMod, inverter, hg, bind, Except.bind, pure, Except.pure] at h
  · rw [divMod_divisionByZero hg] at h
    simpa using h.symm

theorem gcd_subMod {p : Nat} (hp : 0 < p) (x y : Nat) : Nat.gcd (subMod p x y) p = Int.gcd ((x : ℤ) - y) p := by
  rw [← Int.gcd_natCast_natCast, subMod_int hp, Int.gcd_emod]

/-! ## The group law -/

/-- The third point has residues for coordinates, and they are the formulas' (R176). -/
theorem thirdPoint_spec {p : Nat} (hp : 0 < p) (hp2 : p < 2 ^ 256) (l x1 y1 x2 : Nat) :
    ∃ x3 y3 : Word, thirdPoint p l x1 y1 x2 = .aff x3 y3 ∧ x3.toNat < p ∧ y3.toNat < p ∧
      (x3.toNat : ℤ) ≡ l * l - x1 - x2 [ZMOD p] ∧ (y3.toNat : ℤ) ≡ l * (x1 - x3.toNat) - y1 [ZMOD p] := by
  have h3 : subMod p (l * l) (x1 + x2) < p := subMod_lt hp _ _
  have hy : ∀ x y, subMod p x y < 2 ^ 256 := fun x y => lt_trans (subMod_lt hp x y) hp2
  refine ⟨_, _, rfl, ?_, ?_, ?_, ?_⟩
  · rw [toNat_ofNat_of_lt (hy _ _)]; exact h3
  · rw [toNat_ofNat_of_lt (hy _ _)]; exact subMod_lt hp _ _
  · rw [toNat_ofNat_of_lt (hy _ _), subMod_int hp]
    push_cast
    rw [show (l : ℤ) * l - (x1 + x2) = l * l - x1 - x2 by ring]
    exact Int.mod_modEq _ _
  · rw [toNat_ofNat_of_lt (hy _ _), toNat_ofNat_of_lt (hy _ _), subMod_int hp]
    refine (Int.mod_modEq _ _).trans ?_
    push_cast
    refine Int.ModEq.sub_right _ (Int.ModEq.mul_left _ ?_)
    rw [subMod_int hp]
    exact Int.mod_modEq _ _

section GroupLaw
variable {s : State}

@[simp] theorem State.padd_inf_left (Q : Point) : s.padd .inf Q = .ok Q := rfl
@[simp] theorem State.padd_inf_right (P : Point) : s.padd P .inf = .ok P := by cases P <;> rfl

/-- Doubling (R176). -/
theorem State.padd_double (x y : Word) : s.padd (.aff x y) (.aff x y) =
    if y = 0 then .ok .inf
    else (tangentSlope s.p s.a x.toNat y.toNat).bind fun l => .ok (thirdPoint s.p l x.toNat y.toNat x.toNat) := by
  by_cases h : y = 0 <;> simp [State.padd, Machine.padd, h, bind, pure, Except.pure]

/-- A vertical chord (R176). -/
theorem State.padd_vertical (x : Word) {y1 y2 : Word} (h : y1 ≠ y2) :
    s.padd (.aff x y1) (.aff x y2) = .ok .inf := by
  simp [State.padd, Machine.padd, h]

/-- A chord (R176). -/
theorem State.padd_chord {x1 x2 : Word} (h : x1 ≠ x2) (y1 y2 : Word) : s.padd (.aff x1 y1) (.aff x2 y2) =
    (chordSlope s.p x1.toNat y1.toNat x2.toNat y2.toNat).bind fun l =>
      .ok (thirdPoint s.p l x1.toNat y1.toNat x2.toNat) := by
  simp [State.padd, Machine.padd, h, bind, pure, Except.pure]

/-- Everything the group law can answer: one of its operands, the identity, a third point on a slope that the
division gave, or `DivisionByZero`. -/
theorem State.padd_cases (P Q : Point) :
    (P = .inf ∧ s.padd P Q = .ok Q) ∨ (Q = .inf ∧ s.padd P Q = .ok P) ∨ s.padd P Q = .ok .inf ∨
    s.padd P Q = .error .divisionByZero ∨
    (∃ x y l, P = .aff x y ∧ Q = .aff x y ∧ y ≠ 0 ∧ tangentSlope s.p s.a x.toNat y.toNat = .ok l ∧
      s.padd P Q = .ok (thirdPoint s.p l x.toNat y.toNat x.toNat)) ∨
    (∃ x1 y1 x2 y2 l, P = .aff x1 y1 ∧ Q = .aff x2 y2 ∧ x1 ≠ x2 ∧
      chordSlope s.p x1.toNat y1.toNat x2.toNat y2.toNat = .ok l ∧
      s.padd P Q = .ok (thirdPoint s.p l x1.toNat y1.toNat x2.toNat)) := by
  cases P with
  | inf => exact .inl ⟨rfl, rfl⟩
  | aff x1 y1 =>
    cases Q with
    | inf => exact .inr (.inl ⟨rfl, rfl⟩)
    | aff x2 y2 =>
      by_cases hx : x1 = x2
      · subst hx
        by_cases hy : y1 = y2
        · subst hy
          rw [State.padd_double]
          by_cases h0 : y1 = 0
          · simp [h0]
          · cases ht : tangentSlope s.p s.a x1.toNat y1.toNat with
            | error e =>
              rw [if_neg h0, divMod_error ht]
              exact .inr (.inr (.inr (.inl rfl)))
            | ok l =>
              rw [if_neg h0]
              exact .inr (.inr (.inr (.inr (.inl ⟨x1, y1, l, rfl, rfl, h0, ht, rfl⟩))))
        · exact .inr (.inr (.inl (State.padd_vertical _ hy)))
      · rw [State.padd_chord hx]
        cases ht : chordSlope s.p x1.toNat y1.toNat x2.toNat y2.toNat with
        | error e => simp [Except.bind, divMod_error ht]
        | ok l => exact .inr (.inr (.inr (.inr (.inr ⟨x1, y1, x2, y2, l, rfl, rfl, hx, ht, by simp [Except.bind]⟩))))

/-- The one error of the group law (R176). -/
theorem State.padd_error {P Q : Point} {e : ErrKind} (h : s.padd P Q = .error e) : e = .divisionByZero := by
  rcases s.padd_cases P Q with ⟨-, h'⟩ | ⟨-, h'⟩ | h' | h' | ⟨_, _, _, -, -, -, -, h'⟩ | ⟨_, _, _, _, _, -, -, -, -, h'⟩ <;>
    rw [h'] at h <;> simp_all

/-- The group law keeps coordinates below the modulus. -/
theorem State.padd_pointOk (hp : 0 < s.p) {P Q R : Point} (h1 : PointOk s P) (h2 : PointOk s Q)
    (h : s.padd P Q = .ok R) : PointOk s R := by
  have third : ∀ l x1 y1 x2, PointOk s (thirdPoint s.p l x1 y1 x2) := by
    intro l x1 y1 x2
    obtain ⟨x3, y3, e, a1, a2, -⟩ := thirdPoint_spec hp (s.modOf_lt .p) l x1 y1 x2
    rw [e]
    exact ⟨a1, a2⟩
  rcases s.padd_cases P Q with ⟨-, h'⟩ | ⟨-, h'⟩ | h' | h' | ⟨_, _, _, -, -, -, -, h'⟩ | ⟨_, _, _, _, _, -, -, -, -, h'⟩ <;>
    rw [h'] at h <;> simp only [Except.ok.injEq, reduceCtorEq] at h <;> subst h
  · exact h2
  · exact h1
  · trivial
  · exact third _ _ _ _
  · exact third _ _ _ _

/-- For an odd prime modulus the divisor of the doubling slope is invertible (R176). -/
theorem gcd_double_of_prime {p y : Nat} (hp : p.Prime) (h2 : p ≠ 2) (hy : y ≠ 0) (hlt : y < p) :
    Nat.gcd (2 * y % p) p = 1 := by
  rw [← Nat.gcd_rec]
  refine (Nat.Prime.coprime_iff_not_dvd hp).2 fun hd => ?_
  rcases (Nat.Prime.dvd_mul hp).1 hd with h | h
  · exact h2 ((Nat.prime_dvd_prime_iff_eq hp Nat.prime_two).1 h)
  · exact absurd (Nat.le_of_dvd (Nat.pos_of_ne_zero hy) h) (by omega)

/-- For a prime modulus the divisor of the chord slope is invertible (R176). -/
theorem gcd_chord_of_prime {p x1 x2 : Nat} (hp : p.Prime) (h : x1 ≠ x2) (h1 : x1 < p) (h2 : x2 < p) :
    Nat.gcd (subMod p x2 x1) p = 1 := by
  rw [gcd_subMod hp.pos, Int.gcd_comm]
  refine Int.isCoprime_iff_gcd_eq_one.1 ((Nat.prime_iff_prime_int.1 hp).coprime_iff_not_dvd.2 fun hd => ?_)
  have := Int.eq_zero_of_abs_lt_dvd hd (by rw [abs_lt]; omega)
  omega

end GroupLaw

/-! ## The generator and scalar multiplication -/

/-- Everything `gen()` can answer (R183). -/
theorem State.gen_cases (s : State) :
    (s.p = 0 ∧ s.gen = .error .badConfig) ∨
    (s.p ≠ 0 ∧ ¬ CurveEq s (s.cfg.genX.toNat % s.p) (s.cfg.genY.toNat % s.p) ∧
      s.gen = .error .pointNotOnCurve) ∨
    (s.p ≠ 0 ∧ CurveEq s (s.cfg.genX.toNat % s.p) (s.cfg.genY.toNat % s.p) ∧
      s.gen = .ok (affine (s.cfg.genX.toNat % s.p) (s.cfg.genY.toNat % s.p))) := by
  by_cases h : s.p = 0
  · exact .inl ⟨h, by simp [State.gen, State.makePointIntegral, h]⟩
  · by_cases hc : CurveEq s (s.cfg.genX.toNat % s.p) (s.cfg.genY.toNat % s.p)
    · refine .inr (.inr ⟨h, hc, ?_⟩)
      simp [State.gen, State.makePointIntegral, State.makePoint, h, (s.onCurve_iff _ _).2 hc]
    · refine .inr (.inl ⟨h, hc, ?_⟩)
      rw [← s.onCurve_iff] at hc
      simp [State.gen, State.makePointIntegral, State.makePoint, h, hc]

theorem smulLoop_zero (p a fuel : Nat) (acc addend : Point) : smulLoop p a fuel 0 acc addend = .ok acc := by
  cases fuel <;> simp [smulLoop]

/-- One round of the loop (43_scalar.md R201). -/
theorem smulLoop_succ (p a fuel : Nat) {k : Nat} (hk : k ≠ 0) (acc addend : Point) :
    smulLoop p a (fuel + 1) k acc addend =
      (if k % 2 = 1 then padd p a acc addend else .ok acc).bind fun acc' =>
        (if k / 2 ≠ 0 then padd p a addend addend else .ok addend).bind fun addend' =>
          smulLoop p a fuel (k / 2) acc' addend' := by
  rw [smulLoop, if_neg hk]
  by_cases h1 : k % 2 = 1 <;> by_cases h2 : k / 2 = 0 <;>
    simp only [h1, h2, ne_eq, not_true_eq_false, not_false_eq_true, if_true, if_false] <;> rfl

/-- The scalar multiplier is the loop from the identity (rewrite with this, not by unfolding). -/
theorem State.smul_eq_loop (s : State) (k : Nat) (P : Point) : s.smul k P = smulLoop s.p s.a 256 k .inf P := rfl

theorem smulLoop_one (p a : Nat) {fuel : Nat} (hf : fuel ≠ 0) (acc P : Point) :
    smulLoop p a fuel 1 acc P = padd p a acc P := by
  obtain ⟨n, rfl⟩ := Nat.exists_eq_succ_of_ne_zero hf
  rw [Nat.succ_eq_add_one, smulLoop_succ _ _ _ one_ne_zero]
  simp only [Nat.one_mod, if_true, show 1 / 2 = 0 from rfl, ne_eq, not_true_eq_false, if_false]
  cases padd p a acc P with
  | error e => rfl
  | ok Q => exact smulLoop_zero _ _ _ _ _

theorem smulLoop_two (p a : Nat) {fuel : Nat} (hf : 2 ≤ fuel) (acc P : Point) :
    smulLoop p a fuel 2 acc P = (padd p a P P).bind fun Q => padd p a acc Q := by
  obtain ⟨n, rfl⟩ := Nat.exists_eq_add_of_le' (show 1 ≤ fuel by omega)
  rw [smulLoop_succ _ _ _ two_ne_zero]
  simp only [show 2 % 2 = 0 from rfl, show 2 / 2 = 1 from rfl, ne_eq, one_ne_zero, not_false_eq_true, if_true,
    zero_ne_one, if_false]
  cases padd p a P P with
  | error e => rfl
  | ok Q => exact smulLoop_one p a (by omega) acc Q

/-- What the group law keeps of both running points, the loop keeps of its result. -/
theorem smulLoop_ok {p a : Nat} {Good : Point → Prop}
    (hadd : ∀ {P Q R}, Good P → Good Q → padd p a P Q = .ok R → Good R) :
    ∀ {fuel k : Nat} {acc addend R : Point}, Good acc → Good addend →
      smulLoop p a fuel k acc addend = .ok R → Good R := by
  intro fuel
  induction fuel with
  | zero => intro k acc addend R ha hd h; simp only [smulLoop, Except.ok.injEq] at h; exact h ▸ ha
  | succ fuel ih =>
    intro k acc addend R ha hd h
    by_cases hk : k = 0
    · rw [hk, smulLoop_zero] at h; simp only [Except.ok.injEq] at h; exact h ▸ ha
    · rw [smulLoop_succ p a fuel hk] at h
      cases h1 : (if k % 2 = 1 then padd p a acc addend else .ok acc) with
      | error e => rw [h1] at h; simp [Except.bind] at h
      | ok acc' =>
        rw [h1] at h
        cases h2 : (if k / 2 ≠ 0 then padd p a addend addend else .ok addend) with
        | error e => rw [h2] at h; simp [Except.bind] at h
        | ok addend' =>
          rw [h2] at h
          refine ih ?_ ?_ h
          · split_ifs at h1
            · exact hadd ha hd h1
            · simp only [Except.ok.injEq] at h1; exact h1 ▸ ha
          · split_ifs at h2
            · exact hadd hd hd h2
            · simp only [Except.ok.injEq] at h2; exact h2 ▸ hd

/-- Where the group law always answers, so does the loop. -/
theorem smulLoop_total {p a : Nat} {Good : Point → Prop}
    (hadd : ∀ {P Q}, Good P → Good Q → ∃ R, padd p a P Q = .ok R ∧ Good R) :
    ∀ (fuel k : Nat) {acc addend : Point}, Good acc → Good addend →
      ∃ R, smulLoop p a fuel k acc addend = .ok R := by
  intro fuel
  induction fuel with
  | zero => intro k acc addend _ _; exact ⟨acc, rfl⟩
  | succ fuel ih =>
    intro k acc addend ha hd
    by_cases hk : k = 0
    · exact ⟨acc, by rw [hk, smulLoop_zero]⟩
    · rw [smulLoop_succ p a fuel hk]
      obtain ⟨acc', h1, g1⟩ : ∃ acc', (if k % 2 = 1 then padd p a acc addend else .ok acc) = .ok acc' ∧ Good acc' := by
        split_ifs
        · exact hadd ha hd
        · exact ⟨acc, rfl, ha⟩
      obtain ⟨ad', h2, g2⟩ : ∃ ad', (if k / 2 ≠ 0 then padd p a addend addend else .ok addend) = .ok ad' ∧ Good ad' := by
        split_ifs
        · exact hadd hd hd
        · exact ⟨addend, rfl, hd⟩
      rw [h1, h2]
      exact ih _ g1 g2

/-- The loop's one error is the group law's. -/
theorem smulLoop_error {s : State} : ∀ {fuel k : Nat} {acc addend : Point} {e : ErrKind},
    smulLoop s.p s.a fuel k acc addend = .error e → e = .divisionByZero := by
  intro fuel
  induction fuel with
  | zero => intro k acc addend e h; simp [smulLoop] at h
  | succ fuel ih =>
    intro k acc addend e h
    by_cases hk : k = 0
    · rw [hk, smulLoop_zero] at h; simp at h
    · rw [smulLoop_succ _ _ fuel hk] at h
      cases h1 : (if k % 2 = 1 then padd s.p s.a acc addend else .ok acc) with
      | error e' =>
        rw [h1] at h
        simp only [Except.bind, Except.error.injEq] at h
        split_ifs at h1
        exact h ▸ State.padd_error (s := s) h1
      | ok acc' =>
        rw [h1] at h
        cases h2 : (if k / 2 ≠ 0 then padd s.p s.a addend addend else .ok addend) with
        | error e' =>
          rw [h2] at h
          simp only [Except.bind, Except.error.injEq] at h
          split_ifs at h2
          exact h ▸ State.padd_error (s := s) h2
        | ok addend' =>
          rw [h2] at h
          exact ih h

/-- A round of fuel more changes nothing once the scalar's bits are used up. -/
theorem smulLoop_fuel (p a : Nat) : ∀ {fuel fuel' k : Nat} {acc addend : Point}, k < 2 ^ fuel → fuel ≤ fuel' →
    smulLoop p a fuel' k acc addend = smulLoop p a fuel k acc addend := by
  intro fuel
  induction fuel with
  | zero =>
    intro fuel' k acc addend hk _
    have : k = 0 := by simpa using hk
    rw [this, smulLoop_zero, smulLoop_zero]
  | succ fuel ih =>
    intro fuel' k acc addend hk hf
    by_cases h0 : k = 0
    · rw [h0, smulLoop_zero, smulLoop_zero]
    · obtain ⟨f, rfl⟩ : ∃ f, fuel' = f + 1 := ⟨fuel' - 1, by omega⟩
      have hk2 : k / 2 < 2 ^ fuel := by rw [pow_succ] at hk; omega
      rw [smulLoop_succ _ _ _ h0, smulLoop_succ _ _ _ h0]
      congr 1; funext acc'
      congr 1; funext addend'
      exact ih hk2 (by omega)

end Sys2Proof.Machine
end

