-- ==== Sys2Proof/Laws/Decode.lean ====
section
/-! SUPPORT. Laws of the command word's fields: packing and unpacking are inverse. -/

namespace Sys2Proof

/-- Fields inside their widths (30_encoding.md R90). -/
def Fields.InRange (f : Fields) : Prop :=
  f.op < 256 ∧ f.d < 16 ∧ f.a < 16 ∧ f.b < 16 ∧ f.c < 16 ∧ f.fn < 256

/-- Unpacking a packed word gives the fields back. -/
theorem fieldsOf_packWord {f : Fields} (h : f.InRange) : fieldsOf (packWord f) = f := by
  obtain ⟨op, d, a, b, c, fn⟩ := f
  obtain ⟨h1, h2, h3, h4, h5, h6⟩ := h
  simp only at h1 h2 h3 h4 h5 h6
  simp only [fieldsOf, packWord, bitsOf, BitVec.toNat_ofNat, Fields.mk.injEq]
  norm_num
  omega

/-- A word packed from fields in range decodes as its fields do. -/
theorem decode_packWord {f : Fields} (h : f.InRange) : decode (packWord f) = decodeFields f := by
  rw [decode, fieldsOf_packWord h]

/-- The fields of any word are inside their widths. -/
theorem fieldsOf_inRange (w : HWord) : (fieldsOf w).InRange := by
  simp only [fieldsOf, bitsOf, Fields.InRange]
  norm_num
  omega

/-- Packing the fields of a word gives the word back: no bit is dropped. -/
theorem packWord_fieldsOf (w : HWord) : packWord (fieldsOf w) = w := by
  apply BitVec.eq_of_toNat_eq
  have hw : w.toNat < 2 ^ 32 := w.isLt
  simp only [fieldsOf, packWord, bitsOf, BitVec.toNat_ofNat]
  norm_num at hw ⊢
  omega

theorem RIdx.lt (r : RIdx) : r.val < 16 := r.isLt
theorem PIdx.lt (j : PIdx) : j.val < 16 := Nat.lt_trans j.isLt (by decide)

/-- An instruction's fields are inside their widths. -/
theorem Instr.fields_inRange (i : Instr) : i.fields.InRange := by
  cases i <;> simp [Instr.fields, Fields.InRange, PIdx.lt]

@[simp] theorem regField_val (r : RIdx) : regField r.val = r := by
  simp [regField, Nat.mod_eq_of_lt r.isLt]

@[simp] theorem ptField_val (j : PIdx) : ptField j.val = .ok j := by
  simp [ptField, j.isLt]

theorem regField_of_lt {n : Nat} (h : n < 16) : (regField n : Nat) = n := Nat.mod_eq_of_lt h

/-! What each check of the decoder says when it passes, for taking a decoding apart line by line. -/

theorem ptField_ok {n : Nat} {j : PIdx} (h : ptField n = .ok j) : (j : Nat) = n := by
  unfold ptField at h
  split_ifs at h
  simp only [Except.ok.injEq] at h
  rw [← h]

theorem unusedZero_ok {l : List Nat} {u : Unit} (h : unusedZero l = .ok u) : ∀ x ∈ l, x = 0 := by
  unfold unusedZero at h
  split_ifs at h with h'
  simpa using h'

theorem noModifier_ok {fn : Nat} {u : Unit} (h : noModifier fn = .ok u) : fn = 0 := by
  unfold noModifier at h
  split_ifs at h with h'
  exact h'

theorem oneModifier_ok {fn bit : Nat} {x y i : Instr} (h : oneModifier fn bit x y = .ok i) :
    (fn = 0 ∧ i = x) ∨ (fn = bit ∧ i = y) := by
  unfold oneModifier at h
  split_ifs at h with h' h'
  · exact .inl ⟨h', by simpa using h.symm⟩
  · exact .inr ⟨h', by simpa using h.symm⟩

theorem except_bind_ok {ε α β : Type} {x : Except ε α} {f : α → Except ε β} {b : β} (h : (x >>= f) = .ok b) :
    ∃ a, x = .ok a ∧ f a = .ok b := by
  cases x with
  | error e => simp [bind, Except.bind] at h
  | ok a => exact ⟨a, rfl, h⟩

theorem except_bind_error {ε α β : Type} {x : Except ε α} {f : α → Except ε β} {e : ε}
    (h : (x >>= f) = .error e) : x = .error e ∨ ∃ a, x = .ok a ∧ f a = .error e := by
  cases x with
  | error e' => exact .inl (by simpa [bind, Except.bind] using h)
  | ok a => exact .inr ⟨a, rfl, h⟩

theorem except_pure_ok {ε α : Type} {a b : α} (h : (pure a : Except ε α) = .ok b) : b = a := by
  simpa [pure, Except.pure] using h.symm

end Sys2Proof
end

