-- ==== Sys2Proof/Laws/Invariant.lean ====
section
/-! SUPPORT. How each kind of write keeps the invariant, said once. -/

namespace Sys2Proof.Machine

/-- `INT` registers meet R23 whatever they hold. -/
theorem regOk_int (s : State) (v : Word) : RegOk s ⟨v, .int⟩ := fun f h => absurd h.symm (by simp)

/-- An element below its modulus meets R23. -/
theorem regOk_elem (s : State) {f : FieldSel} {v : Nat} (h : v < s.modOf f) : RegOk s ⟨BitVec.ofNat 256 v, f.tag⟩ := by
  intro g hg
  have hfg : f = g := FieldSel.tag_inj hg
  subst hfg
  show (BitVec.ofNat 256 v).toNat < _
  rwa [toNat_ofNat_of_lt (lt_of_lt_modOf h)]

theorem regOk_fp {s : State} {v : Word} (h : v.toNat < s.p) : RegOk s ⟨v, .fp⟩ := by
  intro g hg
  cases g
  · exact h
  · simp [FieldSel.tag] at hg

/-- What the invariant says apart from `STATUS` and the nonce generator. -/
def InvData (s : State) : Prop := (∀ i, RegOk s (s.reg i)) ∧ (∀ j, PointOk s (s.pt j)) ∧ KeyOk s ∧ MemOk s

theorem Inv.data {s : State} (h : Inv s) : InvData s := ⟨h.regs, h.pts, h.key, h.mem⟩

section Data
variable {s : State} (h : InvData s)
include h

theorem InvData.setReg (d : RIdx) {r : Reg} (hr : RegOk s r) : InvData (s.setReg d r) := by
  refine ⟨fun i => ?_, h.2.1, h.2.2.1, h.2.2.2⟩
  rw [State.reg_setReg]
  split_ifs
  · exact hr
  · exact h.1 i

theorem InvData.setPt (d : PIdx) {q : Point} (hq : PointOk s q) : InvData (s.setPt d q) := by
  refine ⟨h.1, fun j => ?_, h.2.2.1, h.2.2.2⟩
  rw [State.pt_setPt]
  split_ifs
  · exact hq
  · exact h.2.1 j

theorem InvData.setT (b : Bool) : InvData (s.setT b) := h

/-- A key as `KEYGEN` makes it (44_ecdsa.md R215), or the empty slot. -/
theorem InvData.setKey {k : KeySlot} (hk : KeyOk (s.setKey k)) : InvData (s.setKey k) := ⟨h.1, h.2.1, hk, h.2.2.2⟩

end Data

theorem keyOk_empty (s : State) : KeyOk (s.setKey KeySlot.empty) :=
  ⟨fun _ => rfl, fun h => by simp [State.setKey, KeySlot.empty] at h⟩

/-- Normal completion of a command run in a busy state. -/
theorem Inv.complete {s t : State} (hs : Inv s) (hb : s.busy = true) (ht : InvData t) (he : t.err = s.err)
    (hc : t.errcode = s.errcode) : Inv t.complete := by
  obtain ⟨-, h2, h3, h4⟩ := hs.status.1 hb
  refine ⟨ht.1, ht.2.1, ht.2.2.1, ⟨?_, ?_, ?_, ?_⟩, ht.2.2.2, .inl rfl⟩
  · intro h; simp at h
  · show t.err = true ↔ t.errcode ≠ 0
    rw [he, hc]; exact hs.status.2.1
  · show t.errcode ≠ 3
    rw [hc]; exact hs.status.2.2.1
  · show t.errcode.toNat ≤ 9
    rw [hc]; exact hs.status.2.2.2

/-- Error completion, with any kind the block raises (60_exceptions.md R270). -/
theorem Inv.completeError {s : State} (hs : Inv s) {e : ErrKind} (he : e ≠ .invalidEncoding) :
    Inv (s.completeError e) := by
  refine ⟨hs.regs, hs.pts, hs.key, ⟨?_, ?_, ?_, ?_⟩, hs.mem, .inl rfl⟩
  · intro h; simp at h
  · cases e <;> simp [ErrKind.code]
  · cases e <;> simp_all [ErrKind.code]
  · cases e <;> simp [ErrKind.code]

/-- Demotion leaves nothing constructed under the old configuration (10_state.md R37), whatever the new one. -/
theorem InvData.demote {s : State} (hm : MemOk s) (c : CurveConfig) : InvData { s.demote with cfg := c } := by
  refine ⟨fun i => ?_, fun j => ?_, ⟨fun _ => rfl, fun h => ?_⟩, hm⟩
  · show RegOk _ (s.demote.reg i)
    rw [State.reg_demote]
    exact regOk_int _ _
  · show PointOk _ (s.demote.pt j)
    rw [State.pt_demote]
    trivial
  · simp [KeySlot.empty] at h

/-- `gen()` gives residues. -/
theorem State.gen_pointOk {s : State} {g : Point} (h : s.gen = .ok g) : 0 < s.p ∧ PointOk s g := by
  rcases s.gen_cases with ⟨-, h'⟩ | ⟨-, -, h'⟩ | ⟨hp, -, h'⟩ <;> rw [h'] at h <;>
    simp only [reduceCtorEq, Except.ok.injEq] at h
  have hp' := Nat.pos_of_ne_zero hp
  have lt : ∀ x, (BitVec.ofNat 256 (x % s.p)).toNat < s.p := fun x => by
    rw [toNat_ofNat_of_lt (lt_trans (Nat.mod_lt _ hp') (s.modOf_lt .p))]
    exact Nat.mod_lt _ hp'
  exact ⟨hp', h ▸ ⟨lt _, lt _⟩⟩

/-- `smul` gives residues. -/
theorem State.smul_pointOk {s : State} (hp : 0 < s.p) {k : Nat} {P R : Point} (hP : PointOk s P)
    (h : s.smul k P = .ok R) : PointOk s R := by
  rw [State.smul_eq_loop] at h
  exact smulLoop_ok (Good := PointOk s) (fun a b c => State.padd_pointOk hp a b c) (acc := .inf) trivial hP h

end Sys2Proof.Machine
end

