-- ==== Sys2Proof/Laws/Nonce.lean ====
section
/-! SUPPORT. Laws of the nonce generator (44_ecdsa.md R220, R221), over any hash provider: the table's rows run
the lines of `NONCE`, one iteration a turn. (A proof about the machine's own provider cites these, so that
SHA-256 is never unfolded.) -/

namespace Sys2Proof.Machine

theorem be32_onesDigest : be32 onesDigest = List.replicate 32 0x01 := by decide +kernel
theorem be32_zero : be32 0 = List.replicate 32 0x00 := by decide +kernel

theorem nonceRows_add (c : NonceInputs) (j k : Nat) : ∀ (ph : NoncePhase) (r : NonceRegs),
    nonceRows c (j + k) ph r = nonceRows c k (nonceRows c j ph r).1 (nonceRows c j ph r).2 := by
  induction j with
  | zero => intro ph r; simp [nonceRows]
  | succ j ih =>
    intro ph r
    rw [Nat.add_right_comm, nonceRows, ih]
    rfl

/-- The five rows before the loop leave `(K, V)` as R220 steps 1 to 3 do. -/
theorem nonceRows_seed (c : NonceInputs) (r : NonceRegs) : nonceRows c 5 .check r =
    (.gen, ⟨(nonceSeed c.H c.msg c.secret).1, (nonceSeed c.H c.msg c.secret).2, r.T, c.H.sha256 c.msg⟩) := by
  simp only [nonceRows, nonceNext, nonceSeed]
  rw [be32_onesDigest, be32_zero]

/-- One iteration of the loop, from `N_GEN`: a hit stands at `N_WB`, a miss is reseeded. -/
theorem nonceRows_gen (c : NonceInputs) (r : NonceRegs) : nonceRows c 4 .gen r =
    if nonceGood c.n (c.H.hmacSha256 (be32 r.K) (be32 r.V)) then
      (.wb, ⟨r.K, c.H.hmacSha256 (be32 r.K) (be32 r.V), c.H.hmacSha256 (be32 r.K) (be32 r.V), r.h1⟩)
    else
      (.gen, ⟨c.H.hmacSha256 (be32 r.K) (be32 (c.H.hmacSha256 (be32 r.K) (be32 r.V)) ++ [0x00]),
        c.H.hmacSha256
          (be32 (c.H.hmacSha256 (be32 r.K) (be32 (c.H.hmacSha256 (be32 r.K) (be32 r.V)) ++ [0x00])))
          (be32 (c.H.hmacSha256 (be32 r.K) (be32 r.V))),
        c.H.hmacSha256 (be32 r.K) (be32 r.V), r.h1⟩) := by
  by_cases h : nonceGood c.n (c.H.hmacSha256 (be32 r.K) (be32 r.V)) = true <;> simp [nonceRows, nonceNext, h]

/-- The turn that starts a command runs the seeding and the first iteration. -/
theorem nonceTurn_check (c : NonceInputs) {ph : NoncePhase} (h : ph ≠ .gen) (r : NonceRegs) :
    nonceTurn c ph r = nonceRows c 4 .gen
      ⟨(nonceSeed c.H c.msg c.secret).1, (nonceSeed c.H c.msg c.secret).2, r.T, c.H.sha256 c.msg⟩ := by
  rw [nonceTurn, if_neg h, show 9 = 5 + 4 from rfl, nonceRows_add, nonceRows_seed]

/-- A turn that starts in mid-search runs one iteration. -/
theorem nonceTurn_gen (c : NonceInputs) (r : NonceRegs) : nonceTurn c .gen r = nonceRows c 4 .gen r := by
  rw [nonceTurn, if_pos rfl]

/-- `u` is a state of the search of the `NONCE` accepted in `s`, about to run iteration `i`. -/
def SearchAt (H : HashProvider) (s : State) (i : Nat) (u : State) : Prop :=
  u = { s with nonce := u.nonce, nPhase := u.nPhase } ∧
  ((i = 0 ∧ u.nPhase = .check) ∨
   (u.nPhase = .gen ∧ (u.nonce.K, u.nonce.V) = nonceHead H s.message s.key.secret i))

theorem SearchAt.nonceInputs {H : HashProvider} {s u : State} {i : Nat} (h : SearchAt H s i u) :
    u.nonceInputs H = s.nonceInputs H := by
  rw [h.1]
  rfl

theorem SearchAt.nonceCheck {H : HashProvider} {s u : State} {i : Nat} (h : SearchAt H s i u)
    (hk : s.key.valid = true) (hl : s.msgLen.toNat ≤ 256) : nonceCheck u = .ok () := by
  have h1 : u.key = s.key := by rw [h.1]
  have h2 : u.msgLen = s.msgLen := by rw [h.1]
  unfold Machine.nonceCheck
  rw [h1, h2]
  simp [hk, Nat.not_lt.2 hl]

/-- Everything one turn of a running search can do: complete with the iteration's candidate, or go on to the
next iteration with only hidden state changed. -/
theorem nonceWith_turn {H : HashProvider} {s u : State} {i : Nat} (d : RIdx) (hk : s.key.valid = true)
    (hl : s.msgLen.toNat ≤ 256) (h : SearchAt H s i u) :
    (nonceGood s.n (nonceCandidate H s.message s.key.secret i) = true ∧ ∃ r : NonceRegs, nonceWith H d u =
      .next ({ u with nonce := r }.setReg d ⟨nonceCandidate H s.message s.key.secret i, .int⟩).complete) ∨
    (nonceGood s.n (nonceCandidate H s.message s.key.secret i) = false ∧ ∃ r : NonceRegs,
      nonceWith H d u = .next { u with nonce := r, nPhase := .gen } ∧
      (r.K, r.V) = nonceHead H s.message s.key.secret (i + 1)) := by
  have start : ∃ r : NonceRegs, nonceTurn (s.nonceInputs H) u.nPhase u.nonce = nonceRows (s.nonceInputs H) 4 .gen r ∧
      (r.K, r.V) = nonceHead H s.message s.key.secret i := by
    rcases h.2 with ⟨h0, hp⟩ | ⟨hp, hkv⟩
    · refine ⟨_, nonceTurn_check _ (by rw [hp]; decide) _, ?_⟩
      rw [h0]
      rfl
    · exact ⟨u.nonce, by rw [hp, nonceTurn_gen], hkv⟩
  obtain ⟨r, ht, hkv⟩ := start
  have hK : r.K = (nonceHead H s.message s.key.secret i).1 := by rw [← hkv]
  have hV : r.V = (nonceHead H s.message s.key.secret i).2 := by rw [← hkv]
  have hc : H.hmacSha256 (be32 r.K) (be32 r.V) = nonceCandidate H s.message s.key.secret i := by
    rw [hK, hV, nonceCandidate]
  rw [nonceRows_gen, show (s.nonceInputs H).H = H from rfl, show (s.nonceInputs H).n = s.n from rfl, hc] at ht
  have hw := h.nonceCheck hk hl
  cases hg : nonceGood s.n (nonceCandidate H s.message s.key.secret i) with
  | true =>
    rw [if_pos hg] at ht
    exact .inl ⟨rfl, (nonceTurn (s.nonceInputs H) u.nPhase u.nonce).2, by
      simp only [nonceWith, hw, h.nonceInputs, ht, if_true, finish_ok]⟩
  | false =>
    rw [if_neg (by simp [hg])] at ht
    refine .inr ⟨rfl, (nonceTurn (s.nonceInputs H) u.nPhase u.nonce).2, by
      simp only [nonceWith, hw, h.nonceInputs, ht, reduceCtorEq, if_false], ?_⟩
    rw [ht, nonceHead, ← hK, ← hV, hc]

end Sys2Proof.Machine
end

