-- ==== Sys2Proof/Laws/Effects.lean ====
section
/-! SUPPORT. Said once for all commands: what one turn of the sequencer can do to the state. -/

namespace Sys2Proof.Machine

/-- What a command's pseudocode can give: its writes, with the property `P`, or an error the block raises
(60_exceptions.md R273: never `InvalidEncoding`). -/
inductive Res (P : State → Prop) : Except ErrKind State → Prop
  | ok {t : State} : P t → Res P (.ok t)
  | err {e : ErrKind} : e ≠ .invalidEncoding → Res P (.error e)

/-! ## The errors of the shared operations -/

theorem elem_ne {s i e} (h : elem s i = .error e) : e ≠ .invalidEncoding := by
  rcases elem_cases s i with ⟨_, h'⟩ | ⟨f, _, h'⟩ <;> rw [h'] at h <;> simp at h; rw [← h]; decide

theorem sameField_ne {s i j e} (h : sameField s i j = .error e) : e ≠ .invalidEncoding := by
  rcases sameField_cases s i j with ⟨_, h'⟩ | ⟨f, _, _, h'⟩ <;> rw [h'] at h <;> simp at h; rw [← h]; decide

theorem elemOf_ne {s f i e} (h : elemOf s f i = .error e) : e ≠ .invalidEncoding := by
  unfold elemOf at h; split_ifs at h; simp at h; rw [← h]; decide

theorem elemOf_ok {s : State} {f i u} (h : elemOf s f i = .ok u) : s.tag i = f.tag := by
  unfold elemOf at h; split_ifs at h with h'; exact h'

theorem require_ok {c e u} (h : require c e = .ok u) : c = true := by
  unfold require at h; split_ifs at h with h'; exact h'

theorem require_err {c e e'} (h : require c e = .error e') : e' = e := by
  unfold require at h; split_ifs at h with h'; simp at h; exact h.symm

theorem require_ne {c : Bool} {e : ErrKind} (he : e ≠ .invalidEncoding) (e' : ErrKind)
    (h : require c e = .error e') : e' ≠ .invalidEncoding := by
  rw [require_err h]
  exact he

theorem ne_of_require {d a : RIdx} {e : ErrKind} {u : Unit} (h : require (d != a) e = .ok u) : d ≠ a := by
  simpa using require_ok h

theorem inverter_ne {x m e} (h : inverter x m = .error e) : e ≠ .invalidEncoding := by
  unfold inverter at h; split_ifs at h; simp at h; rw [← h]; decide

theorem makePoint_ne {s : State} {x y e} (h : s.makePoint x y = .error e) : e ≠ .invalidEncoding := by
  unfold State.makePoint at h; split_ifs at h; simp at h; rw [← h]; decide

theorem makePointI_ne {s : State} {x y e} (h : s.makePointIntegral x y = .error e) : e ≠ .invalidEncoding := by
  unfold State.makePointIntegral at h; split_ifs at h
  · simp at h; rw [← h]; decide
  · exact makePoint_ne h

theorem gen_ne {s : State} {e} (h : s.gen = .error e) : e ≠ .invalidEncoding := makePointI_ne h

theorem padd_ne {s : State} {P Q e} (h : s.padd P Q = .error e) : e ≠ .invalidEncoding := by
  rw [State.padd_error h]
  decide

theorem smul_ne {s : State} {k P e} (h : s.smul k P = .error e) : e ≠ .invalidEncoding := by
  rw [smulLoop_error (s := s) h]
  decide

theorem divMod_ne {m x y e} (h : divMod m x y = .error e) : e ≠ .invalidEncoding := by
  rw [divMod_error h]
  decide

theorem coord_ne {sel P e} (h : coordinate sel P = .error e) : e ≠ .invalidEncoding := by
  cases P <;> simp [coordinate] at h
  rw [← h]
  decide

theorem pointX_ne {P e} (h : pointX P = .error e) : e ≠ .invalidEncoding := by
  cases P <;> simp [pointX] at h
  rw [← h]
  decide

theorem reduceBy_ne {s f a e} (h : reduceBy s f a = .error e) : e ≠ .invalidEncoding := by
  unfold reduceBy at h
  split_ifs at h
  simp at h
  rw [← h]
  decide

theorem sqrt_ne {m x e} (h : sqrtMod m x = .error e) : e ≠ .invalidEncoding := by
  unfold sqrtMod at h
  split_ifs at h
  simp at h
  rw [← h]
  decide

theorem powNeg_ne {m x k e} (h : powNeg m x k = .error e) : e ≠ .invalidEncoding := by
  unfold powNeg at h; split_ifs at h
  rcases except_bind_error h with h | ⟨_, _, h⟩
  · exact inverter_ne h
  · simp [pure, Except.pure] at h

theorem Res.bind {P : State → Prop} {α : Type} {x : Except ErrKind α} {f : α → Except ErrKind State}
    (hx : ∀ e, x = .error e → e ≠ .invalidEncoding) (hf : ∀ a, x = .ok a → Res P (f a)) : Res P (x >>= f) := by
  cases x with
  | error e => exact .err (hx e rfl)
  | ok a => exact hf a rfl

theorem res_binary {P} {op d a b} {s : State} (hop : ∀ m x y e, op m x y = .error e → e ≠ .invalidEncoding)
    (hP : ∀ f v, s.tag a = f.tag → s.tag b = f.tag → op (s.modOf f) (s.val a) (s.val b) = .ok v →
    P (s.setElem d f v)) :
   ∃ r, fieldBinary op d a b s = finish s r ∧ Res P r := by
  refine ⟨_, rfl, ?_⟩
  refine Res.bind (fun e h => sameField_ne h) fun f hf => ?_
  rcases sameField_cases s a b with ⟨_, h'⟩ | ⟨f', h1, h2, h'⟩ <;> rw [h'] at hf <;> simp at hf
  subst hf
  exact Res.bind (fun e h => hop _ _ _ e h) fun v hv => .ok (hP _ _ h1 h2 hv)

theorem res_unary {P} {op d a} {s : State} (hop : ∀ m x e, op m x = .error e → e ≠ .invalidEncoding)
    (hP : ∀ f v, s.tag a = f.tag → op (s.modOf f) (s.val a) = .ok v → P (s.setElem d f v)) :
   ∃ r, fieldUnary op d a s = finish s r ∧ Res P r := by
  refine ⟨_, rfl, ?_⟩
  refine Res.bind (fun e h => elem_ne h) fun f hf => ?_
  rcases elem_cases s a with ⟨_, h'⟩ | ⟨f', h1, h'⟩ <;> rw [h'] at hf <;> simp at hf
  subst hf
  exact Res.bind (fun e h => hop _ _ e h) fun v hv => .ok (hP _ _ h1 hv)

theorem signature_ne {s : State} {k z e} (h : signature s k z = .error e) : e ≠ .invalidEncoding := by
  unfold signature at h
  rcases except_bind_error h with h | ⟨_, _, h⟩; · rw [require_err h]; decide
  rcases except_bind_error h with h | ⟨_, _, h⟩; · exact gen_ne h
  rcases except_bind_error h with h | ⟨_, _, h⟩; · rw [require_err h]; decide
  rcases except_bind_error h with h | ⟨_, _, h⟩; · exact smul_ne h
  rcases except_bind_error h with h | ⟨_, _, h⟩; · exact pointX_ne h
  rcases except_bind_error h with h | ⟨_, _, h⟩; · exact inverter_ne h
  simp [pure, Except.pure] at h

theorem sigValid_ne {s : State} {Q r t z e} (h : signatureValid s Q r t z = .error e) : e ≠ .invalidEncoding := by
  unfold signatureValid at h
  rcases except_bind_error h with h | ⟨_, _, h⟩; · exact gen_ne h
  rcases except_bind_error h with h | ⟨_, _, h⟩; · exact inverter_ne h
  rcases except_bind_error h with h | ⟨_, _, h⟩; · exact smul_ne h
  rcases except_bind_error h with h | ⟨_, _, h⟩; · exact smul_ne h
  rcases except_bind_error h with h | ⟨_, _, h⟩; · exact padd_ne h
  simp [pure, Except.pure] at h

/-! ## The writes of a command -/

/-- What the writes of a command other than `NONCE` can be: the destinations of R93 and nothing else, with
values that keep the invariant. -/
inductive Wr (s : State) : Instr → State → Prop
  | nop : Wr s .nop s
  | reg {i d r} : regDests i = [d] → isNonce i = false → writesKey i = false → isPredicate i = false →
      ptDests i = [] → (InvData s → RegOk s r) → Wr s i (s.setReg d r)
  | sign {d a b c r q} : d ≠ a → (InvData s → RegOk s r ∧ RegOk s q) →
      Wr s (.sign d a b c) ((s.setReg d r).setReg a q)
  | pt {i d q} : ptDests i = [d] → writesKey i = false → isPredicate i = false → regDests i = [] → (InvData s →
      PointOk s q) → Wr s i (s.setPt d q)
  | key {i k} : writesKey i = true → ptDests i = [] → isPredicate i = false → regDests i = [] → (InvData s →
      KeyOk (s.setKey k)) → Wr s i (s.setKey k)
  | flag {i b} : isPredicate i = true → ptDests i = [] → writesKey i = false → regDests i = [] → Wr s i (s.setT b)

theorem modpos {s : State} (h : InvData s) {i} {f : FieldSel}
    (ht : s.tag i = f.tag) : s.val i < s.modOf f := h.1 i f ht

/-- Every command but `NONCE` ends its turn with its writes or with an error. -/
theorem exec_res (i : Instr) (s : State) (hi : isNonce i = false) : ∃ r, exec i s = finish s r ∧
    Res (Wr s i) r := by
  have pos : ∀ {f : FieldSel} {j}, InvData s → s.tag j = f.tag → 0 < s.modOf f :=
      fun h ht => lt_of_le_of_lt (Nat.zero_le _) (modpos h ht)
  have setE : ∀ {i d} (f : FieldSel) (v : Nat), regDests i = [d] → isNonce i = false → writesKey i = false →
      isPredicate i = false → ptDests i = [] → (InvData s → v < s.modOf f) → Wr s i (s.setElem d f v) :=
    fun f v h1 h2 h3 h4 h5 hv => .reg h1 h2 h3 h4 h5 fun h => regOk_elem s (hv h)
  have hlt : ∀ {m v w : Nat}, 0 < m → (Except.ok w : Except ErrKind Nat) = .ok v → w < m → v < m := by
    intro m v w _ h hw
    simp only [Except.ok.injEq] at h
    omega
  cases i with
  | nop => exact ⟨_, rfl, .ok .nop⟩
  | mov d a => exact ⟨_, rfl, .ok (.reg rfl rfl rfl rfl rfl fun h => h.1 a)⟩
  | fraw d a => exact ⟨_, rfl, .ok (.reg rfl rfl rfl rfl rfl fun h => regOk_int _ _)⟩
  | fredP d a =>
    exact ⟨_, rfl, Res.bind (fun e h => reduceBy_ne h) fun v hv => .ok (.reg rfl rfl rfl rfl rfl
      fun h => regOk_int _ _)⟩
  | fredN d a =>
    exact ⟨_, rfl, Res.bind (fun e h => reduceBy_ne h) fun v hv => .ok (.reg rfl rfl rfl rfl rfl
      fun h => regOk_int _ _)⟩
  | fnewP d a =>
    refine ⟨_, rfl, Res.bind (fun e h => reduceBy_ne h) fun v hv => .ok (setE .p v rfl rfl rfl rfl rfl
        fun h => ?_)⟩
    unfold reduceBy at hv; split_ifs at hv with h0; simp at hv; rw [← hv]; exact Nat.mod_lt _
        (Nat.pos_of_ne_zero h0)
  | fnewN d a =>
    refine ⟨_, rfl, Res.bind (fun e h => reduceBy_ne h) fun v hv => .ok (setE .n v rfl rfl rfl rfl rfl
        fun h => ?_)⟩
    unfold reduceBy at hv; split_ifs at hv with h0; simp at hv; rw [← hv]; exact Nat.mod_lt _
        (Nat.pos_of_ne_zero h0)
  | fadd d a b =>
    exact res_binary (op := fun m x y => .ok (addMod m x y)) (by simp)
      fun f v h1 h2 hv => setE f v rfl rfl rfl rfl rfl fun h => hlt (pos h h1) hv (addMod_lt (pos h h1) _ _)
  | fsub d a b =>
    exact res_binary (op := fun m x y => .ok (subMod m x y)) (by simp)
      fun f v h1 h2 hv => setE f v rfl rfl rfl rfl rfl fun h => hlt (pos h h1) hv (subMod_lt (pos h h1) _ _)
  | fmul d a b =>
    exact res_binary (op := fun m x y => .ok (mulMod m x y)) (by simp)
      fun f v h1 h2 hv => setE f v rfl rfl rfl rfl rfl fun h => hlt (pos h h1) hv (mulMod_lt (pos h h1) _ _)
  | fdiv d a b =>
    refine res_binary (op := divMod) (fun m x y e h => divMod_ne h)
        fun f v h1 h2 hv => setE f v rfl rfl rfl rfl rfl fun h => ?_
    obtain ⟨_, _, hv⟩ := except_bind_ok hv
    rw [except_pure_ok hv]; exact Nat.mod_lt _ (pos h h1)
  | finv d a =>
    refine res_unary (op := fun m x => inverter x m) (fun m x e h => inverter_ne h)
        fun f v h1 hv => setE f v rfl rfl rfl rfl rfl fun h => ?_
    unfold inverter at hv; split_ifs at hv; simp at hv; rw [← hv]; exact invMod_lt (pos h h1)
  | fpow d a b =>
    refine res_unary (op := fun m x => .ok (powPos m x (s.val b))) (by simp)
        fun f v h1 hv => setE f v rfl rfl rfl rfl rfl fun h => ?_
    have hm := pos h h1
    simp at hv; rw [← hv, powPos]; split_ifs with g1 g2
    · exact hm
    · omega
    · rw [powMod_eq (s.val_lt b)]; exact Nat.mod_lt _ hm
  | fpowNeg d a b =>
    refine res_unary (op := fun m x => powNeg m x (s.val b)) (fun m x e h => powNeg_ne h)
        fun f v h1 hv => setE f v rfl rfl rfl rfl rfl fun h => ?_
    have hm := pos h h1
    unfold powNeg at hv; split_ifs at hv with g1 g2
    · simp at hv; omega
    · simp at hv; omega
    · obtain ⟨_, _, hv⟩ := except_bind_ok hv
      rw [except_pure_ok hv, powMod_eq (s.val_lt b)]; exact Nat.mod_lt _ hm
  | fsqrt d a =>
    refine res_unary (op := sqrtMod) (fun m x e h => sqrt_ne h) fun f v h1 hv => setE f v rfl rfl rfl rfl rfl
        fun h => ?_
    have hm := pos h h1
    unfold sqrtMod at hv; split_ifs at hv; simp at hv
    have := s.modOf_lt f
    rw [← hv, powMod_eq (by omega)]; exact Nat.mod_lt _ hm
  | fisz a => exact ⟨_, rfl, .ok (.flag rfl rfl rfl rfl)⟩
  | feq a b => exact ⟨_, rfl, .ok (.flag rfl rfl rfl rfl)⟩
  | pinf d => exact ⟨_, rfl, .ok (.pt (q := .inf) rfl rfl rfl rfl fun _ => trivial)⟩
  | pnew d a b =>
    refine ⟨_, rfl, Res.bind (fun e h => elemOf_ne h) fun _ ha => Res.bind (fun e h => elemOf_ne h) fun _ hb =>
        Res.bind (fun e h => makePoint_ne h) fun q hq => .ok (.pt rfl rfl rfl rfl fun h => ?_)⟩
    unfold State.makePoint at hq; split_ifs at hq; simp at hq; rw [← hq]
    have h1 : (s.reg a).val.toNat < s.p := modpos h (elemOf_ok ha)
    have h2 : (s.reg b).val.toNat < s.p := modpos h (elemOf_ok hb)
    have e : ∀ i, BitVec.ofNat 256 (s.val i) = (s.reg i).val := fun i => by simp [State.val]
    show PointOk s (.aff _ _)
    rw [e, e]; exact ⟨h1, h2⟩
  | pnewi d a b =>
    refine ⟨_, rfl, Res.bind (fun e h => makePointI_ne h) fun q hq => .ok (.pt rfl rfl rfl rfl fun h => ?_)⟩
    unfold State.makePointIntegral State.makePoint at hq; split_ifs at hq with h0; simp at hq; rw [← hq]
    have hp := Nat.pos_of_ne_zero h0
    have lt : ∀ x, (BitVec.ofNat 256 (x % s.p)).toNat < s.p := fun x => by
      rw [toNat_ofNat_of_lt (lt_trans (Nat.mod_lt _ hp) (s.modOf_lt .p))]; exact Nat.mod_lt _ hp
    exact ⟨lt _, lt _⟩
  | ponc a b =>
    exact ⟨_, rfl, Res.bind (fun e h => elemOf_ne h) fun _ ha => Res.bind (fun e h => elemOf_ne h)
      fun _ hb => .ok (.flag rfl rfl rfl rfl)⟩
  | padd d a b =>
    refine ⟨_, rfl, Res.bind (fun e h => padd_ne h) fun q hq => .ok (.pt rfl rfl rfl rfl fun h => ?_)⟩
    by_cases hp : s.p = 0
    · have inf : ∀ j, s.pt j = .inf := fun j => by
        have := h.2.1 j
        cases hj : s.pt j with
        | inf => rfl
        | aff x y => rw [hj] at this; have := this.1; omega
      rw [inf a, inf b] at hq; simp at hq; rw [← hq]; trivial
    · exact State.padd_pointOk (Nat.pos_of_ne_zero hp) (h.2.1 a) (h.2.1 b) hq
  | pdbl d a =>
    refine ⟨_, rfl, Res.bind (fun e h => padd_ne h) fun q hq => .ok (.pt rfl rfl rfl rfl fun h => ?_)⟩
    by_cases hp : s.p = 0
    · have inf : ∀ j, s.pt j = .inf := fun j => by
        have := h.2.1 j
        cases hj : s.pt j with
        | inf => rfl
        | aff x y => rw [hj] at this; have := this.1; omega
      rw [inf a] at hq; simp at hq; rw [← hq]; trivial
    · exact State.padd_pointOk (Nat.pos_of_ne_zero hp) (h.2.1 a) (h.2.1 a) hq
  | pgetx d a =>
    refine ⟨_, rfl, Res.bind (fun e h => coord_ne h) fun q hq => .ok (.reg rfl rfl rfl rfl rfl fun h => ?_)⟩
    have := h.2.1 a
    cases hj : s.pt a with
    | inf => rw [hj] at hq; simp [coordinate] at hq
    | aff x y => rw [hj] at hq this; simp [coordinate] at hq; rw [← hq]; exact regOk_fp this.1
  | pgety d a =>
    refine ⟨_, rfl, Res.bind (fun e h => coord_ne h) fun q hq => .ok (.reg rfl rfl rfl rfl rfl fun h => ?_)⟩
    have := h.2.1 a
    cases hj : s.pt a with
    | inf => rw [hj] at hq; simp [coordinate] at hq
    | aff x y => rw [hj] at hq this; simp [coordinate] at hq; rw [← hq]; exact regOk_fp this.2
  | peq a b => exact ⟨_, rfl, .ok (.flag rfl rfl rfl rfl)⟩
  | pisinf a => exact ⟨_, rfl, .ok (.flag rfl rfl rfl rfl)⟩
  | pmov d a => exact ⟨_, rfl, .ok (.pt rfl rfl rfl rfl fun h => h.2.1 a)⟩
  | pgen d =>
    exact ⟨_, rfl, Res.bind (fun e h => gen_ne h) fun q hq => .ok (.pt rfl rfl rfl rfl
      fun h => (State.gen_pointOk hq).2)⟩
  | smul d a b =>
    refine ⟨_, rfl, Res.bind (fun e h => smul_ne h) fun q hq => .ok (.pt rfl rfl rfl rfl fun h => ?_)⟩
    by_cases hp : s.p = 0
    · have := h.2.1 a
      cases hj : s.pt a with
      | inf =>
        rw [hj, State.smul_eq_loop] at hq
        have hgood : ∀ {P Q R : Point}, P = .inf → Q = .inf → padd s.p s.a P Q = .ok R → R = .inf := by
          intro P Q R h1 h2 h
          rw [h1, h2] at h
          simpa [padd] using h.symm
        have : q = .inf := smulLoop_ok (p := s.p) (a := s.a) (Good := fun P => P = .inf) hgood rfl rfl hq
        rw [this]; trivial
      | aff x y => rw [hj] at this; have := this.1; omega
    · exact State.smul_pointOk (Nat.pos_of_ne_zero hp) (h.2.1 a) hq
  | keygen a =>
    refine ⟨_, rfl, Res.bind (fun e h => elemOf_ne h) fun _ ha => Res.bind (require_ne (by decide)) fun _ h0 =>
        Res.bind (fun e h => gen_ne h) fun g hg => Res.bind (fun e h => smul_ne h) fun q hq => ?_⟩
    have ha' := elemOf_ok ha
    have h0' : s.val a ≠ 0 := by simpa using require_ok h0
    refine .ok (.key rfl rfl rfl rfl fun h => ⟨by simp, fun _ => ?_⟩)
    have hlt : s.val a < s.n := modpos h ha'
    have hg' := State.gen_pointOk hg
    refine ⟨?_, ?_, hlt, hg'.1, State.smul_pointOk hg'.1 hg'.2 hq, g, hg, hq⟩
    · show 2 ≤ s.n; omega
    · show 0 < s.val a; omega
  | keyclr => exact ⟨_, rfl, .ok (.key rfl rfl rfl rfl (fun _ => keyOk_empty s))⟩
  | pubkey d =>
    exact ⟨_, rfl, Res.bind (require_ne (by decide)) fun _ h0 => .ok (.pt rfl rfl rfl rfl fun h =>
      (h.2.2.1.2 (require_ok h0)).2.2.2.2.1)⟩
  | nonce d => simp [isNonce] at hi
  | sign d a b c =>
    refine ⟨_, rfl, Res.bind (require_ne (by decide)) fun _ hd => Res.bind (fun e h => signature_ne h)
        fun rs hr => .ok (.sign (ne_of_require hd) fun h => ?_)⟩
    unfold signature at hr
    obtain ⟨_, hk, hr⟩ := except_bind_ok hr
    obtain ⟨g, _, hr⟩ := except_bind_ok hr
    obtain ⟨_, _, hr⟩ := except_bind_ok hr
    obtain ⟨_, _, hr⟩ := except_bind_ok hr
    obtain ⟨x, _, hr⟩ := except_bind_ok hr
    obtain ⟨i, _, hr⟩ := except_bind_ok hr
    rw [except_pure_ok hr]
    have hn : 0 < s.n := by have := (h.2.2.1.2 (require_ok hk)).1; omega
    refine ⟨regOk_elem s (f := .n) (Nat.mod_lt _ hn), regOk_elem s (f := .n) ?_⟩
    show lowS s.n _ < s.n
    have := Nat.mod_lt ((s.val c % s.n + x % s.n * s.key.secret.toNat) % s.n * i) hn
    unfold lowS; split_ifs <;> omega
  | verify d a b c =>
    exact ⟨_, rfl, Res.bind (fun e h => elemOf_ne h) fun _ ha => Res.bind
      (fun e h => elemOf_ne h) fun _ hb => Res.bind (fun e h => sigValid_ne h) fun b hb =>
      .ok (.flag rfl rfl rfl rfl)⟩

/-- The frame of a command's writes. -/
theorem wr_ends {s t : State} {i}
    (h : Wr s i t) : Ends s t.complete (regDests i) (ptDests i) (writesKey i) (isPredicate i) := by
  cases h with
  | nop => exact ends_self s
  | reg h1 _ h3 h4 h5 => rw [h1, h3, h4, h5]; exact ends_setReg _ _ _
  | sign h1 _ => exact ends_setReg_setReg _ _ _ _ _
  | pt h1 h2 h3 h4 => rw [h1, h2, h3, h4]; exact ends_setPt _ _ _
  | key h1 h2 h3 h4 => rw [h1, h2, h3, h4]; exact ends_setKey _ _
  | flag h1 h2 h3 h4 => rw [h1, h2, h3, h4]; exact ends_setT _ _

/-- A command's writes keep the invariant's data. -/
theorem wr_data {s t : State} {i} (h : Wr s i t) (hd : InvData s) : InvData t ∧ t.err = s.err ∧
    t.errcode = s.errcode := by
  cases h with
  | nop => exact ⟨hd, rfl, rfl⟩
  | reg _ _ _ _ _ h => exact ⟨hd.setReg _ (h hd), rfl, rfl⟩
  | sign _ h => exact ⟨(hd.setReg _ (h hd).1).setReg _ (h hd).2, rfl, rfl⟩
  | pt _ _ _ _ h => exact ⟨hd.setPt _ (h hd), rfl, rfl⟩
  | key _ _ _ _ h => exact ⟨hd.setKey (h hd), rfl, rfl⟩
  | flag => exact ⟨hd.setT _, rfl, rfl⟩

/-! ## One turn of `NONCE` -/

theorem nonce_turn_cases (c : NonceInputs) (ph r) : (nonceTurn c ph r).1 = .wb ∨ (nonceTurn c ph r).1 = .gen := by
  unfold nonceTurn
  split_ifs <;> simp only [nonceRows, nonceNext] <;> split_ifs <;> simp

/-- Everything a turn of `NONCE` can do: an error of its checks, a hit, or a miss. -/
theorem nonce_cases (d : RIdx) (s : State) (H) :
   (∃ e, (e = .noKey ∨ e = .badConfig) ∧ nonceCheck s = .error e ∧ nonceWith H d s = .next (s.completeError e)) ∨
   (nonceCheck s = .ok () ∧ ∃ r, nonceWith H d s = .next ({ s with nonce := r }.setReg d ⟨r.T, .int⟩).complete) ∨
   (nonceCheck s = .ok () ∧ ∃ r, nonceWith H d s = .next { s with nonce := r, nPhase := .gen }) := by
  cases hc : nonceCheck s with
  | error e =>
    refine .inl ⟨e, ?_, rfl, by simp [nonceWith, hc, finish]⟩
    unfold nonceCheck at hc; split_ifs at hc <;> simp_all
  | ok u =>
    rcases nonce_turn_cases (s.nonceInputs H) s.nPhase s.nonce with h | h
    · exact .inr (.inl ⟨rfl, (nonceTurn (s.nonceInputs H) s.nPhase s.nonce).2, by simp [nonceWith, hc, h,
          finish]⟩)
    · exact .inr (.inr ⟨rfl, (nonceTurn (s.nonceInputs H) s.nPhase s.nonce).2, by simp [nonceWith, hc, h]⟩)

end Sys2Proof.Machine
end

