-- ==== Sys2Proof/Laws/HostEncodings.lean ====
section
/-! SUPPORT. Laws of the integer and byte-string conversions (00_scope.md R9) and of point construction. -/

namespace Sys2Proof.Machine

theorem be_len (k v) : (bytesBe k v).length = k := by
  induction k generalizing v with
  | zero => rfl
  | succ k ih => simp [bytesBe, ih]

theorem intBe_append (a : List Byte) (b : Byte) : intBe (a ++ [b]) = 256 * intBe a + b.toNat := by simp [intBe]

theorem intBe_be (k v) : intBe (bytesBe k v) = v % 256 ^ k := by
  induction k generalizing v with
  | zero => simp [bytesBe, intBe, Nat.mod_one]
  | succ k ih =>
    rw [bytesBe, intBe_append, ih, pow_succ']
    simp only [BitVec.toNat_ofNat]
    rw [Nat.mod_mul]; omega

theorem intBe_be32 (v : Word) : intBe (be32 v) = v.toNat := by
  rw [be32, intBe_be, Nat.mod_eq_of_lt]; exact v.isLt

theorem mk_ok {s : State} {x y : Word} (h : OnCurve s.p s.a s.b (.aff x y)) : s.makePoint x.toNat y.toNat = .ok (.aff x y) := by
  have : s.onCurve x.toNat y.toNat = true := h.2.2
  simp [State.makePoint, this, affine]

end Sys2Proof.Machine
end

