-- ==== Sys2Proof/Laws/PerInstr.lean ====
section
/-! SUPPORT. Laws made per instruction. Family `OpcodeByte`: bits 31:24 of an instruction's command word are the
opcode of a row of R93, the modifier bits are the row's (30_encoding.md R90, R93), and `SIGN` is the one
instruction whose well-formedness says anything (R92 (5)). -/

namespace Sys2Proof.Laws.OpcodeByte

open Sys2Proof.Machine

/-- The opcode byte of the encoding is a row's, with that row's modifier bits; and only a `SIGN` is ill formed. -/
def Statement (i : Instr) : Prop :=
  (∃ r ∈ opcodeMap, bitsOf (encode i).toNat 31 24 = r.op ∧ (i.fields.fn = 0 ∨ i.fields.fn = r.fn)) ∧
  (i.fields.op ≠ 0x44 → i.wf = true)

/-- The opcode byte is the field `op`. -/
theorem op_encode (i : Instr) : bitsOf (encode i).toNat 31 24 = i.fields.op := by
  have h := fieldsOf_packWord i.fields_inRange
  exact congrArg Fields.op h

theorem of_row {i : Instr} (k : Fin 33) (h : i.fields.op = (opcodeMap[k]'k.isLt).op)
    (hf : i.fields.fn = 0 ∨ i.fields.fn = (opcodeMap[k]'k.isLt).fn) (hw : i.fields.op ≠ 0x44 → i.wf = true) :
    Statement i :=
  ⟨⟨opcodeMap[k]'k.isLt, List.getElem_mem _, (op_encode i).trans h, hf⟩, hw⟩

theorem nop : Statement .nop := of_row 0 rfl (.inl rfl) (fun _ => rfl)
theorem mov (d : RIdx) (a : RIdx) : Statement (.mov d a) := of_row 1 rfl (.inl rfl) (fun _ => rfl)
theorem fraw (d : RIdx) (a : RIdx) : Statement (.fraw d a) := of_row 2 rfl (.inl rfl) (fun _ => rfl)
theorem fredP (d : RIdx) (a : RIdx) : Statement (.fredP d a) := of_row 3 rfl (.inl rfl) (fun _ => rfl)
theorem fredN (d : RIdx) (a : RIdx) : Statement (.fredN d a) := of_row 3 rfl (.inr rfl) (fun _ => rfl)
theorem fnewP (d : RIdx) (a : RIdx) : Statement (.fnewP d a) := of_row 4 rfl (.inl rfl) (fun _ => rfl)
theorem fnewN (d : RIdx) (a : RIdx) : Statement (.fnewN d a) := of_row 4 rfl (.inr rfl) (fun _ => rfl)
theorem fadd (d : RIdx) (a : RIdx) (b : RIdx) : Statement (.fadd d a b) := of_row 5 rfl (.inl rfl) (fun _ => rfl)
theorem fsub (d : RIdx) (a : RIdx) (b : RIdx) : Statement (.fsub d a b) := of_row 6 rfl (.inl rfl) (fun _ => rfl)
theorem fmul (d : RIdx) (a : RIdx) (b : RIdx) : Statement (.fmul d a b) := of_row 7 rfl (.inl rfl) (fun _ => rfl)
theorem fdiv (d : RIdx) (a : RIdx) (b : RIdx) : Statement (.fdiv d a b) := of_row 8 rfl (.inl rfl) (fun _ => rfl)
theorem finv (d : RIdx) (a : RIdx) : Statement (.finv d a) := of_row 9 rfl (.inl rfl) (fun _ => rfl)
theorem fpow (d : RIdx) (a : RIdx) (b : RIdx) : Statement (.fpow d a b) := of_row 10 rfl (.inl rfl) (fun _ => rfl)
theorem fpowNeg (d : RIdx) (a : RIdx) (b : RIdx) : Statement (.fpowNeg d a b) := of_row 10 rfl (.inr rfl) (fun _ => rfl)
theorem fsqrt (d : RIdx) (a : RIdx) : Statement (.fsqrt d a) := of_row 11 rfl (.inl rfl) (fun _ => rfl)
theorem fisz (a : RIdx) : Statement (.fisz a) := of_row 12 rfl (.inl rfl) (fun _ => rfl)
theorem feq (a : RIdx) (b : RIdx) : Statement (.feq a b) := of_row 13 rfl (.inl rfl) (fun _ => rfl)
theorem pinf (d : PIdx) : Statement (.pinf d) := of_row 14 rfl (.inl rfl) (fun _ => rfl)
theorem pnew (d : PIdx) (a : RIdx) (b : RIdx) : Statement (.pnew d a b) := of_row 15 rfl (.inl rfl) (fun _ => rfl)
theorem pnewi (d : PIdx) (a : RIdx) (b : RIdx) : Statement (.pnewi d a b) := of_row 16 rfl (.inl rfl) (fun _ => rfl)
theorem ponc (a : RIdx) (b : RIdx) : Statement (.ponc a b) := of_row 17 rfl (.inl rfl) (fun _ => rfl)
theorem padd (d : PIdx) (a : PIdx) (b : PIdx) : Statement (.padd d a b) := of_row 18 rfl (.inl rfl) (fun _ => rfl)
theorem pdbl (d : PIdx) (a : PIdx) : Statement (.pdbl d a) := of_row 19 rfl (.inl rfl) (fun _ => rfl)
theorem pgetx (d : RIdx) (a : PIdx) : Statement (.pgetx d a) := of_row 20 rfl (.inl rfl) (fun _ => rfl)
theorem pgety (d : RIdx) (a : PIdx) : Statement (.pgety d a) := of_row 21 rfl (.inl rfl) (fun _ => rfl)
theorem peq (a : PIdx) (b : PIdx) : Statement (.peq a b) := of_row 22 rfl (.inl rfl) (fun _ => rfl)
theorem pisinf (a : PIdx) : Statement (.pisinf a) := of_row 23 rfl (.inl rfl) (fun _ => rfl)
theorem pmov (d : PIdx) (a : PIdx) : Statement (.pmov d a) := of_row 24 rfl (.inl rfl) (fun _ => rfl)
theorem pgen (d : PIdx) : Statement (.pgen d) := of_row 25 rfl (.inl rfl) (fun _ => rfl)
theorem smul (d : PIdx) (a : PIdx) (b : RIdx) : Statement (.smul d a b) := of_row 26 rfl (.inl rfl) (fun _ => rfl)
theorem keygen (a : RIdx) : Statement (.keygen a) := of_row 27 rfl (.inl rfl) (fun _ => rfl)
theorem keyclr : Statement .keyclr := of_row 28 rfl (.inl rfl) (fun _ => rfl)
theorem pubkey (d : PIdx) : Statement (.pubkey d) := of_row 29 rfl (.inl rfl) (fun _ => rfl)
theorem nonce (d : RIdx) : Statement (.nonce d) := of_row 30 rfl (.inl rfl) (fun _ => rfl)
theorem sign (d : RIdx) (a : RIdx) (b : RIdx) (c : RIdx) : Statement (.sign d a b c) := of_row 31 rfl (.inl rfl) (fun h => absurd rfl h)
theorem verify (d : PIdx) (a : RIdx) (b : RIdx) (c : RIdx) : Statement (.verify d a b c) := of_row 32 rfl (.inl rfl) (fun _ => rfl)

end Sys2Proof.Laws.OpcodeByte
end

