-- ==== Sys2Proof/Laws/Step.lean ====
section
/-! SUPPORT. Laws of a step and of runs of steps. -/

namespace Sys2Proof.Machine

/-- At the sequencer's turn, a step is that turn, the event consumed. -/
theorem step_sequencer {s : State} (h : s.sequencerNext = true) :
    step s = sequencerTurn { s with events := s.events.tail } := by
  cases he : s.events with
  | nil =>
    have : { s with events := [] } = s := by rw [← he]
    simp [step, he, this]
  | cons e rest => cases e <;> simp_all [step, State.sequencerNext]

theorem step_bus {s : State} {a : Access} {rest : List Event} (h : s.events = .bus a :: rest) :
    step s = .next (busStep { s with events := rest } a) := by
  simp [step, h]

theorem step_reset {s : State} {rest : List Event} (h : s.events = .reset :: rest) :
    step s = .next { State.reset with events := rest } := by
  simp [step, h, State.resetBlock]

/-- Everything a step can be: the sequencer's turn, an access, or `RESET`. -/
theorem step_cases (s : State) :
    (s.sequencerNext = true ∧ step s = sequencerTurn { s with events := s.events.tail }) ∨
    (∃ a rest, s.events = .bus a :: rest ∧ step s = .next (busStep { s with events := rest } a)) ∨
    (∃ rest, s.events = .reset :: rest ∧ step s = .next { State.reset with events := rest }) := by
  cases he : s.events with
  | nil =>
    have h : s.sequencerNext = true := by simp [State.sequencerNext, he]
    exact .inl ⟨h, by rw [step_sequencer h, he]⟩
  | cons e rest =>
    cases e with
    | bus a => exact .inr (.inl ⟨a, rest, rfl, step_bus he⟩)
    | reset => exact .inr (.inr ⟨rest, rfl, step_reset he⟩)
    | sequencer =>
      have h : s.sequencerNext = true := by simp [State.sequencerNext, he]
      exact .inl ⟨h, by rw [step_sequencer h, he]⟩

/-- A busy sequencer's turn runs the word in `CMD`. -/
theorem sequencerTurn_busy {s : State} (h : s.busy = true) : sequencerTurn s = runCommand s := by
  simp [sequencerTurn, h]

theorem sequencerTurn_idle {s : State} (h : s.busy = false) : sequencerTurn s = .next s := by
  simp [sequencerTurn, h]

theorem runCommand_ok {s : State} {i : Instr} (h : decode s.cmd = .ok i) : runCommand s = exec i s := by
  simp [runCommand, h]

theorem runCommand_illegal {s : State} {r : DecodeReject} (h : decode s.cmd = .error r) :
    runCommand s = .next (s.completeError .illegalCommand) := by
  simp [runCommand, h]

/-- The last step of a run. -/
theorem runSteps_succ (k : Nat) : ∀ s : State, runSteps (k + 1) s =
    match runSteps k s with
    | .next t => step t
    | .fault r => .fault r
    | .refused r => .refused r := by
  induction k with
  | zero => intro s; simp only [runSteps]; cases step s <;> rfl
  | succ k ih =>
    intro s
    rw [runSteps]
    conv_rhs => rw [runSteps]
    cases step s with
    | next t => exact ih t
    | fault r => rfl
    | refused r => rfl

end Sys2Proof.Machine
end

