-- ==== Sys2Proof/Tests/Slice0.lean ====
section
/-! SUPPORT. Tests: expected values are the vectors of 95_test_vectors.md and the examples of the section
files, never the model's own answers. After them, a witness for the hypotheses of every statement. -/

set_option Elab.async false

namespace Sys2Proof.Tests

open Sys2Proof Sys2Proof.Machine

/-! ## Helpers -/

/-- The block after reset with another configuration. -/
def blk (c : CurveConfig) : State := { State.reset with cfg := c }

/-- `y² = x³ + 7` modulo 223, the source's small curve (95_test_vectors.md section 1.10); the generator of
section 5.1 has order 7. -/
def c223 : CurveConfig := ⟨223, 7, 0, 7, 15, 86⟩

/-- A composite modulus: `y² = x³ + x` modulo 15 (section 4.2), with the generator `(2, 5)`. -/
def c15 : CurveConfig := ⟨15, 7, 1, 0, 2, 5⟩

def secp : CurveConfig := CurveConfig.secp256k1
def p256 : Nat := 2 ^ 256 - 2 ^ 32 - 977
def n256 : Nat := 0xFFFFFFFFFFFFFFFFFFFFFFFFFFFFFFFEBAAEDCE6AF48A03BBFD25E8CD0364141

def int (v : Nat) : Reg := ⟨BitVec.ofNat 256 v, .int⟩
def fp (v : Nat) : Reg := ⟨BitVec.ofNat 256 v, .fp⟩
def fn (v : Nat) : Reg := ⟨BitVec.ofNat 256 v, .fn⟩
def pp (x y : Nat) : Point := .aff (BitVec.ofNat 256 x) (BitVec.ofNat 256 y)

/-- One command, and a test of the state it leaves. -/
def run (i : Instr) (s : State) (f : State → Bool) : Bool :=
  match exec i s with
  | .next t => f t
  | .fault _ => false
  | .refused _ => false

/-- One step. -/
def stp (s : State) (f : State → Bool) : Bool :=
  match step s with
  | .next t => f t
  | .fault _ => false
  | .refused _ => false

/-- One bus access, and a test of the response. -/
def answers (s : State) (a : Access) (r : Response) : Bool := (busStep s a).response == some r

/-! ## Well-formedness: the one check, and that it refuses -/

theorem test_wf_sign_same_refused : (Instr.sign 1 1 2 3).wf = false := by decide
theorem test_wf_sign_distinct : (Instr.sign 4 5 2 3).wf = true := by decide

/-! ## Decoding: for every constructor a word written out from R90 and R93 (`op d a b c fn`) -/

theorem test_decode_moves :
    decode 0b00000000_0000_0000_0000_0000_00000000 = .ok .nop ∧
    decode 0b00000001_0001_0000_0000_0000_00000000 = .ok (.mov 1 0) ∧
    decode 0b00000010_0001_0000_0000_0000_00000000 = .ok (.fraw 1 0) := by decide

theorem test_decode_reductions :
    decode 0b00010000_0100_0000_0000_0000_00000000 = .ok (.fredP 4 0) ∧
    decode 0b00010000_0100_0000_0000_0000_00000001 = .ok (.fredN 4 0) ∧
    decode 0b00010001_0010_0000_0000_0000_00000000 = .ok (.fnewP 2 0) ∧
    decode 0b00010001_0111_0001_0000_0000_00000001 = .ok (.fnewN 7 1) := by decide

theorem test_decode_field :
    decode 0b00010010_0101_0010_0011_0000_00000000 = .ok (.fadd 5 2 3) ∧
    decode 0x13532000 = .ok (.fsub 5 3 2) ∧ decode 0x14523000 = .ok (.fmul 5 2 3) ∧
    decode 0x15523000 = .ok (.fdiv 5 2 3) ∧ decode 0x16630000 = .ok (.finv 6 3) ∧
    decode 0x17A29000 = .ok (.fpow 10 2 9) ∧ decode 0x17A29002 = .ok (.fpowNeg 10 2 9) ∧
    decode 0x18CB0000 = .ok (.fsqrt 12 11) ∧ decode 0x19080000 = .ok (.fisz 8) ∧
    decode 0x1A062000 = .ok (.feq 6 2) := by decide

theorem test_decode_point :
    decode 0b00100001_0000_0000_0001_0000_00000000 = .ok (.pnew 0 0 1) ∧
    decode 0x20200000 = .ok (.pinf 2) ∧ decode 0x221EF000 = .ok (.pnewi 1 14 15) ∧
    decode 0x23001000 = .ok (.ponc 0 1) ∧ decode 0x24201000 = .ok (.padd 2 0 1) ∧
    decode 0x25200000 = .ok (.pdbl 2 0) ∧ decode 0x26400000 = .ok (.pgetx 4 0) ∧
    decode 0x27500000 = .ok (.pgety 5 0) ∧ decode 0x28023000 = .ok (.peq 2 3) ∧
    decode 0x29020000 = .ok (.pisinf 2) ∧ decode 0x2A300000 = .ok (.pmov 3 0) ∧
    decode 0x2B000000 = .ok (.pgen 0) := by decide

theorem test_decode_scalar_ecdsa :
    decode 0b00110000_0001_0000_0110_0000_00000000 = .ok (.smul 1 0 6) ∧
    decode 0b01000100_0100_0101_0010_0011_00000000 = .ok (.sign 4 5 2 3) ∧
    decode 0x40010000 = .ok (.keygen 1) ∧ decode 0x41000000 = .ok .keyclr ∧
    decode 0x42100000 = .ok (.pubkey 1) ∧ decode 0x43100000 = .ok (.nonce 1) ∧
    decode 0x45145300 = .ok (.verify 1 4 5 3) := by decide

/-- 95_test_vectors.md section 7.1, by name. -/
theorem test_decode_illegal :
    decode 0x03000000 = .error .reservedOpcode ∧ decode 0xFFFFFFFF = .error .reservedOpcode ∧
    decode 0x00100000 = .error .unusedField ∧ decode 0x12123001 = .error .modifierBits ∧
    decode 0x12123100 = .error .unusedField ∧ decode 0x11120002 = .error .modifierBits ∧
    decode 0x20400000 = .error .pointIndex ∧ decode 0x24017000 = .error .pointIndex ∧
    decode 0x26040000 = .error .pointIndex ∧ decode 0x44112300 = .error .signSameDestination := by decide

theorem test_encode :
    encode (.fadd 5 2 3) = 0x12523000 ∧ encode (.fpowNeg 10 2 9) = 0x17A29002 ∧
    encode (.verify 1 4 5 3) = 0x45145300 := by decide

/-- The host's numbering: bit i of the table's word is bit i of the command word. -/
theorem test_decodeTableWord :
    decodeTableWord 32 0x11710001 = some (.fnewN 7 1) ∧ decodeTableWord 32 0x03000000 = none := by decide

/-! ## Moves -/

theorem test_nop : run .nop (blk secp) (fun t => t.statusWord == 2 && t.errcmd == 0) = true := by decide
theorem test_mov_keeps_tag : run (.mov 1 0) ((blk secp).setReg 0 (fn 9)) (fun t => t.reg 1 == fn 9) = true := by
  decide
theorem test_fraw_strips_tag : run (.fraw 1 0) ((blk secp).setReg 0 (fn 9)) (fun t => t.reg 1 == int 9) = true := by
  decide

/-! ## Field unit (95_test_vectors.md sections 3.1 to 3.3) -/

theorem test_fredN : run (.fredN 4 0) ((blk secp).setReg 0 (int (p256 + 5)))
    (fun t => t.reg 4 == int 0x14551231950B75FC4402DA1722FC9BAF3) = true := by decide +kernel
theorem test_fredP_zero_modulus : run (.fredP 2 0) (blk ⟨0, 7, 0, 7, 15, 86⟩)
    (fun t => t.statusWord == 0x906 && t.reg 2 == int 0) = true := by decide +kernel
theorem test_fnewP : run (.fnewP 0 0) ((blk secp).setReg 0 (int (2 ^ 256 - 1)))
    (fun t => t.reg 0 == fp 0x1000003D0) = true := by decide +kernel
theorem test_fnewN : run (.fnewN 0 0) ((blk secp).setReg 0 (int (2 ^ 256 - 1)))
    (fun t => t.reg 0 == fn 0x14551231950B75FC4402DA1732FC9BEBE) = true := by decide +kernel
theorem test_fadd_wraps : run (.fadd 1 0 0) ((blk secp).setReg 0 (fp (p256 - 1)))
    (fun t => t.reg 1 == fp (p256 - 2) && t.statusWord == 2) = true := by decide +kernel
theorem test_fadd_mixed_fields : run (.fadd 5 3 7) (((blk secp).setReg 3 (fp 3)).setReg 7 (fn 3))
    (fun t => t.statusWord == 0x406 && t.reg 5 == int 0) = true := by decide +kernel
theorem test_fsub_wraps : run (.fsub 5 3 2) (((blk secp).setReg 2 (fp 5)).setReg 3 (fp 3))
    (fun t => t.reg 5 == fp (p256 - 2)) = true := by decide +kernel
theorem test_fmul : run (.fmul 1 0 0) ((blk secp).setReg 0 (fp (p256 - 1)))
    (fun t => t.reg 1 == fp 1) = true := by decide +kernel
theorem test_fdiv : run (.fdiv 5 2 3) (((blk secp).setReg 2 (fp 5)).setReg 3 (fp 3))
    (fun t => t.reg 5 == fp 0x55555555555555555555555555555555555555555555555555555554FFFFFEBC) = true := by
  decide +kernel
theorem test_fdiv_composite : run (.fdiv 2 0 1) (((blk c15).setReg 0 (fp 7)).setReg 1 (fp 6))
    (fun t => t.statusWord == 0x206 && t.reg 2 == int 0) = true ∧
    run (.fdiv 2 1 0) (((blk c15).setReg 0 (fp 7)).setReg 1 (fp 6)) (fun t => t.reg 2 == fp 3) = true := by
  decide +kernel
theorem test_finv : run (.finv 6 3) ((blk secp).setReg 3 (fp 3))
    (fun t => t.reg 6 == fp 0xAAAAAAAAAAAAAAAAAAAAAAAAAAAAAAAAAAAAAAAAAAAAAAAAAAAAAAA9FFFFFD75) = true := by
  decide +kernel
theorem test_finv_modulus_one : run (.finv 2 0) ((blk ⟨1, 7, 0, 7, 15, 86⟩).setReg 0 (fp 0))
    (fun t => t.reg 2 == fp 0 && t.statusWord == 2) = true := by decide +kernel
theorem test_fpow : run (.fpow 10 2 9) (((blk secp).setReg 2 (fp 5)).setReg 9 (int 3))
    (fun t => t.reg 10 == fp 125) = true := by decide +kernel
theorem test_fpow_zero_to_zero : run (.fpow 10 8 9) ((blk secp).setReg 8 (fp 0))
    (fun t => t.reg 10 == fp 1) = true := by decide +kernel
theorem test_fpowNeg : run (.fpowNeg 10 2 9) (((blk secp).setReg 2 (fp 5)).setReg 9 (int 1))
    (fun t => t.reg 10 == fp 0x99999999999999999999999999999999999999999999999999999998FFFFFDB6) = true := by
  decide +kernel
theorem test_fpowNeg_223 : run (.fpowNeg 7 1 6) (((blk c223).setReg 1 (fp 105)).setReg 6 (int 3))
    (fun t => t.reg 7 == fp 7) = true ∧
    run (.fpowNeg 7 0 6) (((blk c223).setReg 0 (fp 0)).setReg 6 (int 1)) (fun t => t.statusWord == 0x206) = true := by
  decide +kernel
theorem test_fsqrt : run (.fsqrt 12 2) ((blk secp).setReg 2 (fp 5))
    (fun t => t.reg 12 == fp 0x874CA58A75397C61F5CAE38F7B492BAF3BA82C1996BF29684CAE7C014438D956) = true := by
  decide +kernel
theorem test_fsqrt_bad_modulus : run (.fsqrt 12 7) ((blk secp).setReg 7 (fn 3))
    (fun t => t.statusWord == 0x906) = true := by decide +kernel
theorem test_fisz : run (.fisz 8) (blk secp) (fun t => t.statusWord == 0xA) = true ∧
    run (.fisz 2) ((blk secp).setReg 2 (fp 5)) (fun t => t.statusWord == 2) = true := by decide +kernel
theorem test_feq_needs_tags : run (.feq 3 7) (((blk secp).setReg 3 (fp 3)).setReg 7 (fn 3))
    (fun t => t.statusWord == 2) = true ∧
    run (.feq 3 3) ((blk secp).setReg 3 (fp 3)) (fun t => t.statusWord == 0xA) = true := by decide +kernel

/-! ## Point unit (95_test_vectors.md sections 1.10, 4.1 to 4.3) -/

theorem test_pinf : run (.pinf 2) ((blk c223).setPt 2 (pp 192 105)) (fun t => t.pt 2 == .inf) = true := by
  decide +kernel
theorem test_pnew : run (.pnew 1 2 3) (((blk c223).setReg 2 (fp 192)).setReg 3 (fp 105))
    (fun t => t.pt 1 == pp 192 105 && t.statusWord == 2) = true := by decide +kernel
theorem test_pnew_off_curve : run (.pnew 1 2 3) (((blk c223).setReg 2 (fp 200)).setReg 3 (fp 119))
    (fun t => t.statusWord == 0x106 && t.pt 1 == .inf) = true := by decide +kernel
theorem test_pnewi : run (.pnewi 1 14 15) (((blk c223).setReg 14 (int (17 + 223))).setReg 15 (int 56))
    (fun t => t.pt 1 == pp 17 56) = true := by decide +kernel
theorem test_ponc : run (.ponc 0 1) (((blk c223).setReg 0 (fp 192)).setReg 1 (fp 105))
    (fun t => t.statusWord == 0xA) = true ∧
    run (.ponc 0 1) (((blk c223).setReg 0 (fp 200)).setReg 1 (fp 119)) (fun t => t.statusWord == 2) = true := by
  decide +kernel
theorem test_padd : run (.padd 2 0 1) (((blk c223).setPt 0 (pp 192 105)).setPt 1 (pp 17 56))
    (fun t => t.pt 2 == pp 170 142) = true := by decide +kernel
theorem test_padd_composite : run (.padd 2 0 1) (((blk c15).setPt 0 (pp 0 0)).setPt 1 (pp 3 0))
    (fun t => t.statusWord == 0x206 && t.pt 2 == .inf) = true := by decide +kernel
theorem test_pdbl : run (.pdbl 2 0) ((blk c223).setPt 0 (pp 192 105)) (fun t => t.pt 2 == pp 49 71) = true := by
  decide +kernel
theorem test_pdbl_order_two : run (.pdbl 1 0) ((blk c223).setPt 0 (pp 6 0)) (fun t => t.pt 1 == .inf) = true := by
  decide +kernel
theorem test_pgetx : run (.pgetx 4 0) ((blk c223).setPt 0 (pp 192 105)) (fun t => t.reg 4 == fp 192) = true ∧
    run (.pgetx 4 2) (blk c223) (fun t => t.statusWord == 0x706) = true := by decide +kernel
theorem test_pgety : run (.pgety 5 0) ((blk c223).setPt 0 (pp 192 105)) (fun t => t.reg 5 == fp 105) = true := by
  decide +kernel
theorem test_peq : run (.peq 2 3) (blk c223) (fun t => t.statusWord == 0xA) = true ∧
    run (.peq 2 3) ((blk c223).setPt 2 (pp 0 0)) (fun t => t.statusWord == 2) = true := by decide +kernel
theorem test_pisinf : run (.pisinf 2) (blk c223) (fun t => t.statusWord == 0xA) = true := by decide +kernel
theorem test_pmov : run (.pmov 3 0) ((blk c223).setPt 0 (pp 192 105)) (fun t => t.pt 3 == pp 192 105) = true := by
  decide +kernel
theorem test_pgen : run (.pgen 0) (blk c223) (fun t => t.pt 0 == pp 15 86) = true := by decide +kernel
theorem test_pgen_off_curve : run (.pgen 0) (blk ⟨223, 7, 0, 7, 15, 87⟩) (fun t => t.statusWord == 0x106) = true := by
  decide +kernel

/-! ## Scalar multiplier (95_test_vectors.md section 5) -/

theorem test_smul : run (.smul 1 0 6) (((blk c223).setPt 0 (pp 47 71)).setReg 6 (int 20))
    (fun t => t.pt 1 == pp 47 152) = true := by decide +kernel
theorem test_smul_order : run (.smul 1 0 6) (((blk c223).setPt 0 (pp 47 71)).setReg 6 (int 21))
    (fun t => t.pt 1 == .inf && t.statusWord == 2) = true := by decide +kernel

/-! ## ECDSA engine (95_test_vectors.md sections 6 and 7) -/

/-- The key of section 6.2: secret 3 on the small curve. -/
def keyed (n : Word) : State := { blk ⟨223, n, 0, 7, 15, 86⟩ with key := ⟨true, 3, pp 69 137⟩ }

/-- The secret key 1 on secp256k1 with the message `abc` (section 6.3). -/
def abcState : State :=
  { blk secp with
    key    := ⟨true, 1, .aff secp.genX secp.genY⟩
    mem    := [(0xC00, 0x61), (0xC01, 0x62), (0xC02, 0x63)]
    msgLen := 3 }

theorem test_keygen : run (.keygen 0) ((blk c223).setReg 0 (fn 3))
    (fun t => t.key == ⟨true, 3, pp 69 137⟩ && t.statusWord == 0x12) = true := by decide +kernel
theorem test_keygen_zero : run (.keygen 1) ((keyed 7).setReg 1 (fn 0))
    (fun t => t.statusWord == 0x516 && t.key == (keyed 7).key) = true := by decide +kernel
theorem test_keyclr : run .keyclr (keyed 7) (fun t => t.key == KeySlot.empty && t.statusWord == 2) = true := by
  decide +kernel
theorem test_pubkey : run (.pubkey 0) (keyed 7) (fun t => t.pt 0 == pp 69 137 && t.statusWord == 0x12) = true := by
  decide +kernel
theorem test_pubkey_no_key : run (.pubkey 0) (blk secp) (fun t => t.statusWord == 0x806) = true := by decide +kernel
theorem test_nonce : run (.nonce 1) abcState
    (fun t => t.reg 1 == int 0xB795561B83C62DC87A346B0E7F58D4E499179E3C64243FCC85D9DE473EC1DD91 &&
      t.statusWord == 0x12) = true := by decide +kernel
theorem test_nonce_length_257 : run (.nonce 1) { abcState with msgLen := 257 }
    (fun t => t.statusWord == 0x916 && t.reg 1 == int 0) = true := by decide +kernel
theorem test_sign : run (.sign 4 5 2 3) (((keyed 7).setReg 2 (int 2)).setReg 3 (int 5))
    (fun t => t.reg 4 == fn 6 && t.reg 5 == fn 1 && t.statusWord == 0x12) = true := by decide +kernel
theorem test_sign_at_infinity : run (.sign 4 5 2 3) (((keyed 11).setReg 2 (int 7)).setReg 3 (int 5))
    (fun t => t.statusWord == 0x716 && t.reg 4 == int 0) = true := by decide +kernel
/-- The asymmetry of 90_conflicts.md C6: the block rejects a signature whose `R.x` is not below `n`. -/
theorem test_verify_rejects : run (.verify 0 4 5 3)
    ((((keyed 7).setPt 0 (pp 69 137)).setReg 4 (fn 6)).setReg 5 (fn 1) |>.setReg 3 (int 5))
    (fun t => t.statusWord == 0x12) = true := by decide +kernel
theorem test_verify_tags_first : run (.verify 0 0 1 3) ((blk secp).setReg 0 (fn 1))
    (fun t => t.statusWord == 0x406) = true := by decide +kernel

/-! ## The provider, the datapath, the host-side encodings -/

/-- 44_ecdsa.md R211: `SHA256` of the empty string and of `abc`. -/
theorem test_sha256 :
    sha256 [] = 0xE3B0C44298FC1C149AFBF4C8996FB92427AE41E4649B934CA495991B7852B855 ∧
    sha256 [0x61, 0x62, 0x63] = 0xBA7816BF8F01CFEA414140DE5DAE2223B00361A396177A9CB410FF61F20015AD := by
  decide +kernel

/-- R212: `HMAC_SHA256(0x00×32, 0x01×32)`. -/
theorem test_hmac : hmacSha256 (List.replicate 32 0x00) (List.replicate 32 0x01) =
    0x80A09DE3BFE30DA90116E588ADE2F812D49B55625BE8B4ABBFF775FA5A5A74E9 := by decide +kernel

/-- 41_field.md R162 and 95_test_vectors.md section 3.4. -/
theorem test_montgomery :
    montR2 p256 = 0x1000007A2000E90A1 ∧
    montPrime p256 = 0xC9BD1905155383999C46C2C295F2B761BCB223FEDC24A059D838091DD2253531 ∧
    montR2 223 = 115 ∧ montMul 223 5 7 = 57 := by decide +kernel

/-- 46_host_encodings.md R251, R252, R254, R258 (lengths of R259's second vector), R261. -/
theorem test_sec : secCompressed (pp 192 105) = some ([0x03] ++ List.replicate 31 0x00 ++ [192]) ∧
    secDecode (blk c223) ([0x03] ++ List.replicate 31 0x00 ++ [192]) = .ok (pp 192 105) ∧
    secDecode (blk c223) [0x05] = .error .invalidEncoding := by decide +kernel
theorem test_der :
    (der 0x2B698A0F0A4041B77E63488AD48C23E8E8838DD1FB7520408B121697B782EF22
      0x44EB19FD1061C078D1DA052CD7B994C9D43B916C9F7B4789D46F0A44D087B488).take 5 = [0x30, 0x44, 0x02, 0x20, 0x2B] ∧
    ((derInt 0x8CA63759C1157EBEAEC0D03CECCA119FC9A75BF8E6D0FA65C841C8E2738CDAEC).take 4 =
      [0x02, 0x21, 0x00, 0x8C]) := by decide +kernel
theorem test_base58 : base58 (be32 0x7C076FF316692A3D7EB3C3BB0F8B1488CF72E1AFCD929E29307032997A838A3D) =
    "9MA8fRQrT4u8Zj8ZRd6MAiiyaxb2Y1CMpvVkHQu5hVM6".toList := by decide +kernel

/-! ## The bus and the life of a command (95_test_vectors.md program D; 20_memory.md) -/

theorem test_bus_reads : answers (blk secp) (.read 0x000 4) (.data 0x4D4D5631) = true ∧
    answers (blk secp) (.read 0x100 4) (.data 0xFFFFFC2F) = true ∧
    answers (blk secp) (.read 0x104 4) (.data 0xFFFFFFFE) = true ∧
    answers (blk secp) (.read 0x19C 4) (.data 0x79BE667E) = true ∧
    answers (blk secp) (.read 0x9C0 4) (.data 1) = true := by decide +kernel
theorem test_bus_refused : answers (blk secp) (.read 0x01C 4) .error = true ∧
    answers (blk secp) (.read 0x401 4) .error = true ∧ answers (blk secp) (.read 0x400 8) .error = true ∧
    answers (blk secp) (.read 0x844 4) .error = true ∧ answers (blk secp) (.write 0x014 4 1) .error = true ∧
    answers (blk secp) (.write 0x840 4 1) .error = true := by decide +kernel
theorem test_operand_write_strips_tag :
    ((busStep ((blk secp).setReg 0 (fp 5)) (.write 0x41C 4 0x80000000)).reg 0 == int (2 ^ 255 + 5)) = true := by
  decide +kernel
theorem test_config_write_demotes :
    (busStep ((keyed 7).setReg 0 (fp 5) |>.setPt 1 (pp 192 105)) (.write 0x160 4 7) ==
      { (blk c223).setReg 0 (int 5) with response := some .okay }) = true := by decide +kernel
theorem test_msg_little_endian : (busStep (blk secp) (.write 0xC00 4 0x00636261)).mem =
    [(0xC00, 0x61), (0xC01, 0x62), (0xC02, 0x63)] := by decide +kernel
theorem test_rtag : answers (((blk secp).setReg 0 (fp 5)).setReg 1 (fn 3)) (.read 0x018 4) (.data 9) = true := by
  decide +kernel
theorem test_msgLen_nine_bits :
    answers (busStep (blk secp) (.write 0x010 4 0x3FF)) (.read 0x010 4) (.data 0x1FF) = true := by decide +kernel
theorem test_ie_and_srst : (busStep (blk secp) (.write 0x00C 4 1)).ie = true ∧
    busStep ((keyed 7).setReg 0 (fp 5)) (.write 0x00C 4 3) = { State.reset with response := some .okay } := by
  decide +kernel
theorem test_busy_rule :
    answers ((blk secp).accept 0) (.read 0x400 4) .error = true ∧
    answers ((blk secp).accept 0) (.write 0x004 4 0) .error = true ∧
    answers ((blk secp).accept 0) (.read 0x008 4) (.data 1) = true := by decide +kernel
theorem test_acceptance :
    stp { blk secp with events := [.bus (.write 0x004 4 0x12201000)], done := true, t := true }
      (fun t => t.cmd == 0x12201000 && t.statusWord == 1 && t.response == some .okay) = true := by decide +kernel
theorem test_illegal_word : stp ((blk secp).accept 0x12123001)
    (fun t => t.statusWord == 0x606 && t.errcmd == 0x12123001) = true := by decide +kernel
theorem test_step_runs_word : stp (((blk secp).setReg 0 (int 5)).withFetchWord 32 0x11200000)
    (fun t => t.reg 2 == fp 5 && t.statusWord == 2) = true := by decide +kernel
theorem test_reset_event : stp { keyed 7 with events := [.reset] } (fun t => t == State.reset) = true := by
  decide +kernel

/-! ## Witnesses: concrete states and operands that meet the hypotheses of each statement, clause by clause -/

/-- The least configuration: both moduli 1. -/
def cOne : CurveConfig := ⟨1, 1, 0, 0, 0, 0⟩
/-- No modulus at all. -/
def cZero : CurveConfig := ⟨0, 0, 0, 0, 0, 0⟩

theorem witness_NopCompletes : bitsOf (0x00100000 : HWord).toNat 31 24 = 0x00 ∧ (0x00100000 : HWord) ≠ 0 := by
  decide
theorem witness_FredReduces : (blk cZero).p = 0 ∧ (blk cOne).p ≠ 0 ∧ (blk cZero).n = 0 ∧ (blk cOne).n ≠ 0 := by
  decide
theorem witness_FnewConstructs : (blk cZero).p = 0 ∧ (blk cOne).p ≠ 0 ∧ (blk cZero).n = 0 ∧ (blk cOne).n ≠ 0 := by
  decide

/-- An element of each field modulo 1, and registers of three tags. -/
def elems : State := ((blk cOne).setReg 1 (fp 0)).setReg 2 (fn 0)

theorem witness_binary_mismatch : elems.tag 0 = .int ∧ elems.tag 1 ≠ elems.tag 2 := by decide
theorem witness_FaddAdds : (elems.tag 1 = FieldSel.p.tag ∧ 0 < elems.modOf .p) ∧
    elems.tag 2 = FieldSel.n.tag ∧ 0 < elems.modOf .n := by decide
theorem witness_FsubSubtracts : (elems.tag 1 = FieldSel.p.tag ∧ 0 < elems.modOf .p) ∧
    elems.tag 2 = FieldSel.n.tag ∧ 0 < elems.modOf .n := by decide
theorem witness_FmulMultiplies : (elems.tag 1 = FieldSel.p.tag ∧ 0 < elems.modOf .p) ∧
    elems.tag 2 = FieldSel.n.tag ∧ 0 < elems.modOf .n := by decide

/-- 7, 6, 0 modulo 15, and the exponents 0 and 1. -/
def quotients : State :=
  ((((blk c15).setReg 0 (fp 7)).setReg 1 (fp 6)).setReg 2 (fp 0)).setReg 3 (int 1)

theorem witness_FdivDivides :
    (quotients.tag 0 = FieldSel.p.tag ∧ quotients.tag 1 = FieldSel.p.tag ∧ 0 < quotients.modOf .p) ∧
    Nat.gcd (quotients.val 1) (quotients.modOf .p) ≠ 1 ∧ Nat.gcd (quotients.val 0) (quotients.modOf .p) = 1 ∧
    Nat.gcd (elems.val 1) (elems.modOf .p) = 1 := by decide +kernel
theorem witness_FinvInverts : quotients.tag 4 = .int ∧ (quotients.tag 1 = FieldSel.p.tag ∧ 0 < quotients.modOf .p) ∧
    Nat.gcd (quotients.val 1) (quotients.modOf .p) ≠ 1 ∧ Nat.gcd (quotients.val 0) (quotients.modOf .p) = 1 ∧
    Nat.gcd (elems.val 1) (elems.modOf .p) = 1 := by decide +kernel
theorem witness_FpowRaises : quotients.tag 4 = .int ∧ (quotients.tag 0 = FieldSel.p.tag ∧ 0 < quotients.modOf .p) ∧
    elems.modOf .p = 1 ∧ (quotients.modOf .p ≠ 1 ∧ quotients.val 4 = 0) ∧
    (quotients.val 3 ≠ 0 ∧ Nat.gcd (quotients.val 1) (quotients.modOf .p) ≠ 1) ∧
    Nat.gcd (quotients.val 0) (quotients.modOf .p) = 1 := by decide +kernel
theorem witness_FsqrtExponent : quotients.tag 4 = .int ∧ elems.tag 1 = FieldSel.p.tag ∧ elems.modOf .p % 4 ≠ 3 ∧
    quotients.tag 2 = FieldSel.p.tag ∧ quotients.modOf .p % 4 = 3 := by decide +kernel

/-- 1, a residue, and 2, a non-residue, modulo 3. -/
def roots : State := ((blk ⟨3, 3, 0, 0, 0, 0⟩).setReg 0 (fp 1)).setReg 1 (fp 2)

theorem witness_FsqrtRoots : (roots.modOf .p).Prime ∧ roots.modOf .p % 4 = 3 ∧
    (roots.tag 0 = FieldSel.p.tag ∧ roots.val 0 < roots.modOf .p ∧ ∃ y, y * y % roots.modOf .p = roots.val 0) ∧
    (roots.tag 1 = FieldSel.p.tag ∧ roots.val 1 < roots.modOf .p ∧ ¬ ∃ y, y * y % roots.modOf .p = roots.val 1) := by
  have hm : roots.modOf .p = 3 := by decide
  have h0 : roots.val 0 = 1 := by decide
  have h1 : roots.val 1 = 2 := by decide
  rw [hm, h0, h1]
  refine ⟨by norm_num, rfl, ⟨by decide, by decide, 1, rfl⟩, by decide, by decide, ?_⟩
  rintro ⟨y, hy⟩
  rw [Nat.mul_mod] at hy
  have : y % 3 < 3 := Nat.mod_lt _ (by decide)
  interval_cases y % 3 <;> simp at hy

/-- A point of the small curve in `R0`, `R1`, and coordinates off it in `R2`, `R3`. -/
def coords : State :=
  ((((blk c223).setReg 0 (fp 192)).setReg 1 (fp 105)).setReg 2 (fp 200)).setReg 3 (fp 119)

theorem witness_PnewValidates : (coords.tag 4 ≠ .fp) ∧
    (coords.tag 2 = .fp ∧ coords.tag 3 = .fp ∧ 0 < coords.p ∧ ¬ CurveEq coords (coords.val 2) (coords.val 3)) ∧
    coords.tag 0 = .fp ∧ coords.tag 1 = .fp ∧ CurveEq coords (coords.val 0) (coords.val 1) := by
  unfold CurveEq; decide +kernel
theorem witness_PnewiValidates : (blk cZero).p = 0 ∧ coords.p ≠ 0 ∧
    ¬ CurveEq coords (coords.val 2 % coords.p) (coords.val 3 % coords.p) ∧
    CurveEq coords (coords.val 0 % coords.p) (coords.val 1 % coords.p) := by
  unfold CurveEq; decide +kernel
theorem witness_PoncTests : coords.tag 4 ≠ .fp ∧ coords.tag 2 = .fp ∧ coords.tag 3 = .fp ∧ 0 < coords.p := by
  decide +kernel

theorem prime_223 : (blk c223).p.Prime := by
  have : (blk c223).p = 223 := by decide
  rw [this]; norm_num

theorem witness_GroupLaw : 0 < (blk cOne).p ∧ 0 < (blk c15).p ∧
    ((5 : Word) ≠ 0 ∧ Nat.gcd (2 * (5 : Word).toNat % (blk c15).p) (blk c15).p ≠ 1) ∧
    Nat.gcd (2 * (1 : Word).toNat % (blk c15).p) (blk c15).p = 1 ∧
    ((0 : Word) ≠ 3 ∧ Int.gcd (((3 : Word).toNat : ℤ) - (0 : Word).toNat) (blk c15).p ≠ 1) ∧
    ((0 : Word) ≠ 1 ∧ Int.gcd (((1 : Word).toNat : ℤ) - (0 : Word).toNat) (blk c15).p = 1) ∧
    (blk ⟨2, 1, 0, 0, 0, 0⟩).p = 2 := by decide +kernel
theorem witness_GroupLaw_prime : (blk c223).p.Prime ∧ (blk c223).p ≠ 2 ∧ PointOk (blk c223) (pp 222 222) :=
  ⟨prime_223, by decide, by decide +kernel, by decide +kernel⟩

/-- Two points whose sum needs a division, on the small curve and modulo 15. -/
def twoPoints (c : CurveConfig) (p q : Point) : State := ((blk c).setPt 0 p).setPt 1 q

theorem witness_PaddAndPdbl :
    (twoPoints c223 (pp 192 105) (pp 17 56)).padd (pp 192 105) (pp 17 56) = .ok (pp 170 142) ∧
    (twoPoints c15 (pp 0 0) (pp 3 0)).padd (pp 0 0) (pp 3 0) = .error .divisionByZero ∧
    (twoPoints c223 (pp 192 105) (pp 17 56)).padd (pp 192 105) (pp 192 105) = .ok (pp 49 71) ∧
    (twoPoints c15 (pp 2 5) (pp 3 0)).padd (pp 2 5) (pp 2 5) = .error .divisionByZero := by decide +kernel
theorem witness_PaddAndPdbl_prime : let s := twoPoints c223 (pp 192 105) (pp 17 56)
    s.p.Prime ∧ s.p ≠ 2 ∧ PointOk s (s.pt 0) ∧ PointOk s (s.pt 1) :=
  ⟨prime_223, by decide, ⟨by decide +kernel, by decide +kernel⟩, ⟨by decide +kernel, by decide +kernel⟩⟩
theorem witness_CoordinateReads : (twoPoints c223 .inf (pp 17 56)).pt 0 = .inf ∧
    (twoPoints c223 .inf (pp 17 56)).pt 1 = .aff 17 56 := by decide +kernel
theorem witness_GeneratorValidated : (blk cZero).p = 0 ∧
    (let s := blk ⟨223, 7, 0, 7, 15, 87⟩; s.p ≠ 0 ∧ ¬ CurveEq s (s.cfg.genX.toNat % s.p) (s.cfg.genY.toNat % s.p)) ∧
    (let s := blk c223; s.p ≠ 0 ∧ CurveEq s (s.cfg.genX.toNat % s.p) (s.cfg.genY.toNat % s.p)) ∧
    (blk secp).cfg = CurveConfig.secp256k1 := by unfold CurveEq; decide +kernel

theorem witness_SmulSchedule : (2 ^ 256 - 1 < 2 ^ 256) ∧ (256 ≤ 256) ∧ (1 ≠ 0) ∧
    (blk c15).smul 2 (pp 2 5) = .error .divisionByZero := by decide +kernel
theorem witness_SmulMultiplies :
    (let s := (twoPoints c223 (pp 47 71) .inf).setReg 6 (int 20); s.smul (s.val 6) (s.pt 0) = .ok (pp 47 152)) ∧
    (let s := (twoPoints c15 (pp 2 5) .inf).setReg 6 (int 2); s.smul (s.val 6) (s.pt 0) = .error .divisionByZero) := by
  decide +kernel
theorem witness_SmulMultiplies_prime : let s := twoPoints c223 (pp 47 71) .inf
    s.p.Prime ∧ s.p ≠ 2 ∧ PointOk s (s.pt 0) :=
  ⟨prime_223, by decide, by decide +kernel, by decide +kernel⟩

theorem witness_KeygenMakesKey : (blk c223).tag 0 ≠ .fn ∧
    (let s := (blk c223).setReg 0 (fn 0); s.tag 0 = .fn ∧ s.val 0 = 0) ∧
    (let s := (blk ⟨0, 7, 0, 7, 15, 86⟩).setReg 0 (fn 1); s.tag 0 = .fn ∧ s.val 0 ≠ 0 ∧ s.gen = .error .badConfig) ∧
    (let s := (blk c15).setReg 0 (fn 2)
     s.tag 0 = .fn ∧ s.val 0 ≠ 0 ∧ s.gen = .ok (pp 2 5) ∧ s.smul (s.val 0) (pp 2 5) = .error .divisionByZero) ∧
    (let s := (blk c223).setReg 0 (fn 3)
     s.tag 0 = .fn ∧ s.val 0 ≠ 0 ∧ s.gen = .ok (pp 15 86) ∧ s.smul (s.val 0) (pp 15 86) = .ok (pp 69 137)) := by
  decide +kernel
theorem witness_KeygenMakesKey_prime : let s := (blk c223).setReg 0 (fn 6)
    s.tag 0 = .fn ∧ s.val 0 ≠ 0 ∧ s.p.Prime ∧ s.p ≠ 2 ∧
      CurveEq s (s.cfg.genX.toNat % s.p) (s.cfg.genY.toNat % s.p) :=
  ⟨by decide, by decide, prime_223, by decide, by unfold CurveEq; decide +kernel⟩
theorem witness_KeyclrAndPubkey : (blk c223).key.valid = false ∧ (keyed 7).key.valid = true := by decide

/-- `NONCE d` running, before its first turn. -/
def searching (s : State) : State := { s with busy := true, cmd := 0x43100000 }

theorem witness_NonceFirstIteration : (blk secp).key.valid = false ∧ abcState.nPhase = .check ∧
    (abcState.key.valid = true ∧ 256 < ({ abcState with msgLen := 257 } : State).msgLen.toNat) ∧
    ({ abcState with msgLen := 256 } : State).msgLen.toNat ≤ 256 := by decide
theorem goodCandidate_abc : abcState.goodCandidate 0 := by unfold State.goodCandidate; decide +kernel

/-- No integer lies strictly between 0 and 1. -/
theorem no_candidate_modulus_one {s : State} (h : s.n = 1) (i : ℕ) : ¬ s.goodCandidate i := by
  rintro ⟨h1, h2⟩
  omega

theorem witness_NonceFirstIteration_miss : (keyed 1).key.valid = true ∧ (keyed 1).msgLen.toNat ≤ 256 ∧
    ¬ (keyed 1).goodCandidate 0 := ⟨rfl, by decide, no_candidate_modulus_one (by decide) 0⟩
theorem witness_NonceCompletesAtFirstHit : let s := searching abcState
    s.busy = true ∧ s.events = [] ∧ decode s.cmd = .ok (.nonce 1) ∧ s.nPhase = .check ∧ s.key.valid = true ∧
      s.msgLen.toNat ≤ 256 ∧ (∀ j, j < 0 → ¬ s.goodCandidate j) ∧ s.goodCandidate 0 :=
  ⟨rfl, rfl, by decide, rfl, rfl, by decide, by simp, goodCandidate_abc⟩
theorem witness_NonceWithoutHitStaysBusy : let s := searching (keyed 1)
    s.busy = true ∧ s.events = [] ∧ decode s.cmd = .ok (.nonce 1) ∧ s.nPhase = .check ∧ s.key.valid = true ∧
      s.msgLen.toNat ≤ 256 ∧ ∀ j, ¬ s.goodCandidate j :=
  ⟨rfl, rfl, by decide, rfl, rfl, by decide, no_candidate_modulus_one (by decide)⟩

/-- A signing state on the small curve: nonce in `R2`, hash in `R3`. -/
def signing (s : State) (k : Nat) : State := (s.setReg 2 (int k)).setReg 3 (int 5)

/-- A key over the composite modulus. -/
def keyed15 : State := { blk c15 with key := ⟨true, 1, pp 2 5⟩ }

theorem witness_SignSigns : ((4 : RIdx) ≠ 5) ∧ (blk c223).key.valid = false ∧
    (let s := signing (keyed 7) 7
     s.key.valid = true ∧ 2 ≤ s.n ∧ s.gen = .ok (pp 15 86) ∧ s.val 2 % s.n = 0) ∧
    (let s := signing keyed15 2
     s.key.valid = true ∧ 2 ≤ s.n ∧ s.gen = .ok (pp 2 5) ∧ s.val 2 % s.n ≠ 0 ∧
       s.smul (s.val 2 % s.n) (pp 2 5) = .error .divisionByZero) ∧
    (let s := signing (keyed 11) 7
     s.gen = .ok (pp 15 86) ∧ s.val 2 % s.n ≠ 0 ∧ s.smul (s.val 2 % s.n) (pp 15 86) = .ok .inf) ∧
    (let s := signing (keyed 14) 2
     s.gen = .ok (pp 15 86) ∧ s.val 2 % s.n ≠ 0 ∧ s.smul (s.val 2 % s.n) (pp 15 86) = .ok (pp 139 86) ∧
       Nat.gcd (s.val 2 % s.n) s.n ≠ 1) ∧
    (let s := signing (keyed 7) 9
     s.gen = .ok (pp 15 86) ∧ s.val 2 % s.n ≠ 0 ∧ s.smul (s.val 2 % s.n) (pp 15 86) = .ok (pp 139 86) ∧
       Nat.gcd (s.val 2 % s.n) s.n = 1) := by decide +kernel

/-- A signature `(r, s)` to judge: `r` in `R4`, `s` in `R5`, the hash in `R3`, the public key in `P0`. -/
def judging (c : CurveConfig) (q : Point) (r s z : Nat) : State :=
  ((((blk c).setPt 0 q).setReg 4 (fn r)).setReg 5 (fn s)).setReg 3 (int z)

theorem witness_VerifyJudges : (blk c223).tag 4 ≠ .fn ∧
    (let s := judging ⟨0, 7, 0, 7, 15, 86⟩ .inf 1 1 1; s.tag 4 = .fn ∧ s.tag 5 = .fn ∧ s.gen = .error .badConfig) ∧
    (let s := judging c223 (pp 69 137) 6 0 5; 0 < s.n ∧ s.gen = .ok (pp 15 86) ∧ Nat.gcd (s.val 5) s.n ≠ 1) ∧
    (let s := judging c223 (pp 69 137) 6 1 5
     s.gen = .ok (pp 15 86) ∧ (1 < s.n ∧ s.val 5 * 1 % s.n = 1 % s.n) ∧
       s.smul (s.val 3 % s.n * 1 % s.n) (pp 15 86) = .ok (pp 139 137) ∧
       s.smul (s.val 4 * 1 % s.n) (pp 69 137) = .ok (pp 69 86) ∧
       s.padd (pp 139 137) (pp 69 86) = .ok (pp 139 86)) := by decide +kernel
/-- The three places a division can fail inside `VERIFY`. -/
theorem witness_VerifyJudges_errors :
    (let s := judging c15 (pp 5 5) 1 1 2
     s.gen = .ok (pp 2 5) ∧ (1 < s.n ∧ s.val 5 * 1 % s.n = 1 % s.n) ∧
       s.smul (s.val 3 % s.n * 1 % s.n) (pp 2 5) = .error .divisionByZero) ∧
    (let s := judging c15 (pp 5 5) 2 1 1
     s.gen = .ok (pp 2 5) ∧ s.smul (s.val 4 * 1 % s.n) (s.pt 0) = .error .divisionByZero) ∧
    (let s := judging c15 (pp 5 5) 1 1 1
     s.gen = .ok (pp 2 5) ∧ s.smul (s.val 3 % s.n * 1 % s.n) (pp 2 5) = .ok (pp 2 5) ∧
       s.smul (s.val 4 * 1 % s.n) (s.pt 0) = .ok (pp 5 5) ∧
       s.padd (pp 2 5) (pp 5 5) = .error .divisionByZero) := by decide +kernel

theorem not_legal_ones : ¬ LegalWord 0xFFFFFFFF := by
  have h : ∀ r ∈ opcodeMap, bitsOf (0xFFFFFFFF : HWord).toNat 31 24 ≠ r.op := by decide
  rintro ⟨r, hr, ho, -⟩
  exact h r hr ho

/-- The word `w` about to be accepted, and accepted. -/
def offered (s : State) (w : HWord) : State := { s with events := [.bus (.write 0x004 4 w)] }

theorem witness_IllegalWordCompletes : ¬ LegalWord 0xFFFFFFFF ∧
    (let s := offered (blk secp) 0xFFFFFFFF; s.busy = false ∧ s.events = .bus (.write 0x004 4 0xFFFFFFFF) :: []) ∧
    (let s := (blk secp).accept 0xFFFFFFFF; s.busy = true ∧ s.sequencerNext = true ∧ s.cmd = 0xFFFFFFFF ∧
      s.t = false ∧ s.key.valid = false) := ⟨not_legal_ones, by decide, by decide⟩
theorem witness_StepRunsDecodedCommand :
    (let s := (blk secp).accept 0x12523000
     s.busy = true ∧ s.sequencerNext = true ∧ decode s.cmd = .ok (.fadd 5 2 3)) ∧
    decodeTableWord 32 0x45145300 = some (.verify 1 4 5 3) := by decide
theorem witness_DecodeEncode : (Instr.sign 15 14 15 15).wf = true := by decide
theorem witness_EncodeDecode : decode 0x45FF0000 = .error .pointIndex ∧ decode 0x453FFF00 = .ok (.verify 3 15 15 15) := by
  decide
theorem witness_LegalWordsDecode : ∃ w, LegalWord w := by
  refine ⟨0x17A29002, ⟨0x17, .reg, .reg, .reg, .unused, 2⟩, ?_⟩
  unfold Role.ok
  decide

/-- The small block with element and point registers filled, a command accepted, and an event ahead. -/
def live (w : HWord) (es : List Event) : State := { (coords.setPt 0 (pp 192 105)).accept w with events := es }

theorem pp_live : (pp 192 105 = .aff 192 105) ∧ (192 : Word).toNat < coords.p ∧ (105 : Word).toNat < coords.p ∧
    onCurve coords.p coords.a coords.b (192 : Word).toNat (105 : Word).toNat = true := by decide +kernel

/-- The point registers of `live`. -/
theorem pts_live (w : HWord) (es : List Event) (j : PIdx) :
    (live w es).pt j = .inf ∨ (live w es).pt j = .aff 192 105 := by
  have h : ∀ j, (coords.setPt 0 (pp 192 105)).pt j = .inf ∨ (coords.setPt 0 (pp 192 105)).pt j = .aff 192 105 := by
    decide +kernel
  exact h j

/-- The operand registers of `live`. -/
theorem regs_live (w : HWord) (es : List Event) (i : RIdx) :
    (live w es).tag i = .int ∨ (live w es).tag i = .fp ∧ (live w es).val i < coords.p := by
  have h : ∀ i, (coords.setPt 0 (pp 192 105)).tag i = .int ∨
      (coords.setPt 0 (pp 192 105)).tag i = .fp ∧ (coords.setPt 0 (pp 192 105)).val i < coords.p := by
    decide +kernel
  exact h i

theorem inv_live (w : HWord) (es : List Event) : Inv (live w es) where
  regs := by
    intro i f hf
    change (live w es).tag i = f.tag at hf
    rcases regs_live w es i with h | ⟨h, hv⟩ <;> rw [h] at hf <;> cases f <;> simp [FieldSel.tag] at hf
    exact hv
  pts := by
    intro j
    rcases pts_live w es j with h | h <;> rw [h]
    · trivial
    · exact ⟨pp_live.2.1, pp_live.2.2.1⟩
  key := ⟨fun _ => rfl, nofun⟩
  status := ⟨fun _ => ⟨rfl, rfl, rfl, rfl⟩, ⟨nofun, fun h => absurd rfl h⟩, show (0 : BitVec 4) ≠ 3 by decide,
    show (0 : BitVec 4).toNat ≤ 9 by decide⟩
  mem := ⟨rfl, rfl⟩
  nonce := .inl rfl

theorem pointsOnCurve_live (w : HWord) (es : List Event) : PointsOnCurve (live w es) := by
  refine ⟨fun j => ?_, trivial⟩
  rcases pts_live w es j with h | h <;> rw [h]
  · trivial
  · exact pp_live.2

theorem witness_InvariantKept : Inv (live 0x25100000 []) ∧ stp (live 0x25100000 []) (fun t => t.pt 1 == pp 49 71) = true :=
  ⟨inv_live _ _, by decide +kernel⟩
theorem witness_CommandsEndWhole : isNonce (.padd 0 1 2) = false := rfl
theorem witness_ExecutionInterval : let s := live 0x25100000 [.bus (.write 0x00C 4 1)]
    Inv s ∧ s.busy = true ∧ stp s (fun t => t.busy && t.ie) = true := ⟨inv_live _ _, rfl, by decide +kernel⟩
theorem witness_Acceptance : let s := offered (blk secp) 0x12523000
    (s.busy = false ∧ s.events = .bus (.write 0x004 4 0x12523000) :: []) ∧
      ({ s with busy := true } : State).busy = true ∧
      (busStep { s with busy := true } (.write 0x00C 4 1)).busy = true := by decide
theorem witness_BusyRule : (live 0 []).busy = true ∧
    ¬ (4 = 4 ∧ (0x018 : Offset).toNat % 4 = 0 ∧ (0x018 : Offset).toNat ≤ 0x014) ∧
    (1 : HWord).getLsbD 1 = false ∧ (2 : HWord).getLsbD 1 = true ∧ ¬ (4 = 4 ∧ (0x008 : Offset) = 0x00C) := by decide
theorem witness_IdleReads : coords.busy = false ∧ coords.pt 3 = .inf ∧
    (coords.setPt 3 (pp 192 105)).pt 3 = .aff 192 105 := by decide +kernel
theorem witness_RefusedAccesses : ¬ Mapped (0x01C : Offset).toNat ∧ ReadOnly (0x840 : Offset).toNat ∧ 8 ≠ 4 ∧
    coords.busy = false ∧ Mapped (0xCFC : Offset).toNat ∧ ¬ ReadOnly (0xCFC : Offset).toNat := by decide
theorem witness_OperandWrites : coords.busy = false ∧ ((4 : RIdx) ≠ 0) ∧ ((6 : Fin 8) ≠ 7) := by decide
theorem witness_ConfigWritesDemote : (keyed 7).busy = false ∧ (CfgReg.modN ≠ .modP) ∧ ((6 : Fin 8) ≠ 7) := by decide
theorem witness_MsgWrites : abcState.busy = false ∧ MemOk abcState ∧
    ¬ (0xC00 + 4 * (63 : Fin 64).val ≤ 0xCFB ∧ 0xCFB < 0xC00 + 4 * (63 : Fin 64).val + 4) :=
  ⟨rfl, ⟨by decide, by decide⟩, by decide⟩
theorem witness_ControlWrites : coords.busy = false ∧ (2 : HWord).getLsbD 1 = true ∧ (1 : HWord).getLsbD 1 = false := by
  decide
theorem witness_ResetValues : (live 0 [.reset]).events = .reset :: [] ∧
    (live 0 [.bus (.write 0x00C 4 2)]).events = .bus (.write 0x00C 4 2) :: [] ∧ (2 : HWord).getLsbD 1 = true ∧
    (live 0 []).busy = true ∧ (busStep (live 0 []) (.write 0x00C 4 2)).busy = false := by decide
theorem witness_PredicateFlag : isPredicate (.fadd 5 2 3) = false ∧
    (run (.fadd 5 2 3) (blk secp) (fun t => t.err) = true ∧ (blk secp).err = false) ∧
    (Inv (live 0x19040000 []) ∧ stp (live 0x19040000 []) (fun t => t.t) = true) :=
  ⟨rfl, ⟨by decide +kernel, rfl⟩, inv_live _ _, by decide +kernel⟩
theorem witness_KeyLifetime :
    stp { (keyed 7).accept 0x41000000 with events := [] } (fun t => t.key == KeySlot.empty) = true ∧
    stp (((blk c223).setReg 0 (fn 3)).accept 0x40000000) (fun t => t.key == ⟨true, 3, pp 69 137⟩) = true := by
  decide +kernel
theorem witness_SecretUnread : let s := keyed 7
    let s' : State := { s with key := { s.key with secret := 4 } }
    SameButSecret s s' ∧ s ≠ s' ∧ isNonce .keyclr = false ∧ (∀ d a b c, Instr.keyclr ≠ .sign d a b c) ∧
      run .keyclr s (fun t => t.done) = true :=
  ⟨rfl, by decide +kernel, rfl, fun _ _ _ _ => nofun, by decide +kernel⟩
theorem witness_HiddenUnobservable : let s := searching abcState
    let s' : State := { s with nonce := ⟨1, 2, 3, 4⟩ }
    SameButHidden s s' ∧ s ≠ s' ∧ stp s (fun t => t.done) = true :=
  ⟨⟨rfl, fun h => by cases h⟩, by decide +kernel, by decide +kernel⟩
theorem witness_MontgomeryRefines : (223 % 2 = 1 ∧ 223 < 2 ^ 256 ∧ 222 < 223) ∧ (1 % 2 = 1 ∧ 0 < 1) ∧
    (0 < 2 ^ 256 - 2 ∧ 2 ^ 256 - 2 < 2 ^ 256 ∧ (2 ^ 256 - 2) % 2 = 0) := by decide
theorem witness_GroupLawKeepsCurve : let s := blk c223
    s.p.Prime ∧ OnCurve s.p s.a s.b (pp 192 105) ∧ OnCurve s.p s.a s.b (pp 17 56) ∧
      s.padd (pp 192 105) (pp 17 56) = .ok (pp 170 142) :=
  ⟨prime_223, ⟨by decide +kernel, by decide +kernel, by decide +kernel⟩,
    ⟨by decide +kernel, by decide +kernel, by decide +kernel⟩, by decide +kernel⟩
theorem witness_PointsStayOnCurve : let s := live 0x25100000 []
    Inv s ∧ s.p.Prime ∧ PointsOnCurve s ∧ stp s (fun t => t.pt 1 == pp 49 71) = true :=
  ⟨inv_live _ _, prime_223, pointsOnCurve_live _ _, by decide +kernel⟩
theorem witness_SecRoundTrip : let s := blk c223
    s.p.Prime ∧ s.p % 4 = 3 ∧ OnCurve s.p s.a s.b (pp 192 105) ∧
      secUncompressed (pp 192 105) = some ([0x04] ++ be32 192 ++ be32 105) ∧
      secCompressed (pp 192 105) = some ([0x03] ++ be32 192) :=
  ⟨prime_223, by decide, ⟨by decide +kernel, by decide +kernel, by decide +kernel⟩, by decide +kernel,
    by decide +kernel⟩

end Sys2Proof.Tests
end

section
/-! PROOFS. Reset values (10_state.md R49, 70_reset_and_hazards.md R310, R311): the table is read once off the
reset state, and each way to reset leads to that state, whatever is pending or answered. -/

namespace Sys2Proof.Machine

/-- R49's table speaks neither of what is pending nor of what was answered (log 1, log 2). -/
theorem atReset_reset_with (es : List Event) (r : Option Response) :
    AtReset { State.reset with events := es, response := r } where
  regs i := ⟨congrArg Reg.val (State.reg_reset i), congrArg Reg.tag (State.reg_reset i)⟩
  pts j := State.pt_reset j
  key := ⟨rfl, rfl, rfl⟩
  msg _ _ := rfl
  msgLen := rfl
  modP := rfl
  modN := rfl
  curveA := rfl
  curveB := rfl
  genX := rfl
  genY := rfl
  cmd := rfl
  status := ⟨rfl, rfl, rfl, rfl, rfl, rfl⟩
  ie := rfl
  errcmd := rfl
  irq := rfl

theorem locAt_ctrl : locAt 0x00C = some .ctrl := rfl

theorem Loc.writableBusy_iff {l : Loc} : l.writableBusy = true ↔ l = .ctrl := by
  simp [Loc.writableBusy]

/-- A soft reset (R311), accepted whether or not a command runs. -/
theorem busStep_srst (s : State) {v : HWord} (hv : v.getLsbD 1 = true) :
    busStep s (.write 0x00C 4 v) = s.resetBlock.respond .okay := by
  rw [busStep_write locAt_ctrl rfl (.inr rfl), writeLoc_ctrl_srst hv]

theorem atReset_busStep_srst (s : State) {v : HWord} (hv : v.getLsbD 1 = true) :
    AtReset (busStep s (.write 0x00C 4 v)) := by
  rw [busStep_srst s hv]
  exact atReset_reset_with s.events (some .okay)

/-- Under the busy rule (20_memory.md R70) the host reaches a running command through `CTRL` alone, and a `CTRL`
write that is no soft reset sets `IE` only. -/
theorem srst_of_busStep_ends_command {s : State} {a : Access} (hbusy : s.busy = true)
    (hidle : (busStep s a).busy = false) : ∃ v, a = .write 0x00C 4 v ∧ v.getLsbD 1 = true := by
  obtain hr | ⟨off, l, -, -, -, hr⟩ | ⟨off, l, v, ha, hl, -, hb, hr⟩ := busStep_cases s a
  · simp [hr, hbusy] at hidle
  · simp [hr, hbusy] at hidle
  · have hwb : l.writableBusy = true := hb.resolve_left (by simp [hbusy])
    have hoff : off = 0x00C := (locAt_bits hl).2.2.1 hwb
    subst hoff
    refine ⟨v, ha, ?_⟩
    by_contra hv
    rw [hr, Loc.writableBusy_iff.1 hwb, writeLoc_ctrl_ie (by simpa using hv)] at hidle
    simp [hbusy] at hidle

/-- Settles O51: power-on, `RESET` and a soft reset lead to the reset state itself; the busy rule leaves no other
access an effect on `BUSY`. -/
theorem resetValues : Obligations.ResetValues := by
  refine ⟨atReset_reset_with [] none, fun s rest he => ?_, fun s v rest he hv => ?_,
    fun s a => srst_of_busStep_ends_command⟩
  · exact ⟨_, step_reset he, atReset_reset_with rest none⟩
  · exact ⟨_, step_bus he, atReset_busStep_srst _ hv, by rw [busStep_srst _ hv]; rfl⟩

end Sys2Proof.Machine
end

section
/-! PROOFS. The register window (20_memory.md R61 to R71): which accesses are refused, said once for reads and
once for writes; then what an accepted write changes, a word of a register, of the configuration or of `MSG` at a
time. -/

namespace Sys2Proof.Machine

/-! ## Refused and accepted accesses (R62, R63, R69, R70) -/

section Accesses
variable {s : State} {off : Offset} {width : Nat} {v : HWord}

theorem exists_locAt_of_mapped (h : Mapped off.toNat) : ∃ l, locAt off = some l :=
  Option.isSome_iff_exists.1 ((locAt_isSome off).2 h)

/-- A read is refused when it names no mapped word, or one the busy rule withholds. -/
theorem busStep_read_refused
    (h : width = 4 → Mapped off.toNat → s.busy = true ∧ ¬ (off.toNat % 4 = 0 ∧ off.toNat ≤ 0x014)) :
    busStep s (.read off width) = s.respond .error := by
  obtain hr | ⟨off', l, ha, hl, hb, -⟩ | ⟨_, _, _, ha, -⟩ := busStep_cases s (.read off width)
  · exact hr
  · obtain ⟨rfl, rfl⟩ := Access.read.inj ha
    obtain ⟨hbusy, hoff⟩ := h rfl (mapped_of_locAt hl)
    obtain ⟨-, hreadable, -⟩ := locAt_bits hl
    exact absurd hb (by simp [hbusy, mt hreadable.1 hoff])
  · cases ha

/-- A write is refused when it names no mapped word, a read-only one, or one the busy rule protects. -/
theorem busStep_write_refused
    (h : width = 4 → Mapped off.toNat → ¬ ReadOnly off.toNat → s.busy = true ∧ off ≠ 0x00C) :
    busStep s (.write off width v) = s.respond .error := by
  obtain hr | ⟨_, _, ha, -⟩ | ⟨off', l, v', ha, hl, hw, hb, -⟩ := busStep_cases s (.write off width v)
  · exact hr
  · cases ha
  · obtain ⟨rfl, rfl, rfl⟩ := Access.write.inj ha
    obtain ⟨hwritable, -, hctrl⟩ := locAt_bits hl
    obtain ⟨hbusy, hoff⟩ := h rfl (mapped_of_locAt hl) (hwritable.1 hw)
    exact absurd hb (by simp [hbusy, mt hctrl.1 hoff])

theorem busStep_read_idle (hbusy : s.busy = false) (h : Mapped off.toNat) :
    ∃ x, busStep s (.read off 4) = s.respond (.data x) := by
  obtain ⟨l, hl⟩ := exists_locAt_of_mapped h
  exact ⟨_, busStep_read hl (.inl hbusy)⟩

theorem busStep_write_idle_okay (hbusy : s.busy = false) (h : Mapped off.toNat) (hro : ¬ ReadOnly off.toNat)
    (v : HWord) : (busStep s (.write off 4 v)).response = some .okay := by
  obtain ⟨l, hl⟩ := exists_locAt_of_mapped h
  obtain ⟨hwritable, -, -⟩ := locAt_bits hl
  rw [busStep_write hl (hwritable.2 hro) (.inl hbusy)]
  rfl

/-- A write to `CTRL` that is no soft reset sets `IE`, also while a command runs (R65, R70). -/
theorem busStep_ctrl_ie (s : State) (hv : v.getLsbD 1 = false) :
    busStep s (.write 0x00C 4 v) = { s with ie := v.getLsbD 0, response := some .okay } := by
  rw [busStep_write locAt_ctrl rfl (.inr rfl), writeLoc_ctrl_ie hv]
  rfl

end Accesses

theorem locAt_status : locAt 0x008 = some .status := rfl
theorem locAt_msgLen : locAt 0x010 = some .msgLen := rfl

/-! ## Configuration registers: read after write -/

theorem CurveConfig.get_set (c : CurveConfig) (r r' : CfgReg) (x : Word) :
    (c.set r x).get r' = if r' = r then x else c.get r' := by
  cases r <;> cases r' <;> rfl

@[simp] theorem CurveConfig.get_set_self (c : CurveConfig) (r : CfgReg) (x : Word) : (c.set r x).get r = x := by
  simp [CurveConfig.get_set]

theorem CurveConfig.get_set_of_ne (c : CurveConfig) {r r' : CfgReg} (x : Word) (h : r' ≠ r) :
    (c.set r x).get r' = c.get r' := by
  simp [CurveConfig.get_set, h]

/-! ## A word of `MSG` (R68) -/

section Msg
variable {s : State} (h : MemOk s) (q : Fin 64) (v : HWord)
include h

theorem msgByte_writeMsg (k : Fin 4) : (s.writeMsg q v).msgByte (4 * q.val + k.val) = byteOfWord v k := by
  show Memory.read (s.writeMsg q v).mem (0xC00 + (4 * q.val + k.val)) = _
  rw [read_writeMsg h]
  match k with
  | 0 => simp
  | 1 => simp [add_assoc]
  | 2 => simp [add_assoc]
  | 3 => simp [add_assoc]

theorem read_writeMsg_of_outside {a : Nat} (ha : ¬ (0xC00 + 4 * q.val ≤ a ∧ a < 0xC00 + 4 * q.val + 4)) :
    Memory.read (s.writeMsg q v).mem a = Memory.read s.mem a := by
  rw [read_writeMsg h, if_neg (by omega), if_neg (by omega), if_neg (by omega), if_neg (by omega)]

/-- A read returns the packing a write took apart. -/
theorem msgWord_writeMsg : (s.writeMsg q v).msgWord q = v := by
  have byte := msgByte_writeMsg h q v
  calc (s.writeMsg q v).msgWord q
      = wordOfBytes (byteOfWord v 0) (byteOfWord v 1) (byteOfWord v 2) (byteOfWord v 3) := by
        rw [← byte 0, ← byte 1, ← byte 2, ← byte 3]; rfl
    _ = v := wordOfBytes_byteOfWord v

end Msg

/-! ## The statements -/

/-- Settles O46: an access is answered by the map alone when the block is idle, and refused whenever the map
refuses it. -/
theorem refusedAccesses : Obligations.RefusedAccesses := by
  refine fun s off width v => ⟨fun h => busStep_read_refused fun hw hm => ?_,
    fun h => busStep_write_refused fun hw hm hro => ?_, ?_, ?_⟩
  · exact h.elim (absurd hm) (absurd hw)
  · obtain h | h | h := h
    exacts [absurd hm h, absurd h hro, absurd hw h]
  · rintro hbusy hm rfl
    exact busStep_read_idle hbusy hm
  · rintro hbusy hm hro rfl
    exact busStep_write_idle_okay hbusy hm hro v

/-- Settles O48: the write demotes first and then replaces one slice of one configuration register. -/
theorem configWritesDemote : Obligations.ConfigWritesDemote := by
  refine fun s c w v hbusy => ⟨_, busStep_write (locAt_cfg c w) rfl (.inl hbusy) v, rfl, fun i => ?_,
    State.pt_demote s, rfl, fun c' hc => CurveConfig.get_set_of_ne _ _ hc, ?_, fun w' hw => ?_⟩
  · show (s.demote.reg i).val = _ ∧ (s.demote.reg i).tag = _
    rw [State.reg_demote]
    exact ⟨rfl, rfl⟩
  · exact (congrArg (wordOf · w) (CurveConfig.get_set_self ..)).trans (wordOf_setWordOf_self ..)
  · exact (congrArg (wordOf · w') (CurveConfig.get_set_self ..)).trans (wordOf_setWordOf_of_ne _ _ _ hw)

/-- Settles O49: four byte writes in a memory of canonical form, read back by the same packing. -/
theorem msgWrites : Obligations.MsgWrites := by
  refine fun s q v hbusy hmem => ⟨_, busStep_write (locAt_msg q) rfl (.inl hbusy) v, rfl, hmem.writeMsg q v,
    msgByte_writeMsg hmem q v, fun a => read_writeMsg_of_outside hmem q v, ?_⟩
  have hidle : ((s.writeMsg q v).respond .okay).busy = false := hbusy
  exact (busStep_read (locAt_msg q) (.inl hidle)).trans
    (congrArg (fun x => State.respond _ (.data x)) (msgWord_writeMsg hmem q v))

/-- Settles O44: the busy rule's six reads and one write are served from the current state, all else is refused. -/
theorem busyRule : Obligations.BusyRule := by
  refine fun s hbusy => ⟨busStep_read (l := .id) rfl (.inr rfl),
    busStep_read (l := .cmd) rfl (.inr rfl), busStep_read (l := .status) rfl (.inr rfl),
    busStep_read (l := .ctrl) rfl (.inr rfl), busStep_read (l := .msgLen) rfl (.inr rfl),
    busStep_read (l := .errcmd) rfl (.inr rfl),
    fun off width h => busStep_read_refused fun hw _ => ⟨hbusy, fun hoff => h ⟨hw, hoff⟩⟩,
    fun v => busStep_ctrl_ie s, fun v => atReset_busStep_srst s,
    fun off width v h => busStep_write_refused fun hw _ _ => ⟨hbusy, fun hoff => h ⟨hw, hoff⟩⟩⟩

/-- Settles O47: the write replaces one slice of the value and makes the tag `INT`. -/
theorem operandWrites : Obligations.OperandWrites := by
  intro s i w v hbusy
  have written : (s.writeReg i w v).reg i = ⟨setWordOf (s.reg i).val w v, .int⟩ := State.reg_setReg_self ..
  refine ⟨_, busStep_write (locAt_reg i w) rfl (.inl hbusy) v, rfl, fun j hj => State.reg_setReg_of_ne _ _ _ _ hj,
    congrArg Reg.tag written, ?_, fun w' hw => ?_⟩
  · exact (congrArg (wordOf ·.val w) written).trans (wordOf_setWordOf_self ..)
  · exact (congrArg (wordOf ·.val w') written).trans (wordOf_setWordOf_of_ne _ _ _ hw)

/-- Settles O50: each of the three registers has its own law of writing; only `CTRL` is open to a busy block. -/
theorem controlWrites : Obligations.ControlWrites := by
  refine fun s v => ⟨fun hbusy hv => ?_, fun hbusy hv => ?_, atReset_busStep_srst s, busStep_ctrl_ie s,
    fun hbusy => ?_⟩
  · rw [busStep_write locAt_status rfl (.inl hbusy), writeLoc_status_done hv]
    rfl
  · rw [busStep_write locAt_status rfl (.inl hbusy), writeLoc_status_keep hv]
  · rw [busStep_write locAt_msgLen rfl (.inl hbusy), ← BitVec.setWidth_eq_extractLsb' (by decide)]
    rfl

end Sys2Proof.Machine
end

section
/-! PROOFS. The decoder (30_encoding.md R90 to R93): what each of its checks passes, hence that a decoded word is the
encoding of a well-formed instruction, and that such an encoding is legal. So an illegal word decodes to nothing. -/

namespace Sys2Proof

/-! ## What each check passes -/

section Checks
variable {n fn : Nat} {l : List Nat} {u : Unit} {j : PIdx}

@[simp] theorem unusedZero_eq_ok : unusedZero l = .ok u ↔ ∀ x ∈ l, x = 0 :=
  ⟨unusedZero_ok, fun h => by simpa [unusedZero] using h⟩

@[simp] theorem noModifier_eq_ok : noModifier fn = .ok u ↔ fn = 0 :=
  ⟨noModifier_ok, fun h => by simp [noModifier, h]⟩

@[simp] theorem ptField_eq_ok : ptField n = .ok j ↔ j.val = n :=
  ⟨ptField_ok, fun h => h ▸ ptField_val j⟩

end Checks

section Except
variable {ε α β : Type} {x : Except ε α} {f : α → Except ε β} {a c : α} {b : β}

theorem except_bind_eq_ok : (x >>= f) = .ok b ↔ ∃ a, x = .ok a ∧ f a = .ok b :=
  ⟨except_bind_ok, fun ⟨_, hx, hf⟩ => hx ▸ hf⟩

theorem except_pure_eq_ok : (pure a : Except ε α) = .ok c ↔ c = a :=
  ⟨except_pure_ok, fun h => h ▸ rfl⟩

end Except

theorem PIdx.le_three (j : PIdx) : (j : Nat) ≤ 3 := Nat.le_of_lt_succ j.isLt

/-! ## A decoded word is an encoding (R90, R92) -/

/-- Row by row of R93: the checks leave each field either in the instruction or 0. -/
theorem fields_of_decodeFields {f : Fields} {i : Instr} (hf : f.InRange) (h : decodeFields f = .ok i) :
    i.fields = f ∧ i.wf = true := by
  obtain ⟨op, d, a, b, c, fn⟩ := f
  obtain ⟨-, hd, ha, hb, hc, -⟩ := hf
  unfold decodeFields at h
  split at h
  case h_4 | h_5 | h_11 => -- the opcodes with a modifier bit
    obtain ⟨_, hzero, h⟩ := except_bind_ok h
    obtain ⟨rfl, rfl⟩ | ⟨rfl, rfl⟩ := oneModifier_ok h <;> simp_all [Instr.fields, Instr.wf, regField_of_lt]
  case h_32 => -- `SIGN`
    obtain ⟨_, hfn, h⟩ := except_bind_ok h
    split_ifs at h with hda
    obtain rfl := except_pure_ok h
    simp_all [Instr.fields, Instr.wf, regField_of_lt]
  case h_34 => cases h -- no opcode
  all_goals
    revert h
    simp only [except_bind_eq_ok, except_pure_eq_ok, unusedZero_eq_ok, noModifier_eq_ok, ptField_eq_ok,
      forall_exists_index, and_imp]
    intros
    subst_vars
    simp_all [Instr.fields, Instr.wf, regField_of_lt]

theorem encode_of_decode {w : HWord} {i : Instr} (h : decode w = .ok i) : encode i = w ∧ i.wf = true := by
  obtain ⟨hfields, hwf⟩ := fields_of_decodeFields (fieldsOf_inRange w) h
  exact ⟨(congrArg packWord hfields).trans (packWord_fieldsOf w), hwf⟩

end Sys2Proof

namespace Sys2Proof.Machine

/-! ## The encoding of a well-formed instruction is legal (R92, R93) -/

/-- R92's conditions on the fields of a word, against one row of R93. -/
def OpRow.Fits (r : OpRow) (f : Fields) : Prop :=
  f.op = r.op ∧ r.d.ok f.d ∧ r.a.ok f.a ∧ r.b.ok f.b ∧ r.c.ok f.c ∧ (f.fn = 0 ∨ f.fn = r.fn) ∧
    (r.op = 0x44 → f.d ≠ f.a)

theorem legalWord_iff {w : HWord} : LegalWord w ↔ ∃ r ∈ opcodeMap, r.Fits (fieldsOf w) := .rfl

/-- The row of an opcode. -/
def rowOf (op : Nat) : Option OpRow := opcodeMap.find? (·.op == op)

theorem mem_opcodeMap_of_rowOf {op : Nat} {r : OpRow} (h : rowOf op = some r) : r ∈ opcodeMap :=
  List.mem_of_find?_eq_some h

theorem exists_rowOf_fits {i : Instr} (hwf : i.wf = true) : ∃ r, rowOf i.fields.op = some r ∧ r.Fits i.fields := by
  cases i
  case sign d a b c =>
    have hda : d ≠ a := by simpa [Instr.wf] using hwf
    exact ⟨_, rfl, rfl, trivial, trivial, trivial, trivial, .inl rfl, fun _ => Fin.val_ne_of_ne hda⟩
  all_goals
    refine ⟨_, rfl, ?_⟩
    simp [OpRow.Fits, Instr.fields, Role.ok, PIdx.le_three]

theorem legalWord_encode {i : Instr} (hwf : i.wf = true) : LegalWord (encode i) := by
  obtain ⟨r, hr, hfits⟩ := exists_rowOf_fits hwf
  rw [legalWord_iff, encode, fieldsOf_packWord i.fields_inRange]
  exact ⟨r, mem_opcodeMap_of_rowOf hr, hfits⟩

theorem legalWord_of_decode {w : HWord} {i : Instr} (h : decode w = .ok i) : LegalWord w := by
  obtain ⟨rfl, hwf⟩ := encode_of_decode h
  exact legalWord_encode hwf

theorem exists_decode_error {w : HWord} (hw : ¬ LegalWord w) : ∃ r, decode w = .error r := by
  cases h : decode w with
  | error r => exact ⟨r, rfl⟩
  | ok i => exact absurd (legalWord_of_decode h) hw

/-! ## The life of an illegal word (R92, 60_exceptions.md R276) -/

theorem locAt_cmd : locAt 0x004 = some .cmd := rfl

/-- Acceptance (70_reset_and_hazards.md R320) looks at no bit of the word. -/
theorem step_cmd_write {s : State} {w : HWord} {rest : List Event} (hidle : s.busy = false)
    (he : s.events = .bus (.write 0x004 4 w) :: rest) :
    step s = .next (({ s with events := rest }.accept w).respond .okay) :=
  (step_bus he).trans (congrArg _ (busStep_write (s := { s with events := rest }) locAt_cmd rfl (.inl hidle) w))

theorem step_busy {s : State} (hbusy : s.busy = true) (hseq : s.sequencerNext = true) :
    step s = runCommand { s with events := s.events.tail } :=
  (step_sequencer hseq).trans (sequencerTurn_busy hbusy)

theorem step_illegal {s : State} (hbusy : s.busy = true) (hseq : s.sequencerNext = true) (hw : ¬ LegalWord s.cmd) :
    step s = .next ({ s with events := s.events.tail }.completeError .illegalCommand) := by
  obtain ⟨r, hr⟩ := exists_decode_error hw
  exact (step_busy hbusy hseq).trans (runCommand_illegal hr)

theorem statusWord_completeError_illegalCommand {s : State} (ht : s.t = false) (hkey : s.key.valid = false) :
    (s.completeError .illegalCommand).statusWord = 0x00000606 := by
  simp [State.statusWord, ht, hkey, ErrKind.code]

/-- Settles O32: acceptance does not decode; at its turn an illegal word decodes to no command, and an error
completion changes nothing but what R280 says. -/
theorem illegalWordCompletes : Obligations.IllegalWordCompletes := by
  refine fun w hw => ⟨fun s rest hidle he => ⟨_, step_cmd_write hidle he, rfl, rfl, rfl⟩, ?_⟩
  rintro s hbusy hseq rfl
  exact ⟨_, step_illegal hbusy hseq hw, completeError_failed _ _, statusWord_completeError_illegalCommand⟩

end Sys2Proof.Machine
end

section
/-! PROOFS. The move commands (40_move.md): the decoder's rows for well-formed instructions, then completion and frame
of `NOP`, `MOV` and `FRAW`. -/

namespace Sys2Proof.Machine

/-! ## Words of the move commands (30_encoding.md R92, R93) -/

/-- Row by row of R93, a well-formed instruction's fields pass the checks of its opcode and read back. -/
theorem encodes_fields {i : Instr} (hwf : i.wf = true) : Encodes i.fields i := by
  rw [Encodes, decode_packWord i.fields_inRange]
  cases i
  case sign d a b c =>
    have hda : d ≠ a := by simpa [Instr.wf] using hwf
    simp only [decodeFields, Instr.fields, regField_val, hda, if_false]
    rfl
  all_goals
    simp only [decodeFields, Instr.fields, regField_val, ptField_val]
    rfl

theorem eq_nop_of_op {i : Instr} (h : i.fields.op = 0x00) : i = .nop := by
  cases i with
  | nop => rfl
  | _ => simp [Instr.fields] at h

/-- A decoded word is its instruction's encoding, and only `NOP` has the opcode 0. -/
theorem eq_zero_of_decode {w : HWord} {i : Instr} (hop : bitsOf w.toNat 31 24 = 0x00) (h : decode w = .ok i) :
    w = 0 := by
  obtain ⟨rfl, -⟩ := encode_of_decode h
  rw [Laws.OpcodeByte.op_encode] at hop
  rw [eq_nop_of_op hop]
  rfl

/-! ## The statements -/

/-- Settles O1: only `NOP` encodes to the opcode 0, and its meaning is completion alone. -/
theorem nopCompletes : Obligations.NopCompletes := by
  refine ⟨encodes_fields (i := .nop) rfl, rfl, fun w hop hw => ?_, fun s => ⟨_, rfl, ends_self s⟩⟩
  cases h : decode w with
  | error r => exact ⟨r, rfl⟩
  | ok i => exact absurd (eq_zero_of_decode hop h) hw

/-- Settles O2: each command is one register write, and the source is read before it, so `d = a` needs no case. -/
theorem movAndFrawCopy : Obligations.MovAndFrawCopy := fun d a s =>
  ⟨encodes_fields (i := .mov d a) rfl, ⟨_, rfl, State.reg_setReg_self s d _, ends_setReg s d _⟩,
    encodes_fields (i := .fraw d a) rfl, ⟨_, rfl, State.reg_setReg_self s d _, ends_setReg s d _⟩⟩

end Sys2Proof.Machine
end

section
/-! PROOFS. The prime field unit (41_field.md R130 to R149): how a command ends that writes one register, what the
inverter, the divider and the powers answer, and from these the commands one by one. -/

namespace Sys2Proof.Machine

/-! ## A command that writes one register -/

section OneWrite
variable {i : Instr} {s : State} {f : FieldSel} {d : RIdx} {v : Nat}

theorem completes_of_setElem (h : exec i s = .next (s.setElem d f v).complete) (hv : v < s.modOf f) :
    Completes i s fun t => t.val d = v ∧ t.tag d = f.tag ∧ WritesRegs s t [d] :=
  ⟨_, h, State.val_setElem_self s d f (lt_of_lt_modOf hv), State.tag_setElem_self s d f v, ends_setReg s d _⟩

/-- Every integer the unit writes is a residue of one of the two moduli (R132). -/
theorem completes_of_setInt (h : exec i s = .next (s.setInt d v).complete) (hv : v < s.modOf f) :
    Completes i s fun t => t.val d = v ∧ t.tag d = .int ∧ WritesRegs s t [d] :=
  ⟨_, h, State.val_setInt_self s d (lt_of_lt_modOf hv), State.tag_setInt_self s d v, ends_setReg s d _⟩

end OneWrite

/-! ## The command forms (R130, R132, R133) -/

section Constructors
variable {i : Instr} {s : State} {f : FieldSel} {d a : RIdx}

theorem completes_fred (hx : exec i s = fred f d a s) (h : s.modOf f ≠ 0) :
    Completes i s fun t => t.val d = s.val a % s.modOf f ∧ t.tag d = .int ∧ WritesRegs s t [d] :=
  completes_of_setInt (hx.trans (fred_ok h)) (Nat.mod_lt _ (Nat.pos_of_ne_zero h))

theorem completes_fnew (hx : exec i s = fnew f d a s) (h : s.modOf f ≠ 0) :
    Completes i s fun t => t.val d = s.val a % s.modOf f ∧ t.tag d = f.tag ∧ WritesRegs s t [d] :=
  completes_of_setElem (hx.trans (fnew_ok h)) (Nat.mod_lt _ (Nat.pos_of_ne_zero h))

end Constructors

section Binary
variable {i : Instr} {s : State} {f : FieldSel} {d a b : RIdx} {op : Nat → Nat → Nat → Except ErrKind Nat}
variable (hx : exec i s = fieldBinary op d a b s)
include hx

theorem raises_mismatch_of_binary (h : s.tag a = .int ∨ s.tag a ≠ s.tag b) : Raises i s .mismatchedField :=
  raises_of_exec (hx.trans (fieldBinary_mismatch h))

theorem raises_of_binary (ha : s.tag a = f.tag) (hb : s.tag b = f.tag) {e : ErrKind}
    (he : op (s.modOf f) (s.val a) (s.val b) = .error e) : Raises i s e :=
  raises_of_exec (hx.trans (fieldBinary_error ha hb he))

theorem completes_of_binary (ha : s.tag a = f.tag) (hb : s.tag b = f.tag) {v : Nat}
    (hv : op (s.modOf f) (s.val a) (s.val b) = .ok v) (hlt : v < s.modOf f) :
    Completes i s fun t => t.val d = v ∧ t.tag d = f.tag ∧ WritesRegs s t [d] :=
  completes_of_setElem (hx.trans (fieldBinary_ok ha hb hv)) hlt

end Binary

section Unary
variable {i : Instr} {s : State} {f : FieldSel} {d a : RIdx} {op : Nat → Nat → Except ErrKind Nat}
variable (hx : exec i s = fieldUnary op d a s)
include hx

theorem raises_mismatch_of_unary (h : s.tag a = .int) : Raises i s .mismatchedField :=
  raises_of_exec (hx.trans (fieldUnary_mismatch h))

theorem raises_of_unary (ha : s.tag a = f.tag) {e : ErrKind} (he : op (s.modOf f) (s.val a) = .error e) :
    Raises i s e :=
  raises_of_exec (hx.trans (fieldUnary_error ha he))

theorem completes_of_unary (ha : s.tag a = f.tag) {v : Nat} (hv : op (s.modOf f) (s.val a) = .ok v)
    (hlt : v < s.modOf f) : Completes i s fun t => t.val d = v ∧ t.tag d = f.tag ∧ WritesRegs s t [d] :=
  completes_of_setElem (hx.trans (fieldUnary_ok ha hv)) hlt

end Unary

/-! ## The form of each arithmetic command (R136 to R145) -/

section Arms
variable (d a b : RIdx) (s : State)

theorem exec_fadd : exec (.fadd d a b) s = fieldBinary (fun m x y => .ok (addMod m x y)) d a b s := rfl
theorem exec_fsub : exec (.fsub d a b) s = fieldBinary (fun m x y => .ok (subMod m x y)) d a b s := rfl
theorem exec_fmul : exec (.fmul d a b) s = fieldBinary (fun m x y => .ok (mulMod m x y)) d a b s := rfl
theorem exec_fdiv : exec (.fdiv d a b) s = fieldBinary divMod d a b s := rfl
theorem exec_finv : exec (.finv d a) s = fieldUnary (fun m x => inverter x m) d a s := rfl
theorem exec_fpow : exec (.fpow d a b) s = fieldUnary (fun m x => .ok (powPos m x (s.val b))) d a s := rfl
theorem exec_fpowNeg : exec (.fpowNeg d a b) s = fieldUnary (fun m x => powNeg m x (s.val b)) d a s := rfl
theorem exec_fsqrt : exec (.fsqrt d a) s = fieldUnary sqrtMod d a s := rfl

end Arms

/-! ## The inverter and the divider (R140, R142) -/

section Inverse
variable {m x y i : Nat}

theorem exists_inverter_ok (hm : 0 < m) (h : Nat.gcd x m = 1) : ∃ y, IsInv m x y ∧ inverter x m = .ok y :=
  ⟨invMod x m, invMod_spec hm h, if_pos h⟩

theorem inverter_divisionByZero (h : Nat.gcd x m ≠ 1) : inverter x m = .error .divisionByZero := if_neg h

theorem divMod_of_inverter (h : inverter y m = .ok i) (x : Nat) : divMod m x y = .ok (x * i % m) := by
  rw [divMod, h]
  rfl

/-- The division law (R140): times the inverse, times the divisor, is the dividend again. -/
theorem IsInv.mul_mod_mul_mod (h : IsInv m y i) (x : Nat) : x * i % m * y % m = x % m := by
  obtain ⟨-, hinv⟩ := h
  have hinv : y * i ≡ 1 [MOD m] := hinv
  calc x * i % m * y ≡ x * i * y [MOD m] := (Nat.mod_modEq _ _).mul_right _
    _ = x * (y * i) := by ring
    _ ≡ x * 1 [MOD m] := hinv.mul_left _
    _ = x := mul_one x

end Inverse

/-! ## Powers (R143, R145) -/

section Powers
variable {m x e : Nat}

theorem powPos_eq (he : e < 2 ^ 256) :
    powPos m x e = if m = 1 then 0 else if e = 0 then 1 else x ^ e % m := by
  rw [powPos, powMod_eq he]

theorem powPos_lt (hm : 0 < m) (he : e < 2 ^ 256) : powPos m x e < m := by
  rw [powPos_eq he]
  split_ifs with h1 h0
  · exact hm
  · omega
  · exact Nat.mod_lt _ hm

theorem powNeg_of_modulus_one (h1 : m = 1) : powNeg m x e = .ok 0 := if_pos h1

theorem powNeg_of_exponent_zero (h1 : m ≠ 1) (h0 : e = 0) : powNeg m x e = .ok 1 := by
  rw [powNeg, if_neg h1, if_pos h0]

theorem powNeg_eq_bind (h1 : m ≠ 1) (h0 : e ≠ 0) :
    powNeg m x e = do let y ← inverter x m; return powMod m y e := by
  rw [powNeg, if_neg h1, if_neg h0]

theorem powNeg_divisionByZero (h1 : m ≠ 1) (h0 : e ≠ 0) (h : Nat.gcd x m ≠ 1) :
    powNeg m x e = .error .divisionByZero := by
  rw [powNeg_eq_bind h1 h0, inverter_divisionByZero h]
  rfl

theorem exists_powNeg_ok (hm : 0 < m) (h1 : m ≠ 1) (h0 : e ≠ 0) (he : e < 2 ^ 256) (h : Nat.gcd x m = 1) :
    ∃ y, IsInv m x y ∧ powNeg m x e = .ok (y ^ e % m) := by
  obtain ⟨y, hy, hinv⟩ := exists_inverter_ok hm h
  refine ⟨y, hy, ?_⟩
  rw [powNeg_eq_bind h1 h0, hinv, ← powMod_eq he]
  rfl

theorem sqrtMod_badConfig (h : m % 4 ≠ 3) : sqrtMod m x = .error .badConfig := if_neg h

/-- The exponent `(m + 1)/4` of a 256-bit modulus has at most 256 bits. -/
theorem sqrtMod_ok (hm : m < 2 ^ 256) (h : m % 4 = 3) : sqrtMod m x = .ok (x ^ ((m + 1) / 4) % m) := by
  rw [sqrtMod, if_pos h, powMod_eq (by omega)]

end Powers

/-! ## The statements -/

/-- Settles O6: the datapath's non-negative difference is the Euclidean residue of the integer one. -/
theorem fsubSubtracts : Obligations.FsubSubtracts := by
  refine fun d a b s => ⟨encodes_fields (i := .fsub d a b) rfl, raises_mismatch_of_binary (exec_fsub d a b s),
    fun f ha hb hm => ?_⟩
  obtain ⟨t, hx, hval, hrest⟩ :=
    completes_of_binary (exec_fsub d a b s) ha hb rfl (subMod_lt hm (s.val a) (s.val b))
  exact ⟨t, hx, hval ▸ subMod_int hm _ _, hrest⟩

/-- Settles O8: the divider multiplies by the inverter's answer, so it fails exactly where that does. -/
theorem fdivDivides : Obligations.FdivDivides := by
  refine fun d a b s => ⟨encodes_fields (i := .fdiv d a b) rfl, raises_mismatch_of_binary (exec_fdiv d a b s),
    fun f ha hb hm => ⟨fun hg => ?_, fun hg => ?_⟩⟩
  · exact raises_of_binary (exec_fdiv d a b s) ha hb (divMod_divisionByZero hg)
  · obtain ⟨y, hy, hinv⟩ := exists_inverter_ok hm hg
    obtain ⟨t, hx, hval, hrest⟩ :=
      completes_of_binary (exec_fdiv d a b s) ha hb (divMod_of_inverter hinv _) (Nat.mod_lt _ hm)
    exact ⟨t, hx, ⟨y, hy, hval⟩, hval ▸ hy.mul_mod_mul_mod (s.val a), hrest⟩

/-- Settles O9: the command is the inverter (R142). -/
theorem finvInverts : Obligations.FinvInverts := by
  refine fun d a s => ⟨encodes_fields (i := .finv d a) rfl, raises_mismatch_of_unary (exec_finv d a s),
    fun f ha hm => ⟨fun hg => ?_, fun hg => ?_⟩⟩
  · exact raises_of_unary (exec_finv d a s) ha (inverter_divisionByZero hg)
  · obtain ⟨y, hy, hinv⟩ := exists_inverter_ok hm hg
    obtain ⟨t, hx, hval, hrest⟩ := completes_of_unary (exec_finv d a s) ha hinv hy.1
    exact ⟨t, hx, hval ▸ hy, hrest⟩

/-- Settles O10: an exponent is a register's value, so the loop's 256 rounds reach all its bits; a negative power
meets the inverter only when neither the modulus nor the exponent decides the answer before. -/
theorem fpowRaises : Obligations.FpowRaises := by
  intro d a b s
  have hpos := exec_fpow d a b s
  have hneg := exec_fpowNeg d a b s
  refine ⟨encodes_fields (i := .fpow d a b) rfl, encodes_fields (i := .fpowNeg d a b) rfl,
    fun h => ⟨raises_mismatch_of_unary hpos h, raises_mismatch_of_unary hneg h⟩,
    fun f ha hm => ⟨?_, fun h1 => ?_, fun h1 h0 => ?_, fun h1 h0 hg => ?_, fun h1 h0 hg => ?_⟩⟩
  · rw [← powPos_eq (s.val_lt b)]
    exact completes_of_unary hpos ha rfl (powPos_lt hm (s.val_lt b))
  · exact completes_of_unary hneg ha (powNeg_of_modulus_one h1) hm
  · exact completes_of_unary hneg ha (powNeg_of_exponent_zero h1 h0) (by omega)
  · exact raises_of_unary hneg ha (powNeg_divisionByZero h1 h0 hg)
  · obtain ⟨y, hy, hpow⟩ := exists_powNeg_ok hm h1 h0 (s.val_lt b) hg
    obtain ⟨t, hx, hval, hrest⟩ := completes_of_unary hneg ha hpow (Nat.mod_lt _ hm)
    exact ⟨t, hx, ⟨y, hy, hval⟩, hrest⟩

/-- Settles O3: both forms are one constructor at two moduli. -/
theorem fredReduces : Obligations.FredReduces := fun d a _ =>
  ⟨encodes_fields (i := .fredP d a) rfl, encodes_fields (i := .fredN d a) rfl,
    fun h => raises_of_exec (fred_badConfig (f := .p) h), completes_fred (f := .p) rfl,
    fun h => raises_of_exec (fred_badConfig (f := .n) h), completes_fred (f := .n) rfl⟩

/-- Settles O4: as O3, with the field's tag in place of `INT`. -/
theorem fnewConstructs : Obligations.FnewConstructs := fun d a _ =>
  ⟨encodes_fields (i := .fnewP d a) rfl, encodes_fields (i := .fnewN d a) rfl,
    fun h => raises_of_exec (fnew_badConfig (f := .p) h), completes_fnew (f := .p) rfl,
    fun h => raises_of_exec (fnew_badConfig (f := .n) h), completes_fnew (f := .n) rfl⟩

/-- Settles O5: the datapath's sum is a residue, so the register holds it. -/
theorem faddAdds : Obligations.FaddAdds := fun d a b s =>
  ⟨encodes_fields (i := .fadd d a b) rfl, raises_mismatch_of_binary (exec_fadd d a b s),
    fun _ ha hb hm => completes_of_binary (exec_fadd d a b s) ha hb rfl (addMod_lt hm _ _)⟩

/-- Settles O7: the datapath's product is a residue for every modulus at least 1, odd or even. -/
theorem fmulMultiplies : Obligations.FmulMultiplies := fun d a b s =>
  ⟨encodes_fields (i := .fmul d a b) rfl, raises_mismatch_of_binary (exec_fmul d a b s),
    fun _ ha hb hm => completes_of_binary (exec_fmul d a b s) ha hb rfl (mulMod_lt hm _ _)⟩

/-- Settles O11: the modulus is tested before the power is taken, and a modulus 3 modulo 4 is not 0. -/
theorem fsqrtExponent : Obligations.FsqrtExponent := by
  refine fun d a s => ⟨encodes_fields (i := .fsqrt d a) rfl, raises_mismatch_of_unary (exec_fsqrt d a s),
    fun f ha => ⟨fun h => ?_, fun h => ?_⟩⟩
  · exact raises_of_unary (exec_fsqrt d a s) ha (sqrtMod_badConfig h)
  · have hm : 0 < s.modOf f := by omega
    exact completes_of_unary (exec_fsqrt d a s) ha (sqrtMod_ok (s.modOf_lt f) h) (Nat.mod_lt _ hm)

/-- Settles O13: each command writes the comparison itself into `T`, whatever the tags. -/
theorem zeroAndEqualityTests : Obligations.ZeroAndEqualityTests := fun a b s =>
  ⟨encodes_fields (i := .fisz a) rfl, ⟨_, rfl, by simp, ends_setT s _⟩,
    encodes_fields (i := .feq a b) rfl, ⟨_, rfl, by simp, ends_setT s _⟩⟩

end Sys2Proof.Machine
end

section
/-! PROOFS. The point unit (42_point.md R171 to R185): how a command ends that writes one point register, when a
point is made of two coordinates, what the group law answers in each of its five cases, and from these the commands
one by one. -/

namespace Sys2Proof.Machine

/-! ## A command that writes one point register -/

/-- The end of every such command: the point goes to `P[d]`, or its error is raised. -/
def pointResult (d : PIdx) (r : Except ErrKind Point) (s : State) : Outcome :=
  finish s do
    let q ← r
    return s.setPt d q

section OnePoint
variable {i : Instr} {s : State} {d : PIdx} {r : Except ErrKind Point} (hx : exec i s = pointResult d r s)
include hx

theorem completes_of_pointResult {q : Point} (hr : r = .ok q) :
    Completes i s fun t => t.pt d = q ∧ WritesPts s t [d] := by
  subst hr
  exact ⟨_, hx, State.pt_setPt_self s d q, ends_setPt s d q⟩

theorem raises_of_pointResult {e : ErrKind} (hr : r = .error e) : Raises i s e := by
  subst hr
  exact raises_of_exec hx

end OnePoint

/-! ## Two element operands of one field (R173, R175) -/

section Operands
variable {s : State} {f : FieldSel} {a b : RIdx}

theorem finish_elemOf_mismatch (h : s.tag a ≠ f.tag ∨ s.tag b ≠ f.tag) (k : Except ErrKind State) :
    finish s (do elemOf s f a; elemOf s f b; k) = .next (s.completeError .mismatchedField) := by
  by_cases ha : s.tag a = f.tag
  · rw [elemOf_of_tag ha, elemOf_of_ne (h.resolve_left (not_not_intro ha))]
    rfl
  · rw [elemOf_of_ne ha]
    rfl

theorem finish_elemOf_ok (ha : s.tag a = f.tag) (hb : s.tag b = f.tag) (k : Except ErrKind State) :
    finish s (do elemOf s f a; elemOf s f b; k) = finish s k := by
  rw [elemOf_of_tag ha, elemOf_of_tag hb]
  rfl

end Operands

/-! ## The form of each command (R173 to R178, R185) -/

section Arms
variable (d a b : PIdx) (i j : RIdx) (s : State)

theorem exec_pnew_mismatch (h : s.tag i ≠ .fp ∨ s.tag j ≠ .fp) :
    exec (.pnew d i j) s = .next (s.completeError .mismatchedField) := finish_elemOf_mismatch (f := .p) h _

theorem exec_pnew (hi : s.tag i = .fp) (hj : s.tag j = .fp) :
    exec (.pnew d i j) s = pointResult d (s.makePoint (s.val i) (s.val j)) s :=
  finish_elemOf_ok (f := .p) hi hj _

theorem exec_ponc_mismatch (h : s.tag i ≠ .fp ∨ s.tag j ≠ .fp) :
    exec (.ponc i j) s = .next (s.completeError .mismatchedField) := finish_elemOf_mismatch (f := .p) h _

theorem exec_ponc (hi : s.tag i = .fp) (hj : s.tag j = .fp) :
    exec (.ponc i j) s = .next (s.setT (s.onCurve (s.val i) (s.val j))).complete :=
  finish_elemOf_ok (f := .p) hi hj _

theorem exec_pnewi : exec (.pnewi d i j) s = pointResult d (s.makePointIntegral (s.val i) (s.val j)) s := rfl
theorem exec_padd : exec (.padd d a b) s = pointResult d (s.padd (s.pt a) (s.pt b)) s := rfl
theorem exec_pdbl : exec (.pdbl d a) s = pointResult d (s.padd (s.pt a) (s.pt a)) s := rfl
theorem exec_pgen : exec (.pgen d) s = pointResult d s.gen s := rfl

end Arms

/-! ## A coordinate read (R179, R180) -/

/-- `PGETX` and `PGETY` differ in the coordinate they select. -/
def coordinateResult (sel : Word → Word → Word) (d : RIdx) (a : PIdx) (s : State) : Outcome :=
  finish s do
    let v ← coordinate sel (s.pt a)
    return s.setReg d ⟨v, .fp⟩

section Coordinates
variable {ins : Instr} {sel : Word → Word → Word} {d : RIdx} {a : PIdx} {s : State}

theorem raises_of_coordinateResult (hx : exec ins s = coordinateResult sel d a s) (h : s.pt a = .inf) :
    Raises ins s .absentCoordinate := by
  rw [coordinateResult, h] at hx
  exact raises_of_exec hx

theorem completes_of_coordinateResult (hx : exec ins s = coordinateResult sel d a s) {x y : Word}
    (h : s.pt a = .aff x y) : Completes ins s fun t => t.reg d = ⟨sel x y, .fp⟩ ∧ WritesRegs s t [d] := by
  rw [coordinateResult, h] at hx
  exact ⟨_, hx, State.reg_setReg_self s d _, ends_setReg s d _⟩

theorem exec_pgetx : exec (.pgetx d a) s = coordinateResult (fun x _ => x) d a s := rfl
theorem exec_pgety : exec (.pgety d a) s = coordinateResult (fun _ y => y) d a s := rfl

end Coordinates

/-! ## Points from coordinates (R171, R173, R174, R183) -/

theorem affine_toNat (x y : Word) : affine x.toNat y.toNat = .aff x y := by
  simp [affine]

section MakePoint
variable {s : State} {x y : Nat}

theorem State.makePoint_ok (h : CurveEq s x y) : s.makePoint x y = .ok (affine x y) :=
  if_pos ((s.onCurve_iff x y).2 h)

theorem State.makePoint_pointNotOnCurve (h : ¬ CurveEq s x y) : s.makePoint x y = .error .pointNotOnCurve :=
  if_neg (mt (s.onCurve_iff x y).1 h)

theorem State.makePointIntegral_badConfig (hp : s.p = 0) : s.makePointIntegral x y = .error .badConfig :=
  if_pos hp

theorem State.makePointIntegral_eq (hp : s.p ≠ 0) :
    s.makePointIntegral x y = s.makePoint (x % s.p) (y % s.p) := if_neg hp

theorem State.makePointIntegral_pointNotOnCurve (hp : s.p ≠ 0) (h : ¬ CurveEq s (x % s.p) (y % s.p)) :
    s.makePointIntegral x y = .error .pointNotOnCurve := by
  rw [makePointIntegral_eq hp, makePoint_pointNotOnCurve h]

/-- A residue of `MOD_P` fits a register. -/
theorem State.toNat_ofNat_mod_p (hp : s.p ≠ 0) (x : Nat) : (BitVec.ofNat 256 (x % s.p)).toNat = x % s.p :=
  toNat_ofNat_of_lt ((Nat.mod_lt x (Nat.pos_of_ne_zero hp)).trans (s.modOf_lt .p))

theorem State.exists_makePointIntegral_ok (hp : s.p ≠ 0) (h : CurveEq s (x % s.p) (y % s.p)) :
    ∃ qx qy : Word, qx.toNat = x % s.p ∧ qy.toNat = y % s.p ∧ s.makePointIntegral x y = .ok (.aff qx qy) :=
  ⟨_, _, toNat_ofNat_mod_p hp x, toNat_ofNat_mod_p hp y, (makePointIntegral_eq hp).trans (makePoint_ok h)⟩

end MakePoint

theorem State.gen_eq (s : State) : s.gen = s.makePointIntegral s.cfg.genX.toNat s.cfg.genY.toNat := rfl

theorem State.gen_congr {s t : State} (h : s.cfg = t.cfg) : s.gen = t.gen := by
  cases s
  cases t
  cases h
  rfl

/-- One closed evaluation: the secp256k1 generator is reduced and on its curve. -/
theorem State.gen_reset : State.reset.gen = .ok (.aff CurveConfig.secp256k1.genX CurveConfig.secp256k1.genY) := by
  decide +kernel

/-! ## The slopes (R176) -/

section Slopes
variable {p x1 y1 x2 : Nat}

theorem subMod_modEq (hp : 0 < p) (x y : Nat) : (subMod p x y : ℤ) ≡ x - y [ZMOD p] := by
  rw [subMod_int hp]
  exact Int.mod_modEq _ _

theorem exists_tangentSlope_ok (hp : 0 < p) (hg : Nat.gcd (2 * y1 % p) p = 1) (a x1 : Nat) :
    ∃ l, tangentSlope p a x1 y1 = .ok l ∧ 2 * y1 * l ≡ 3 * x1 * x1 + a [MOD p] := by
  obtain ⟨l, hl, hlaw⟩ := divMod_ok (x := (3 * x1 * x1 + a) % p) hp hg
  refine ⟨l, hl, ?_⟩
  calc 2 * y1 * l ≡ 2 * y1 % p * l [MOD p] := ((Nat.mod_modEq _ _).mul_right l).symm
    _ ≡ (3 * x1 * x1 + a) % p [MOD p] := hlaw
    _ ≡ 3 * x1 * x1 + a [MOD p] := Nat.mod_modEq _ _

theorem exists_chordSlope_ok (hp : 0 < p) (hg : Int.gcd ((x2 : ℤ) - x1) p = 1) (y1 y2 : Nat) :
    ∃ l, chordSlope p x1 y1 x2 y2 = .ok l ∧ ((x2 : ℤ) - x1) * l ≡ y2 - y1 [ZMOD p] := by
  rw [← gcd_subMod hp] at hg
  obtain ⟨l, hl, hlaw⟩ := divMod_ok (x := subMod p y2 y1) hp hg
  have hlaw : (subMod p x2 x1 : ℤ) * l ≡ subMod p y2 y1 [ZMOD p] := mod_cast Int.natCast_modEq_iff.2 hlaw
  refine ⟨l, hl, ?_⟩
  calc ((x2 : ℤ) - x1) * l ≡ subMod p x2 x1 * l [ZMOD p] := ((subMod_modEq hp x2 x1).mul_right _).symm
    _ ≡ subMod p y2 y1 [ZMOD p] := hlaw
    _ ≡ y2 - y1 [ZMOD p] := subMod_modEq hp y2 y1

theorem chordSlope_divisionByZero (hp : 0 < p) (hg : Int.gcd ((x2 : ℤ) - x1) p ≠ 1) (y1 y2 : Nat) :
    chordSlope p x1 y1 x2 y2 = .error .divisionByZero :=
  divMod_divisionByZero (by rwa [gcd_subMod hp])

end Slopes

/-! ## Doubling and chord (R176) -/

section Additions
variable {s : State} {x1 y1 x2 y2 : Word}

theorem State.padd_double_of_zero : s.padd (.aff x1 0) (.aff x1 0) = .ok .inf := by
  rw [padd_double, if_pos rfl]

theorem State.padd_double_ok {l : Nat} (hy : y1 ≠ 0) (hl : tangentSlope s.p s.a x1.toNat y1.toNat = .ok l) :
    s.padd (.aff x1 y1) (.aff x1 y1) = .ok (thirdPoint s.p l x1.toNat y1.toNat x1.toNat) := by
  rw [padd_double, if_neg hy, hl]
  rfl

theorem State.padd_double_divisionByZero (hy : y1 ≠ 0) (hg : Nat.gcd (2 * y1.toNat % s.p) s.p ≠ 1) :
    s.padd (.aff x1 y1) (.aff x1 y1) = .error .divisionByZero := by
  have hslope : tangentSlope s.p s.a x1.toNat y1.toNat = .error .divisionByZero := divMod_divisionByZero hg
  rw [padd_double, if_neg hy, hslope]
  rfl

theorem State.padd_chord_ok {l : Nat} (hx : x1 ≠ x2)
    (hl : chordSlope s.p x1.toNat y1.toNat x2.toNat y2.toNat = .ok l) :
    s.padd (.aff x1 y1) (.aff x2 y2) = .ok (thirdPoint s.p l x1.toNat y1.toNat x2.toNat) := by
  rw [padd_chord hx, hl]
  rfl

theorem State.padd_chord_divisionByZero (hp : 0 < s.p) (hx : x1 ≠ x2)
    (hg : Int.gcd ((x2.toNat : ℤ) - x1.toNat) s.p ≠ 1) :
    s.padd (.aff x1 y1) (.aff x2 y2) = .error .divisionByZero := by
  rw [padd_chord hx, chordSlope_divisionByZero hp hg]
  rfl

/-- The coefficient of the tangent is `CURVE_A` itself modulo `p`. -/
theorem State.exists_padd_double (hp : 0 < s.p) (hy : y1 ≠ 0) (hg : Nat.gcd (2 * y1.toNat % s.p) s.p = 1) :
    ∃ (l : ℕ) (x3 y3 : Word),
      2 * y1.toNat * l ≡ 3 * x1.toNat * x1.toNat + s.cfg.curveA.toNat [MOD s.p] ∧
      x3.toNat < s.p ∧ (x3.toNat : ℤ) ≡ l * l - 2 * x1.toNat [ZMOD s.p] ∧
      y3.toNat < s.p ∧ (y3.toNat : ℤ) ≡ l * (x1.toNat - x3.toNat) - y1.toNat [ZMOD s.p] ∧
      s.padd (.aff x1 y1) (.aff x1 y1) = .ok (.aff x3 y3) := by
  obtain ⟨l, hl, hlaw⟩ := exists_tangentSlope_ok hp hg s.a x1.toNat
  obtain ⟨x3, y3, h3, hx, hy3, hxlaw, hylaw⟩ := thirdPoint_spec hp (s.modOf_lt .p) l x1.toNat y1.toNat x1.toNat
  refine ⟨l, x3, y3, hlaw.trans ((Nat.mod_modEq _ _).add_left _), hx, ?_, hy3, hylaw, h3 ▸ padd_double_ok hy hl⟩
  rwa [two_mul, ← sub_sub]

theorem State.exists_padd_chord (hp : 0 < s.p) (hx : x1 ≠ x2)
    (hg : Int.gcd ((x2.toNat : ℤ) - x1.toNat) s.p = 1) :
    ∃ (l : ℕ) (x3 y3 : Word), ((x2.toNat : ℤ) - x1.toNat) * l ≡ y2.toNat - y1.toNat [ZMOD s.p] ∧
      x3.toNat < s.p ∧ (x3.toNat : ℤ) ≡ l * l - x1.toNat - x2.toNat [ZMOD s.p] ∧
      y3.toNat < s.p ∧ (y3.toNat : ℤ) ≡ l * (x1.toNat - x3.toNat) - y1.toNat [ZMOD s.p] ∧
      s.padd (.aff x1 y1) (.aff x2 y2) = .ok (.aff x3 y3) := by
  obtain ⟨l, hl, hlaw⟩ := exists_chordSlope_ok hp hg y1.toNat y2.toNat
  obtain ⟨x3, y3, h3, hx3, hy3, hxlaw, hylaw⟩ := thirdPoint_spec hp (s.modOf_lt .p) l x1.toNat y1.toNat x2.toNat
  exact ⟨l, x3, y3, hlaw, hx3, hxlaw, hy3, hylaw, h3 ▸ padd_chord_ok hx hl⟩

end Additions

/-! ## An odd prime modulus (R176) -/

section Prime
variable {s : State}

theorem State.exists_padd_chord_of_prime (hp : s.p.Prime) {x1 x2 : Word} (hx : x1 ≠ x2) (h1 : x1.toNat < s.p)
    (h2 : x2.toNat < s.p) (y1 y2 : Word) : ∃ R, s.padd (.aff x1 y1) (.aff x2 y2) = .ok R := by
  have hg := gcd_chord_of_prime hp (mt BitVec.eq_of_toNat_eq hx) h1 h2
  rw [gcd_subMod hp.pos] at hg
  obtain ⟨l, hl, -⟩ := exists_chordSlope_ok hp.pos hg y1.toNat y2.toNat
  exact ⟨_, padd_chord_ok hx hl⟩

section Odd
variable (hp : s.p.Prime) (h2 : s.p ≠ 2)
include hp h2

theorem State.exists_padd_double_of_prime {x y : Word} (hy : y.toNat < s.p) :
    ∃ R, s.padd (.aff x y) (.aff x y) = .ok R := by
  by_cases h0 : y = 0
  · exact ⟨_, h0 ▸ padd_double_of_zero⟩
  · have hg := gcd_double_of_prime hp h2 (mt toNat_eq_zero_iff.1 h0) hy
    obtain ⟨l, hl, -⟩ := exists_tangentSlope_ok hp.pos hg s.a x.toNat
    exact ⟨_, padd_double_ok h0 hl⟩

/-- "Neither division can fail" on reduced coordinates. -/
theorem State.exists_padd_of_prime {P Q : Point} (hP : PointOk s P) (hQ : PointOk s Q) :
    ∃ R, s.padd P Q = .ok R ∧ PointOk s R := by
  suffices h : ∃ R, s.padd P Q = .ok R by
    obtain ⟨R, hR⟩ := h
    exact ⟨R, hR, padd_pointOk hp.pos hP hQ hR⟩
  match P, Q with
  | .inf, Q => exact ⟨Q, rfl⟩
  | .aff x1 y1, .inf => exact ⟨_, rfl⟩
  | .aff x1 y1, .aff x2 y2 =>
    obtain ⟨hx1, hy1⟩ := hP
    obtain ⟨hx2, -⟩ := hQ
    by_cases hx : x1 = x2
    · subst hx
      by_cases hy : y1 = y2
      · exact hy ▸ exists_padd_double_of_prime hp h2 hy1
      · exact ⟨_, padd_vertical x1 hy⟩
    · exact exists_padd_chord_of_prime hp hx hx1 hx2 y1 y2

end Odd

end Prime

/-- `2·1 mod 2 = 0`, and `gcd(0, 2) = 2`. -/
theorem State.padd_double_one_of_two {s : State} (hp : s.p = 2) (x : Word) :
    s.padd (.aff x 1) (.aff x 1) = .error .divisionByZero :=
  padd_double_divisionByZero (by decide) (by rw [hp]; decide)

/-! ## The statements -/

/-- Settles O18: each slope is a division, whose divisor decides between the formulas' point and the error. -/
theorem groupLaw : Obligations.GroupLaw := fun s hp =>
  ⟨s.padd_inf_left, s.padd_inf_right,
    fun _ _ => ⟨fun hy => hy ▸ State.padd_double_of_zero, State.padd_double_divisionByZero,
      State.exists_padd_double hp⟩,
    fun x _ _ => State.padd_vertical x,
    fun _ _ _ _ hx => ⟨State.padd_chord_divisionByZero hp hx, State.exists_padd_chord hp hx⟩,
    fun hprime h2 _ _ => State.exists_padd_of_prime hprime h2,
    State.padd_double_one_of_two⟩

/-- Settles O19: both commands end with the group law's answer, whose one error is `DivisionByZero`. -/
theorem paddAndPdbl : Obligations.PaddAndPdbl := by
  intro d a b s
  have hadd := exec_padd d a b s
  have hdbl := exec_pdbl d a s
  refine ⟨encodes_fields (i := .padd d a b) rfl, encodes_fields (i := .pdbl d a) rfl,
    fun q => completes_of_pointResult hadd, fun e he => ⟨State.padd_error he, raises_of_pointResult hadd he⟩,
    fun q => completes_of_pointResult hdbl, fun e he => ⟨State.padd_error he, raises_of_pointResult hdbl he⟩,
    fun hp h2 ha hb => ⟨?_, ?_⟩⟩
  · obtain ⟨q, hq, -⟩ := State.exists_padd_of_prime hp h2 ha hb
    obtain ⟨t, hx, rfl, -⟩ := completes_of_pointResult hadd hq
    exact ⟨t, hx, hq⟩
  · obtain ⟨q, hq, -⟩ := State.exists_padd_of_prime hp h2 ha ha
    obtain ⟨t, hx, rfl, -⟩ := completes_of_pointResult hdbl hq
    exact ⟨t, hx, hq⟩

/-- Settles O14: each command is one point write, and the source is read before it, so `d = a` needs no case. -/
theorem pinfAndPmov : Obligations.PinfAndPmov := fun d a s =>
  ⟨encodes_fields (i := .pinf d) rfl, ⟨_, rfl, State.pt_setPt_self s d _, ends_setPt s d _⟩,
    encodes_fields (i := .pmov d a) rfl, ⟨_, rfl, State.pt_setPt_self s d _, ends_setPt s d _⟩⟩

/-- Settles O15: past the tags the command is `make_point`, and a register's value is its own coordinate. -/
theorem pnewValidates : Obligations.PnewValidates := by
  refine fun d a b s => ⟨encodes_fields (i := .pnew d a b) rfl,
    fun h => raises_of_exec (exec_pnew_mismatch d a b s h), fun ha hb _ => ⟨fun h => ?_, fun h => ?_⟩⟩
  · exact raises_of_pointResult (exec_pnew d a b s ha hb) (State.makePoint_pointNotOnCurve h)
  · rw [← affine_toNat]
    exact completes_of_pointResult (exec_pnew d a b s ha hb) (State.makePoint_ok h)

/-- Settles O16: the command is `make_point_integral`. -/
theorem pnewiValidates : Obligations.PnewiValidates := by
  intro d a b s
  have hx := exec_pnewi d a b s
  refine ⟨encodes_fields (i := .pnewi d a b) rfl,
    fun hp => raises_of_pointResult hx (State.makePointIntegral_badConfig hp),
    fun hp h => raises_of_pointResult hx (State.makePointIntegral_pointNotOnCurve hp h), fun hp h => ?_⟩
  obtain ⟨x, y, hxv, hyv, hq⟩ := State.exists_makePointIntegral_ok hp h
  obtain ⟨t, ht, hpt, hframe⟩ := completes_of_pointResult hx hq
  exact ⟨t, ht, ⟨x, y, hxv, hyv, hpt⟩, hframe⟩

/-- Settles O17: past the tags the command writes the curve test itself into `T`. -/
theorem poncTests : Obligations.PoncTests := fun a b s =>
  ⟨encodes_fields (i := .ponc a b) rfl, fun h => raises_of_exec (exec_ponc_mismatch a b s h),
    fun ha hb _ => ⟨_, exec_ponc a b s ha hb, s.onCurve_iff (s.val a) (s.val b), ends_setT s _⟩⟩

/-- Settles O20: a finite point has both coordinates, the identity neither. -/
theorem coordinateReads : Obligations.CoordinateReads := fun d a _ =>
  ⟨encodes_fields (i := .pgetx d a) rfl, encodes_fields (i := .pgety d a) rfl,
    fun h => ⟨raises_of_coordinateResult exec_pgetx h, raises_of_coordinateResult exec_pgety h⟩,
    fun _ _ h => ⟨completes_of_coordinateResult exec_pgetx h, completes_of_coordinateResult exec_pgety h⟩⟩

/-- Two points are equal as identities or as pairs of coordinates (10_state.md R26). -/
theorem Point.eq_iff {P Q : Point} : P = Q ↔ (P = .inf ∧ Q = .inf) ∨
    ∃ xa ya xb yb, P = .aff xa ya ∧ Q = .aff xb yb ∧ xa = xb ∧ ya = yb := by
  cases P <;> cases Q <;> simp

/-- Settles O21: each command writes the comparison itself into `T`, and never raises. -/
theorem peqAndPisinf : Obligations.PeqAndPisinf := fun a b s =>
  ⟨encodes_fields (i := .peq a b) rfl, ⟨_, rfl, beq_iff_eq.trans Point.eq_iff, ends_setT s _⟩,
    encodes_fields (i := .pisinf a) rfl, ⟨_, rfl, beq_iff_eq, ends_setT s _⟩⟩

/-- Settles O22: `gen()` is `make_point_integral` of `GEN_X`, `GEN_Y`, and reads the configuration alone. -/
theorem generatorValidated : Obligations.GeneratorValidated := by
  intro d s
  have hx := exec_pgen d s
  refine ⟨encodes_fields (i := .pgen d) rfl, fun hp => ?_, fun hp h => ?_, fun hp h => ?_, fun hcfg => ?_⟩
  · have hgen : s.gen = .error .badConfig := s.gen_eq.trans (State.makePointIntegral_badConfig hp)
    exact ⟨hgen, raises_of_pointResult hx hgen⟩
  · have hgen : s.gen = .error .pointNotOnCurve :=
      s.gen_eq.trans (State.makePointIntegral_pointNotOnCurve hp h)
    exact ⟨hgen, raises_of_pointResult hx hgen⟩
  · obtain ⟨gx, gy, hgx, hgy, hgen⟩ := State.exists_makePointIntegral_ok hp h
    rw [← s.gen_eq] at hgen
    exact ⟨gx, gy, hgx, hgy, hgen, completes_of_pointResult hx hgen⟩
  · rw [State.gen_congr (t := State.reset) hcfg, hcfg]
    exact State.gen_reset

end Sys2Proof.Machine
end

section
/-! PROOFS. The scalar multiplier (43_scalar.md R201, R202): the loop on the identity, its last and its other rounds,
and the command that ends with its answer. -/

namespace Sys2Proof.Machine

/-! ## The loop (R201) -/

section Schedule
variable {s : State} {k : Nat}

/-- The identity is all that the loop can make of the identity. -/
theorem smulLoop_inf_inf (p a : Nat) : ∀ fuel k : Nat, smulLoop p a fuel k .inf .inf = .ok .inf
  | 0, _ => rfl
  | fuel + 1, k => by
    by_cases hk : k = 0
    · rw [hk, smulLoop_zero]
    · have hacc : (if k % 2 = 1 then padd p a .inf .inf else .ok .inf) = .ok .inf := ite_self _
      have haddend : (if k / 2 ≠ 0 then padd p a .inf .inf else .ok .inf) = .ok .inf := ite_self _
      rw [smulLoop_succ p a fuel hk, hacc, haddend]
      exact smulLoop_inf_inf p a fuel (k / 2)

/-- The round of the most significant set bit is the last, and does not double the addend. -/
theorem State.smulLoop_succ (hk : k ≠ 0) (fuel : Nat) (acc addend : Point) :
    smulLoop s.p s.a (fuel + 1) k acc addend =
      (if k % 2 = 1 then s.padd acc addend else .ok acc).bind fun acc' =>
        if k / 2 = 0 then .ok acc'
        else (s.padd addend addend).bind fun addend' => smulLoop s.p s.a fuel (k / 2) acc' addend' := by
  rw [Machine.smulLoop_succ s.p s.a fuel hk]
  congr 1
  funext acc'
  by_cases hlast : k / 2 = 0
  · rw [if_neg (not_not_intro hlast), if_pos hlast, hlast]
    exact smulLoop_zero s.p s.a fuel acc' addend
  · rw [if_pos hlast, if_neg hlast]
    rfl

theorem State.smul_zero (P : Point) : s.smul 0 P = .ok .inf := smulLoop_zero s.p s.a 256 .inf P

theorem State.smul_one (P : Point) : s.smul 1 P = .ok P := smulLoop_one s.p s.a (by decide) .inf P

theorem State.smul_two (P : Point) : s.smul 2 P = s.padd P P := by
  rw [State.smul_eq_loop, smulLoop_two s.p s.a (by decide)]
  exact bind_pure (s.padd P P)

theorem State.smul_inf (k : Nat) : s.smul k .inf = .ok .inf := smulLoop_inf_inf s.p s.a 256 k

theorem State.smul_error {P : Point} {e : ErrKind} (h : s.smul k P = .error e) : e = .divisionByZero :=
  smulLoop_error (s := s) h

theorem State.exists_smul_of_prime (hp : s.p.Prime) (h2 : s.p ≠ 2) (k : Nat) {P : Point} (hP : PointOk s P) :
    ∃ R, s.smul k P = .ok R ∧ PointOk s R := by
  obtain ⟨R, hR⟩ : ∃ R, s.smul k P = .ok R :=
    smulLoop_total (Good := PointOk s) (State.exists_padd_of_prime hp h2) 256 k trivial hP
  exact ⟨R, hR, State.smul_pointOk hp.pos hP hR⟩

end Schedule

/-! ## The command (R202) -/

theorem exec_smul (d a : PIdx) (b : RIdx) (s : State) :
    exec (.smul d a b) s = pointResult d (s.smul (s.val b) (s.pt a)) s := rfl

/-! ## The statements -/

/-- Settles O23: a 256-bit scalar is used up in 256 rounds, each one a step of the loop from the identity. -/
theorem smulSchedule : Obligations.SmulSchedule := fun s P =>
  ⟨s.smul_zero P, s.smul_one P, s.smul_two P, fun k _ => s.smul_inf k, fun _ _ => State.smul_error,
    fun _ _ => smulLoop_fuel s.p s.a, fun fuel _ acc addend hk => State.smulLoop_succ hk fuel acc addend⟩

/-- Settles O24: the command ends with `smul`'s answer for the register's value as it stands. -/
theorem smulMultiplies : Obligations.SmulMultiplies := by
  intro d a b s
  have hx := exec_smul d a b s
  refine ⟨encodes_fields (i := .smul d a b) rfl, fun q => completes_of_pointResult hx,
    fun e he => ⟨State.smul_error he, raises_of_pointResult hx he⟩, fun hp h2 ha => ?_⟩
  obtain ⟨q, hq, hok⟩ := State.exists_smul_of_prime hp h2 (s.val b) ha
  obtain ⟨t, ht, rfl, -⟩ := completes_of_pointResult hx hq
  exact ⟨t, ht, hq, hok⟩

end Sys2Proof.Machine
end

section
/-! PROOFS. The ECDSA engine's commands but `NONCE` (44_ecdsa.md R215 to R217, R225, R230): how a command's end passes
one check or stops at it, what `SIGN` and `VERIFY` compute past their checks, and from these the commands one by one. -/

namespace Sys2Proof.Machine

/-! ## A check at the head of a command's pseudocode -/

section Checks
variable {s : State} {α : Type} {x : Except ErrKind α} {v : α} {e : ErrKind} {c : Bool}

theorem finish_bind_ok (hx : x = .ok v) (f : α → Except ErrKind State) : finish s (x >>= f) = finish s (f v) := by
  subst hx
  rfl

theorem finish_bind_error (hx : x = .error e) (f : α → Except ErrKind State) :
    finish s (x >>= f) = .next (s.completeError e) := by
  subst hx
  rfl

theorem require_of_true (h : c = true) (e : ErrKind) : require c e = .ok () := if_pos h

theorem require_of_false (h : c = false) (e : ErrKind) : require c e = .error e := by
  subst h
  rfl

end Checks

/-! ## The key slot (R215 to R217) -/

section Key
variable {s : State} {a : RIdx}

theorem exec_keygen_mismatch (h : s.tag a ≠ .fn) :
    exec (.keygen a) s = .next (s.completeError .mismatchedField) :=
  finish_bind_error (elemOf_of_ne (f := .n) h) _

theorem exec_keygen_invalidSecret (ha : s.tag a = .fn) (h0 : s.val a = 0) :
    exec (.keygen a) s = .next (s.completeError .invalidSecret) :=
  (finish_bind_ok (elemOf_of_tag (f := .n) ha) _).trans
    (finish_bind_error (require_of_false (by simp [h0]) .invalidSecret) _)

theorem exec_keygen (ha : s.tag a = .fn) (h0 : s.val a ≠ 0) :
    exec (.keygen a) s = finish s do
      let g ← s.gen
      let q ← s.smul (s.val a) g
      return s.setKey ⟨true, (s.reg a).val, q⟩ :=
  (finish_bind_ok (elemOf_of_tag (f := .n) ha) _).trans
    (finish_bind_ok (require_of_true (by simpa using h0) .invalidSecret) _)

theorem completes_keygen (ha : s.tag a = .fn) (h0 : s.val a ≠ 0) {g q : Point} (hg : s.gen = .ok g)
    (hq : s.smul (s.val a) g = .ok q) :
    Completes (.keygen a) s fun t => t.key = ⟨true, (s.reg a).val, q⟩ ∧ WritesKey s t := by
  have hx : exec (.keygen a) s = .next (s.setKey ⟨true, (s.reg a).val, q⟩).complete :=
    (exec_keygen ha h0).trans ((finish_bind_ok hg _).trans (finish_bind_ok hq _))
  exact ⟨_, hx, rfl, ends_setKey s _⟩

theorem State.exists_gen_ok (hp : s.p ≠ 0)
    (h : CurveEq s (s.cfg.genX.toNat % s.p) (s.cfg.genY.toNat % s.p)) : ∃ g, s.gen = .ok g := by
  obtain ⟨gx, gy, -, -, hg⟩ := exists_makePointIntegral_ok hp h
  exact ⟨_, s.gen_eq.trans hg⟩

end Key

/-! ## The inverse of a scalar (00_scope.md R8, 41_field.md R142) -/

section Inverse
variable {m x y z : Nat}

theorem IsInv.gcd_eq_one (h : IsInv m x y) : Nat.gcd x m = 1 := Nat.coprime_of_mul_modEq_one y h.2

theorem IsInv.unique (hy : IsInv m x y) (hz : IsInv m x z) : y = z := by
  obtain ⟨hylt, hxy⟩ := hy
  obtain ⟨hzlt, hxz⟩ := hz
  have hxy : x * y ≡ 1 [MOD m] := hxy
  have hxz : x * z ≡ 1 [MOD m] := hxz
  have hmod : y ≡ z [MOD m] :=
    calc y = y * 1 := (mul_one y).symm
      _ ≡ y * (x * z) [MOD m] := hxz.symm.mul_left y
      _ = z * (x * y) := by ring
      _ ≡ z * 1 [MOD m] := hxy.mul_left z
      _ = z := mul_one z
  exact hmod.eq_of_lt_of_lt hylt hzlt

theorem IsInv.inverter_eq (hm : 0 < m) (h : IsInv m x y) : inverter x m = .ok y := by
  obtain ⟨z, hz, hinv⟩ := exists_inverter_ok hm h.gcd_eq_one
  rw [hinv, hz.unique h]

end Inverse

/-! ## Signing (R225) -/

section Signature
variable {s : State} {k z : Nat} {g : Point}

theorem signature_noKey (hkey : s.key.valid = false) : signature s k z = .error .noKey := by
  rw [signature, require_of_false hkey]
  rfl

section Keyed
variable (hkey : s.key.valid = true) (hg : s.gen = .ok g)
include hkey hg

theorem signature_nonce_zero (h0 : k % s.n = 0) : signature s k z = .error .divisionByZero := by
  rw [signature, require_of_true hkey, hg]
  simp only [h0]
  rfl

/-- Past its checks, `SIGN` is `k'·G`, its abscissa, and the inverse of `k'`. -/
theorem signature_eq (h0 : k % s.n ≠ 0) :
    signature s k z = do
      let x ← s.smul (k % s.n) g >>= pointX
      let i ← inverter (k % s.n) s.n
      return (x % s.n, lowS s.n ((z % s.n + x % s.n * s.key.secret.toNat) % s.n * i % s.n)) := by
  rw [signature, require_of_true hkey, hg, bind_assoc]
  show (require (k % s.n != 0) .divisionByZero >>= _) = _
  rw [require_of_true (by simpa using h0)]
  rfl

variable (h0 : k % s.n ≠ 0)
include h0

theorem signature_smul_error {e : ErrKind} (he : s.smul (k % s.n) g = .error e) : signature s k z = .error e := by
  rw [signature_eq hkey hg h0, he]
  rfl

theorem signature_absentCoordinate (hR : s.smul (k % s.n) g = .ok .inf) :
    signature s k z = .error .absentCoordinate := by
  rw [signature_eq hkey hg h0, hR]
  rfl

variable {x y : Word} (hR : s.smul (k % s.n) g = .ok (.aff x y))
include hR

theorem signature_no_inverse (h : Nat.gcd (k % s.n) s.n ≠ 1) : signature s k z = .error .divisionByZero := by
  rw [signature_eq hkey hg h0, hR, inverter_divisionByZero h]
  rfl

theorem signature_ok {i : Nat} (hi : inverter (k % s.n) s.n = .ok i) :
    signature s k z = .ok (x.toNat % s.n,
      lowS s.n ((z % s.n + x.toNat % s.n * s.key.secret.toNat) % s.n * i % s.n)) := by
  rw [signature_eq hkey hg h0, hR, hi]
  rfl

end Keyed

end Signature

theorem lowS_lt {n v : Nat} (h : v < n) : lowS n v < n := by
  unfold lowS
  split <;> omega

section Sign
variable {d a b c : RIdx} {s : State}

theorem exec_sign (hda : d ≠ a) :
    exec (.sign d a b c) s = finish s do
      let rs ← signature s (s.val b) (s.val c)
      return (s.setElem d .n rs.1).setElem a .n rs.2 :=
  finish_bind_ok (require_of_true (by simpa using hda) .illegalCommand) _

theorem raises_sign (hda : d ≠ a) {e : ErrKind} (he : signature s (s.val b) (s.val c) = .error e) :
    Raises (.sign d a b c) s e :=
  raises_of_exec ((exec_sign hda).trans (finish_bind_error he _))

/-- "Both destinations are written together": two residues of `n`, in two different registers. -/
theorem completes_sign (hda : d ≠ a) {r v : Nat} (hrv : signature s (s.val b) (s.val c) = .ok (r, v)) (hr : r < s.n)
    (hv : v < s.n) :
    Completes (.sign d a b c) s fun t =>
      t.val d = r ∧ t.tag d = .fn ∧ t.val a = v ∧ t.tag a = .fn ∧ WritesRegs s t [d, a] := by
  have hx : exec (.sign d a b c) s = .next ((s.setElem d .n r).setElem a .n v).complete :=
    (exec_sign hda).trans (finish_bind_ok hrv _)
  have hd : ((s.setElem d .n r).setElem a .n v).reg d = (s.setElem d .n r).reg d :=
    State.reg_setReg_of_ne _ _ _ _ hda
  exact ⟨_, hx,
    (congrArg (·.val.toNat) hd).trans (State.val_setElem_self s d .n (lt_of_lt_modOf (f := .n) hr)),
    (congrArg Reg.tag hd).trans (State.tag_setElem_self s d .n r),
    State.val_setElem_self _ a .n (lt_of_lt_modOf (f := .n) hv), State.tag_setElem_self _ a .n v,
    ends_setReg_setReg s d a _ _⟩

end Sign

/-! ## Verification (R230) -/

theorem xEquals_iff {r : Nat} {P : Point} : xEquals r P = true ↔ ∃ x y, P = .aff x y ∧ x.toNat = r := by
  cases P <;> simp [xEquals]

/-- `u·G + v·Q`, the point whose abscissa `VERIFY` compares. -/
def State.combination (s : State) (u v : Nat) (G Q : Point) : Except ErrKind Point := do
  let uG ← s.smul u G
  let vQ ← s.smul v Q
  s.padd uG vQ

section Combination
variable {s : State} {u v : Nat} {G Q uG vQ : Point}

theorem State.combination_eq (hu : s.smul u G = .ok uG) (hv : s.smul v Q = .ok vQ) :
    s.combination u v G Q = s.padd uG vQ := by
  rw [combination, hu, hv]
  rfl

/-- Each of the three point operations fails with `DivisionByZero` alone, so it does not matter which fails first. -/
theorem State.combination_error {e : ErrKind} (h : s.smul u G = .error e ∨ s.smul v Q = .error e ∨
      ∃ uG vQ, s.smul u G = .ok uG ∧ s.smul v Q = .ok vQ ∧ s.padd uG vQ = .error e) :
    e = .divisionByZero ∧ s.combination u v G Q = .error .divisionByZero := by
  obtain he | he | ⟨uG, vQ, hu, hv, he⟩ := h
  · obtain rfl := smul_error he
    rw [combination, he]
    exact ⟨rfl, rfl⟩
  · obtain rfl := smul_error he
    rw [combination, he]
    cases hu : s.smul u G with
    | error e' => exact ⟨rfl, congrArg _ (smul_error hu)⟩
    | ok uG => exact ⟨rfl, rfl⟩
  · obtain rfl := padd_error he
    exact ⟨rfl, (combination_eq hu hv).trans he⟩

end Combination

section SignatureValid
variable {s : State} {Q g : Point} {r v z : Nat}

theorem signatureValid_gen_error {e : ErrKind} (h : s.gen = .error e) : signatureValid s Q r v z = .error e := by
  rw [signatureValid, h]
  rfl

theorem signatureValid_no_inverse (hg : s.gen = .ok g) (h : Nat.gcd v s.n ≠ 1) :
    signatureValid s Q r v z = .error .divisionByZero := by
  rw [signatureValid, hg, inverter_divisionByZero h]
  rfl

theorem signatureValid_eq (hg : s.gen = .ok g) {i : Nat} (hi : inverter v s.n = .ok i) :
    signatureValid s Q r v z = do
      let total ← s.combination (z % s.n * i % s.n) (r * i % s.n) g Q
      return xEquals (r % s.p) total := by
  rw [signatureValid, hg, hi, State.combination]
  simp only [bind_assoc]
  rfl

end SignatureValid

section Verify
variable {d : PIdx} {a b c : RIdx} {s : State} (ha : s.tag a = .fn) (hb : s.tag b = .fn)

theorem exec_verify_mismatch (h : s.tag a ≠ .fn ∨ s.tag b ≠ .fn) :
    exec (.verify d a b c) s = .next (s.completeError .mismatchedField) := finish_elemOf_mismatch (f := .n) h _

include ha hb

theorem exec_verify :
    exec (.verify d a b c) s = finish s do
      let ok ← signatureValid s (s.pt d) (s.val a) (s.val b) (s.val c)
      return s.setT ok :=
  finish_elemOf_ok (f := .n) ha hb _

theorem raises_verify {e : ErrKind} (he : signatureValid s (s.pt d) (s.val a) (s.val b) (s.val c) = .error e) :
    Raises (.verify d a b c) s e :=
  raises_of_exec ((exec_verify ha hb).trans (finish_bind_error he _))

theorem completes_verify {ok : Bool} (hok : signatureValid s (s.pt d) (s.val a) (s.val b) (s.val c) = .ok ok) :
    Completes (.verify d a b c) s fun t => t.t = ok ∧ WritesFlag s t :=
  ⟨_, (exec_verify ha hb).trans (finish_bind_ok hok _), rfl, ends_setT s ok⟩

end Verify

/-! ## The statements -/

/-- Settles O25: four checks in the order written, then one write of the slot; where the group law is total, so is
the command. -/
theorem keygenMakesKey : Obligations.KeygenMakesKey := by
  refine fun a s => ⟨encodes_fields (i := .keygen a) rfl, fun h => raises_of_exec (exec_keygen_mismatch h),
    fun ha h0 => raises_of_exec (exec_keygen_invalidSecret ha h0), fun e ha h0 he => ?_,
    fun g e ha h0 hg he => ⟨State.smul_error he, ?_⟩, fun g q ha h0 => completes_keygen ha h0,
    fun ha h0 hp h2 hcurve => ?_⟩
  · exact raises_of_exec ((exec_keygen ha h0).trans (finish_bind_error he _))
  · exact raises_of_exec ((exec_keygen ha h0).trans ((finish_bind_ok hg _).trans (finish_bind_error he _)))
  · obtain ⟨g, hg⟩ := State.exists_gen_ok hp.ne_zero hcurve
    obtain ⟨-, hgok⟩ := State.gen_pointOk hg
    obtain ⟨q, hq, -⟩ := State.exists_smul_of_prime hp h2 (s.val a) hgok
    obtain ⟨t, ht, hkey, -⟩ := completes_keygen ha h0 hg hq
    exact ⟨t, ht, congrArg KeySlot.valid hkey, congrArg KeySlot.secret hkey⟩

/-- Settles O26: `KEYCLR` is one write of the slot, `PUBKEY` one check and one point write. -/
theorem keyclrAndPubkey : Obligations.KeyclrAndPubkey := fun d s =>
  ⟨encodes_fields (i := .keyclr) rfl, rfl, ⟨_, rfl, rfl, ends_setKey s _⟩, encodes_fields (i := .pubkey d) rfl,
    fun hkey => raises_of_exec (finish_bind_error (require_of_false hkey .noKey) _),
    fun hkey => ⟨_, finish_bind_ok (require_of_true hkey .noKey) _, State.pt_setPt_self s d _, ends_setPt s d _⟩⟩

/-- Settles O30: each check of the signature in the order written; its two results are residues of `n`, so the
registers hold them. -/
theorem signSigns : Obligations.SignSigns := by
  refine fun d a b c s hda => ⟨encodes_fields (i := .sign d a b c) (by simpa [Instr.wf] using hda),
    fun hkey => raises_sign hda (signature_noKey hkey), fun g hkey hn hg =>
    ⟨fun h0 => raises_sign hda (signature_nonce_zero hkey hg h0), fun e h0 he => ⟨State.smul_error he, ?_⟩,
      fun h0 hR => raises_sign hda (signature_absentCoordinate hkey hg h0 hR),
      fun x y h0 hR => ⟨fun hgcd => ?_, fun hgcd => ?_⟩⟩⟩
  · exact raises_sign hda (signature_smul_error hkey hg h0 he)
  · exact raises_sign hda (signature_no_inverse hkey hg h0 hR hgcd)
  · have hpos : 0 < s.n := by omega
    obtain ⟨i, hinv, hi⟩ := exists_inverter_ok hpos hgcd
    obtain ⟨t, ht, hvd, htd, hva, hta, hframe⟩ := completes_sign hda (signature_ok hkey hg h0 hR hi)
      (Nat.mod_lt _ hpos) (lowS_lt (Nat.mod_lt _ hpos))
    exact ⟨t, ht, hvd, htd, hta, ⟨i, _, hinv, rfl, hvd ▸ hva⟩, hframe⟩

/-- Settles O31: the inverse is unique, so the statement's is the inverter's; past it the command compares the
abscissa of one combination of points. -/
theorem verifyJudges : Obligations.VerifyJudges := by
  refine fun d a b c s => ⟨encodes_fields (i := .verify d a b c) rfl,
    fun h => raises_of_exec (exec_verify_mismatch h),
    fun e ha hb he => raises_verify ha hb (signatureValid_gen_error he), fun g ha hb hn hg =>
    ⟨fun hgcd => raises_verify ha hb (signatureValid_no_inverse hg hgcd), fun si hsi => ?_⟩⟩
  have heq := signatureValid_eq (Q := s.pt d) (r := s.val a) (z := s.val c) hg (hsi.inverter_eq hn)
  refine ⟨fun e he => ?_, fun ug vq total hu hv htotal => ?_⟩
  · obtain ⟨rfl, hcomb⟩ := State.combination_error he
    rw [hcomb] at heq
    exact ⟨rfl, raises_verify ha hb heq⟩
  · rw [State.combination_eq hu hv, htotal] at heq
    obtain ⟨t, ht, hflag, hframe⟩ := completes_verify ha hb heq
    exact ⟨t, ht, by rw [hflag, xEquals_iff], hframe⟩

end Sys2Proof.Machine
end

section
/-! PROOFS. Acceptance (70_reset_and_hazards.md R320) and what the busy rule (20_memory.md R70) leaves the host to
change until completion. -/

namespace Sys2Proof.Machine

/-- While a command runs, an access is answered and no more, unless it is a write to `CTRL` (R70). -/
theorem busStep_busy_cases {s : State} (hbusy : s.busy = true) (a : Access) :
    (∃ r, busStep s a = s.respond r) ∨ ∃ v, a = .write 0x00C 4 v := by
  obtain hr | ⟨_, _, -, -, -, hr⟩ | ⟨off, l, v, rfl, hl, -, hb, -⟩ := busStep_cases s a
  · exact .inl ⟨_, hr⟩
  · exact .inl ⟨_, hr⟩
  · obtain ⟨-, -, hctrl, -⟩ := locAt_bits hl
    obtain rfl := hctrl (hb.resolve_left (by simp [hbusy]))
    exact .inr ⟨v, rfl⟩

theorem irq_accept (s : State) (w : HWord) : (s.accept w).irq = false := Bool.and_false _

/-- Settles O43: only a `CTRL` write reaches a busy block, and one that leaves it busy is no soft reset, so it sets
`IE` alone. -/
theorem acceptance : Obligations.Acceptance := by
  refine ⟨fun s w rest hidle he => ⟨_, step_cmd_write hidle he, irq_accept { s with events := rest } w, rfl⟩,
    fun s w rest hbusy he => (step_bus he).trans (congrArg _ ?_), fun s a hbusy hstill => ?_⟩
  · exact busStep_write_refused fun _ _ _ => ⟨hbusy, by decide⟩
  · obtain ⟨r, hr⟩ | ⟨v, rfl⟩ := busStep_busy_cases hbusy a
    · rw [hr]
      rfl
    · cases hv : v.getLsbD 1 with
      | true =>
        rw [busStep_srst s hv] at hstill
        cases hstill
      | false => rw [busStep_ctrl_ie s hv]

end Sys2Proof.Machine
end

section
/-! PROOFS. Command words (30_encoding.md R90 to R93): decoding and encoding are inverse, the words that decode are the
legal ones of the opcode map, and a step at the sequencer's turn runs what `CMD` decodes to. -/

namespace Sys2Proof.Machine

/-! ## A legal word decodes (R92) -/

theorem ptField_of_le {n : Nat} (h : n ≤ 3) : ptField n = .ok ⟨n, Nat.lt_succ_of_le h⟩ :=
  ptField_val ⟨n, Nat.lt_succ_of_le h⟩

theorem regField_ne {m n : Nat} (hm : m < 16) (hn : n < 16) (h : m ≠ n) : regField m ≠ regField n := by
  intro he
  rw [← regField_of_lt hm, ← regField_of_lt hn, he] at h
  exact h rfl

/-- Row by row of R93, fields that fit the row pass the checks of its opcode, without its modifier bit and with it. -/
theorem exists_decodeFields_of_fits {f : Fields} (hf : f.InRange) {r : OpRow} (hr : r ∈ opcodeMap) (h : r.Fits f) :
    ∃ i, decodeFields f = .ok i := by
  obtain ⟨op, d, a, b, c, fn⟩ := f
  obtain ⟨-, hd, ha, -⟩ := hf
  obtain ⟨hop, h1, h2, h3, h4, hfn, hsign⟩ := h
  have hda : r.op = 0x44 → regField d ≠ regField a := fun h => regField_ne hd ha (hsign h)
  clear hd ha hsign
  fin_cases hr
  all_goals
    simp only [Role.ok] at hop h1 h2 h3 h4 hfn hda
    obtain rfl | rfl := hfn
    all_goals
      simp [decodeFields, unusedZero, noModifier, oneModifier, ptField_of_le, bind, Except.bind, pure, Except.pure, *]

theorem exists_decode_of_legalWord {w : HWord} (h : LegalWord w) : ∃ i, decode w = .ok i := by
  obtain ⟨r, hr, hfits⟩ := legalWord_iff.1 h
  exact exists_decodeFields_of_fits (fieldsOf_inRange w) hr hfits

theorem decode_of_decodeTableWord {nbits w : Nat} {i : Instr} (h : decodeTableWord nbits w = some i) :
    decode (BitVec.ofNat 32 (w % 2 ^ nbits)) = .ok i := by
  unfold decodeTableWord at h
  cases hd : decode (BitVec.ofNat 32 (w % 2 ^ nbits)) with
  | error r => rw [hd] at h; cases h
  | ok j => rw [hd] at h; cases h; rfl

theorem step_decoded {s : State} {i : Instr} (hbusy : s.busy = true) (hseq : s.sequencerNext = true)
    (hi : decode s.cmd = .ok i) : step s = exec i { s with events := s.events.tail } :=
  (step_busy hbusy hseq).trans (runCommand_ok hi)

/-! ## The statements -/

/-- Settles O34: each row's checks pass the instruction's own fields, and each field reads back. -/
theorem decodeEncode : Obligations.DecodeEncode := fun _ hwf => encodes_fields hwf

/-- Settles O35: the checks leave each field of the word either in the instruction or 0. -/
theorem encodeDecode : Obligations.EncodeDecode := fun _ _ h => encode_of_decode h

/-- Settles O36: a decoded word is the encoding of a well-formed instruction, which is legal; conversely the checks
of an opcode are its row's conditions. -/
theorem legalWordsDecode : Obligations.LegalWordsDecode := fun _ =>
  ⟨fun ⟨_, hi⟩ => legalWord_of_decode hi, exists_decode_of_legalWord⟩

/-- Settles O37: closed evaluations of the decoder. -/
theorem specWordsDecode : Obligations.SpecWordsDecode := by
  unfold Obligations.SpecWordsDecode
  decide

/-- Settles O33: a busy turn runs the word in `CMD`, and an accepted word stands there. -/
theorem stepRunsDecodedCommand : Obligations.StepRunsDecodedCommand :=
  ⟨fun _ _ => step_decoded, fun s nbits w _ h =>
    step_decoded (s := s.withFetchWord nbits w) rfl rfl (decode_of_decodeTableWord h)⟩

end Sys2Proof.Machine
end

section
/-! PROOFS. How a step can end: every turn of a command as one of four ends, every step as one of five. From these, that
no step stops, that commands end whole, and what `T` and the key slot can change by. -/

namespace Sys2Proof.Machine

/-! ## The end of a command's turn -/

/-- What one turn of the command `i` leaves: its writes and completion, an error completion, and for `NONCE` the
search's hit or its miss (60_exceptions.md R280, 70_reset_and_hazards.md R322, R324). -/
inductive TurnEnd (i : Instr) (s : State) : State → Prop
  | writes {w : State} : Wr s i w → TurnEnd i s w.complete
  | raises {e : ErrKind} : e ≠ .invalidEncoding → TurnEnd i s (s.completeError e)
  | hit {d : RIdx} (r : NonceRegs) : i = .nonce d → nonceCheck s = .ok () →
      TurnEnd i s ({ s with nonce := r }.setReg d ⟨r.T, .int⟩).complete
  | miss {d : RIdx} (r : NonceRegs) : i = .nonce d → nonceCheck s = .ok () →
      TurnEnd i s { s with nonce := r, nPhase := .gen }

theorem exists_turnEnd_of_finish {i : Instr} {s : State} {r : Except ErrKind State} (h : Res (Wr s i) r) :
    ∃ t, finish s r = .next t ∧ TurnEnd i s t := by
  cases h with
  | ok hw => exact ⟨_, rfl, .writes hw⟩
  | err he => exact ⟨_, rfl, .raises he⟩

theorem exists_turnEnd_nonce (d : RIdx) (s : State) :
    ∃ t, exec (.nonce d) s = .next t ∧ TurnEnd (.nonce d) s t := by
  obtain ⟨e, he, -, hx⟩ | ⟨hc, r, hx⟩ | ⟨hc, r, hx⟩ := nonce_cases d s hashProvider
  · exact ⟨_, hx, .raises (by rcases he with rfl | rfl <;> decide)⟩
  · exact ⟨_, hx, .hit r rfl hc⟩
  · exact ⟨_, hx, .miss r rfl hc⟩

theorem exists_turnEnd (i : Instr) (s : State) : ∃ t, exec i s = .next t ∧ TurnEnd i s t := by
  cases hi : isNonce i with
  | false =>
    obtain ⟨r, hx, hr⟩ := exec_res i s hi
    rw [hx]
    exact exists_turnEnd_of_finish hr
  | true =>
    cases i with
    | nonce d => exact exists_turnEnd_nonce d s
    | _ => cases hi

theorem turnEnd_of_exec {i : Instr} {s t : State} (h : exec i s = .next t) : TurnEnd i s t := by
  obtain ⟨t', hx, ht⟩ := exists_turnEnd i s
  rw [hx] at h
  cases h
  exact ht

/-- A hit is a command's end in a state that differs in the hidden registers alone. -/
theorem ends_hit (s : State) (d : RIdx) (r : NonceRegs) :
    Ends { s with nonce := r } ({ s with nonce := r }.setReg d ⟨r.T, .int⟩).complete [d] [] false false :=
  ends_setReg { s with nonce := r } d _

section Command
variable {i : Instr} {s t : State}

/-- A turn keeps the configuration, and all that is not the command's destination (30_encoding.md R93). -/
theorem TurnEnd.frame (h : TurnEnd i s t) : t.cfg = s.cfg ∧ (∀ j, j ∉ ptDests i → t.pt j = s.pt j) ∧
    (writesKey i = false → t.key = s.key) ∧ (isPredicate i = false → t.t = s.t) := by
  cases h with
  | writes hw =>
    have hends := wr_ends hw
    exact ⟨hends.cfg, hends.pts, hends.key, hends.flag⟩
  | raises _ | hit _ _ _ | miss _ _ _ => exact ⟨rfl, fun _ _ => rfl, fun _ => rfl, fun _ => rfl⟩

/-- Only normal completion writes `T`, and it leaves `ERR`. -/
theorem TurnEnd.flag_cases (h : TurnEnd i s t) :
    t.t = s.t ∨ (t.busy = false ∧ t.done = true ∧ t.err = s.err) := by
  cases h with
  | writes hw =>
    have hends := wr_ends hw
    exact .inr ⟨hends.busy, hends.done, hends.err⟩
  | raises _ | hit _ _ _ | miss _ _ _ => exact .inl rfl

variable (h : exec i s = .next t)
include h

theorem exec_keeps_cfg : t.cfg = s.cfg := by
  obtain ⟨hcfg, -⟩ := (turnEnd_of_exec h).frame
  exact hcfg

theorem exec_keeps_pts (hi : ptDests i = []) (j : PIdx) : t.pt j = s.pt j := by
  obtain ⟨-, hpts, -⟩ := (turnEnd_of_exec h).frame
  exact hpts j (by simp [hi])

theorem exec_keeps_key (hi : writesKey i = false) : t.key = s.key := by
  obtain ⟨-, -, hkey, -⟩ := (turnEnd_of_exec h).frame
  exact hkey hi

theorem exec_keeps_flag (hi : isPredicate i = false) : t.t = s.t := by
  obtain ⟨-, -, -, hflag⟩ := (turnEnd_of_exec h).frame
  exact hflag hi

theorem exec_error_keeps_flag (hs : s.err = false) (ht : t.err = true) : t.t = s.t := by
  obtain hflag | ⟨-, -, herr⟩ := (turnEnd_of_exec h).flag_cases
  · exact hflag
  · rw [herr, hs] at ht
    cases ht

theorem exec_completed_of_flag (hs : s.err = false) (hflag : t.t ≠ s.t) :
    t.busy = false ∧ t.done = true ∧ t.err = false := by
  obtain ⟨hbusy, hdone, herr⟩ := (turnEnd_of_exec h).flag_cases.resolve_left hflag
  exact ⟨hbusy, hdone, herr.trans hs⟩

end Command

/-- `KEYGEN` sets the slot past all its checks (44_ecdsa.md R215), and otherwise leaves it. -/
theorem exec_keygen_key {a : RIdx} {s t : State} (h : exec (.keygen a) s = .next t) :
    t.key = s.key ∨ ∃ g q, s.tag a = .fn ∧ s.val a ≠ 0 ∧ s.gen = .ok g ∧ s.smul (s.val a) g = .ok q ∧
      t.key = ⟨true, (s.reg a).val, q⟩ := by
  by_cases ha : s.tag a = .fn
  case neg =>
    rw [exec_keygen_mismatch ha] at h
    cases h
    exact .inl rfl
  by_cases h0 : s.val a = 0
  · rw [exec_keygen_invalidSecret ha h0] at h
    cases h
    exact .inl rfl
  rw [exec_keygen ha h0] at h
  cases hg : s.gen with
  | error e =>
    rw [finish_bind_error hg] at h
    cases h
    exact .inl rfl
  | ok g =>
    rw [finish_bind_ok hg] at h
    cases hq : s.smul (s.val a) g with
    | error e =>
      rw [finish_bind_error hq] at h
      cases h
      exact .inl rfl
    | ok q =>
      rw [finish_bind_ok hq] at h
      cases h
      exact .inr ⟨g, q, ha, h0, rfl, hq, rfl⟩

theorem exec_keyclr_key {s t : State} (h : exec .keyclr s = .next t) : t.key = KeySlot.empty := by
  cases h
  rfl

/-! ## The end of a step -/

/-- The state with the event at the head of `events` taken. -/
def State.consume (s : State) : State := { s with events := s.events.tail }

theorem step_access {s : State} {a : Access} {rest : List Event} (he : s.events = .bus a :: rest) :
    step s = .next (busStep s.consume a) := by
  rw [step_bus he, State.consume, he, List.tail_cons]

/-- What one step leaves (20_memory.md R72): an idle sequencer's turn, an illegal word, a command's turn, an access of
the host, `RESET`. -/
inductive StepEnd (s : State) : State → Prop
  | idle : s.busy = false → StepEnd s s.consume
  | illegal : s.busy = true → StepEnd s (s.consume.completeError .illegalCommand)
  | command {i : Instr} {t : State} : s.busy = true → decode s.cmd = .ok i → exec i s.consume = .next t → StepEnd s t
  | access {a : Access} {rest : List Event} : s.events = .bus a :: rest → StepEnd s (busStep s.consume a)
  | reset {rest : List Event} : s.events = .reset :: rest → StepEnd s { State.reset with events := rest }

theorem exists_stepEnd_busy {s : State} (hbusy : s.busy = true) :
    ∃ t, runCommand s.consume = .next t ∧ StepEnd s t := by
  cases hd : decode s.cmd with
  | error r => exact ⟨_, runCommand_illegal (s := s.consume) hd, .illegal hbusy⟩
  | ok i =>
    obtain ⟨t, hx, -⟩ := exists_turnEnd i s.consume
    exact ⟨t, (runCommand_ok (s := s.consume) hd).trans hx, .command hbusy hd hx⟩

theorem exists_stepEnd (s : State) : ∃ t, step s = .next t ∧ StepEnd s t := by
  obtain ⟨-, hx⟩ | ⟨a, rest, he, -⟩ | ⟨rest, he, hx⟩ := step_cases s
  · cases hbusy : s.busy with
    | false => exact ⟨_, hx.trans (sequencerTurn_idle hbusy), .idle hbusy⟩
    | true =>
      obtain ⟨t, ht, hend⟩ := exists_stepEnd_busy hbusy
      exact ⟨t, hx.trans ((sequencerTurn_busy (s := s.consume) hbusy).trans ht), hend⟩
  · exact ⟨_, step_access he, .access he⟩
  · exact ⟨_, hx, .reset he⟩

theorem stepEnd_of_step {s t : State} (h : step s = .next t) : StepEnd s t := by
  obtain ⟨t', hx, ht⟩ := exists_stepEnd s
  rw [hx] at h
  cases h
  exact ht

/-! ## What an access leaves of `T` and of the key slot -/

section Accesses
variable {s : State} {a : Access}

theorem writeLoc_flag {l : Loc} {v : HWord} (h : (writeLoc s l v).t = true) : s.t = true := by
  cases l with
  | cmd => cases h
  | status =>
    cases hv : v.getLsbD 1 with
    | true => rwa [writeLoc_status_done hv] at h
    | false => rwa [writeLoc_status_keep hv] at h
  | ctrl =>
    cases hv : v.getLsbD 1 with
    | true => rw [writeLoc_ctrl_srst hv] at h; cases h
    | false => rwa [writeLoc_ctrl_ie hv] at h
  | _ => exact h

theorem busStep_flag (h : (busStep s a).t = true) : s.t = true := by
  obtain hr | ⟨_, _, -, -, -, hr⟩ | ⟨_, _, _, -, -, -, -, hr⟩ := busStep_cases s a <;> rw [hr] at h
  · exact h
  · exact h
  · exact writeLoc_flag h

/-- A write leaves the key slot, but for a soft reset (70_reset_and_hazards.md R311) and demotion (10_state.md R37). -/
theorem writeLoc_key (s : State) (l : Loc) (v : HWord) : (writeLoc s l v).key = s.key ∨
    ((writeLoc s l v).key = KeySlot.empty ∧ ((l = .ctrl ∧ v.getLsbD 1 = true) ∨ ∃ c w, l = .cfg c w)) := by
  cases l with
  | status =>
    cases hv : v.getLsbD 1 with
    | true => exact .inl (by rw [writeLoc_status_done hv])
    | false => exact .inl (by rw [writeLoc_status_keep hv])
  | ctrl =>
    cases hv : v.getLsbD 1 with
    | true => exact .inr ⟨by rw [writeLoc_ctrl_srst hv]; rfl, .inl ⟨rfl, rfl⟩⟩
    | false => exact .inl (by rw [writeLoc_ctrl_ie hv])
  | cfg c w => exact .inr ⟨rfl, .inr ⟨c, w, rfl⟩⟩
  | _ => exact .inl rfl

theorem busStep_key (s : State) (a : Access) : (busStep s a).key = s.key ∨
    ((busStep s a).key = KeySlot.empty ∧ ((∃ v, a = .write 0x00C 4 v ∧ v.getLsbD 1 = true) ∨
      ∃ c w v, a = .write (cfgOffset c w) 4 v ∧ s.busy = false)) := by
  obtain hr | ⟨_, _, -, -, -, hr⟩ | ⟨off, l, v, rfl, hl, -, hb, hr⟩ := busStep_cases s a <;> rw [hr]
  · exact .inl rfl
  · exact .inl rfl
  · obtain hkey | ⟨hkey, ⟨rfl, hv⟩ | ⟨c, w, rfl⟩⟩ := writeLoc_key s l v
    · exact .inl hkey
    · obtain ⟨-, -, hctrl⟩ := locAt_bits hl
      obtain rfl := hctrl.1 rfl
      exact .inr ⟨hkey, .inl ⟨v, rfl, hv⟩⟩
    · obtain rfl := cfgOffset_of_locAt hl
      exact .inr ⟨hkey, .inr ⟨c, w, v, rfl, by simpa [Loc.writableBusy] using hb⟩⟩

end Accesses

/-! ## The statements -/

/-- Settles O40: each of the five ends is a next state. -/
theorem stepNeverStops : Obligations.StepNeverStops := fun s =>
  let ⟨t, hx, _⟩ := exists_stepEnd s
  ⟨t, hx⟩

/-- Settles O41: a command's writes stay within its destinations, and an error completion has none. -/
theorem commandsEndWhole : Obligations.CommandsEndWhole := by
  refine ⟨fun i s hi => ?_, fun d s => ?_⟩
  · obtain ⟨r, hx, hr⟩ := exec_res i s hi
    cases hr with
    | ok hw => exact .inl ⟨_, hx, wr_ends hw⟩
    | err he => exact .inr ⟨_, he, raises_of_exec hx⟩
  · obtain ⟨e, he, -, hx⟩ | ⟨-, r, hx⟩ | ⟨-, r, hx⟩ := nonce_cases d s hashProvider
    · exact .inr (.inr ⟨e, by rcases he with rfl | rfl <;> decide, raises_of_exec hx⟩)
    · exact .inl ⟨_, hx, ends_hit s d r⟩
    · exact .inr (.inl ⟨_, hx, rfl⟩)

/-- Settles O53: of a command's destinations `T` is a predicate's alone; the host can only clear it. -/
theorem predicateFlag : Obligations.PredicateFlag := by
  refine ⟨fun _ _ _ h => exec_keeps_flag h, fun _ _ _ h => exec_error_keeps_flag h, fun s t hinv h ht => ?_⟩
  by_cases hs : s.t = true
  · exact .inl hs
  refine .inr ?_
  cases stepEnd_of_step h with
  | idle _ => exact absurd ht hs
  | illegal _ => exact absurd ht hs
  | access _ => exact absurd (busStep_flag ht) hs
  | reset _ => cases ht
  | @command i t hbusy hi hx =>
    obtain ⟨-, herr, -, hclear⟩ := hinv.status.1 hbusy
    have hflag : t.t ≠ s.consume.t := fun he => hs (he.symm.trans ht)
    have hpred : isPredicate i = true := by
      by_contra hn
      exact hflag (exec_keeps_flag hx (by simpa using hn))
    exact ⟨i, hi, hpred, hbusy, exec_completed_of_flag hx herr hflag⟩

/-- Settles O54: of the commands only `KEYGEN` and `KEYCLR` write the slot, of the accesses only a soft reset and a
configuration write. -/
theorem keyLifetime : Obligations.KeyLifetime := by
  intro s t h
  cases stepEnd_of_step h with
  | idle _ => exact .inl rfl
  | illegal _ => exact .inl rfl
  | @reset rest he => exact .inr (.inl ⟨rfl, .inl ⟨rest, he⟩⟩)
  | @access a rest he =>
    obtain hkey | ⟨hkey, ⟨v, rfl, hv⟩ | ⟨c, w, v, rfl, hidle⟩⟩ := busStep_key s.consume a
    · exact .inl hkey
    · exact .inr (.inl ⟨hkey, .inr (.inl ⟨v, rest, he, hv⟩)⟩)
    · exact .inr (.inl ⟨hkey, .inr (.inr (.inl ⟨c, w, v, rest, he, hidle⟩))⟩)
  | @command i t hbusy hi hx =>
    cases i with
    | keyclr => exact .inr (.inl ⟨exec_keyclr_key hx, .inr (.inr (.inr ⟨hbusy, hi⟩))⟩)
    | keygen a =>
      obtain hkey | ⟨g, q, ha, h0, hg, hq, hkey⟩ := exec_keygen_key hx
      · exact .inl hkey
      · exact .inr (.inr ⟨hbusy, a, g, q, hi, ha, h0, hg, hq, hkey⟩)
    | _ => exact .inl (exec_keeps_key (s := s.consume) hx rfl)

end Sys2Proof.Machine
end

section
/-! PROOFS. The invariant (10_state.md R23, R25, R27, R28, R42): it holds at reset, and each of the ends of a step keeps
it; then the execution interval (70_reset_and_hazards.md R321). -/

namespace Sys2Proof.Machine

/-! ## The host's steps -/

/-- Neither what is pending nor what was answered is part of the invariant. -/
theorem Inv.with_pending {s : State} (h : Inv s) (es : List Event) (r : Option Response) :
    Inv { s with events := es, response := r } :=
  ⟨h.regs, h.pts, h.key, h.status, h.mem, h.nonce⟩

theorem Inv.consume {s : State} (h : Inv s) : Inv s.consume := h.with_pending _ s.response

theorem Inv.respond {s : State} (h : Inv s) (r : Response) : Inv (s.respond r) := h.with_pending s.events _

theorem inv_reset : Inv State.reset where
  regs i := by
    rw [State.reg_reset]
    exact regOk_int _ _
  pts j := by
    rw [State.pt_reset]
    trivial
  key := ⟨fun _ => rfl, fun h => nomatch h⟩
  status := ⟨(fun h => nomatch h), by decide, by decide, by decide⟩
  mem := ⟨rfl, rfl⟩
  nonce := .inl rfl

/-- An idle block's nonce generator stands at `N_CHECK` (44_ecdsa.md R221). -/
theorem Inv.nPhase_of_idle {s : State} (h : Inv s) (hidle : s.busy = false) : s.nPhase = .check := by
  obtain hcheck | ⟨-, hbusy, -⟩ := h.nonce
  · exact hcheck
  · rw [hidle] at hbusy
    cases hbusy

/-- A step of an idle block that leaves the error bits and the generator keeps the invariant if it keeps the data. -/
theorem Inv.of_idle {s t : State} (hs : Inv s) (hidle : s.busy = false) (ht : InvData t) (hbusy : t.busy = s.busy)
    (herr : t.err = s.err) (hcode : t.errcode = s.errcode) (hphase : t.nPhase = s.nPhase) : Inv t := by
  obtain ⟨hregs, hpts, hkey, hmem⟩ := ht
  obtain ⟨-, hiff, hne, hle⟩ := hs.status
  refine ⟨hregs, hpts, hkey, ⟨fun h => ?_, ?_, ?_, ?_⟩, hmem, .inl (hphase.trans (hs.nPhase_of_idle hidle))⟩
  · rw [hbusy, hidle] at h
    cases h
  · rwa [herr, hcode]
  · rwa [hcode]
  · rwa [hcode]

theorem Inv.accept {s : State} (h : Inv s) (w : HWord) : Inv (s.accept w) :=
  ⟨h.regs, h.pts, h.key, ⟨fun _ => ⟨rfl, rfl, rfl, rfl⟩, by simp, by simp, by simp⟩, h.mem, .inl rfl⟩

/-- Each accepted write (20_memory.md R64 to R68); while busy only `CTRL` accepts one (R70). -/
theorem Inv.writeLoc {s : State} (h : Inv s) {l : Loc} (hb : s.busy = false ∨ l.writableBusy = true) (v : HWord) :
    Inv (writeLoc s l v) := by
  have idle : l ≠ .ctrl → s.busy = false := fun hl => hb.resolve_right (mt Loc.writableBusy_iff.1 hl)
  cases l with
  | cmd => exact h.accept v
  | status =>
    cases hv : v.getLsbD 1 with
    | true =>
      rw [writeLoc_status_done hv]
      exact h.of_idle (idle (by simp)) h.data rfl rfl rfl rfl
    | false => rwa [writeLoc_status_keep hv]
  | ctrl =>
    cases hv : v.getLsbD 1 with
    | true =>
      rw [writeLoc_ctrl_srst hv]
      exact inv_reset.with_pending s.events none
    | false =>
      rw [writeLoc_ctrl_ie hv]
      exact ⟨h.regs, h.pts, h.key, h.status, h.mem, h.nonce⟩
  | msgLen => exact h.of_idle (idle (by simp)) h.data rfl rfl rfl rfl
  | cfg c w => exact h.of_idle (idle (by simp)) (InvData.demote h.mem _) rfl rfl rfl rfl
  | reg i w => exact h.of_idle (idle (by simp)) (h.data.setReg i (regOk_int s _)) rfl rfl rfl rfl
  | msg q => exact h.of_idle (idle (by simp)) ⟨h.regs, h.pts, h.key, h.mem.writeMsg q v⟩ rfl rfl rfl rfl
  | id | errcmd | rtag | ptX | ptY | ptInf => exact h

theorem Inv.busStep {s : State} (h : Inv s) (a : Access) : Inv (busStep s a) := by
  obtain hr | ⟨_, _, -, -, -, hr⟩ | ⟨_, _, _, -, -, -, hb, hr⟩ := busStep_cases s a <;> rw [hr]
  · exact h.respond _
  · exact h.respond _
  · exact (h.writeLoc hb _).respond _

/-! ## The sequencer's turns -/

/-- A search goes on only past the checks of `N_CHECK`, made then or when it began (44_ecdsa.md R221). -/
theorem Inv.checked {s : State} (h : Inv s) (hc : nonceCheck s = .ok ()) :
    s.key.valid = true ∧ s.msgLen.toNat ≤ Config.MSG_MAX := by
  unfold nonceCheck at hc
  split_ifs at hc with hgen hkey hlen
  · obtain hcheck | ⟨-, -, -, hkey, hlen⟩ := h.nonce
    · rw [hgen] at hcheck
      cases hcheck
    · exact ⟨hkey, hlen⟩
  · exact ⟨by simpa using hkey, Nat.le_of_not_lt hlen⟩

theorem Inv.turnEnd {i : Instr} {s t : State} (h : Inv s) (hbusy : s.busy = true) (hi : decode s.cmd = .ok i)
    (ht : TurnEnd i s t) : Inv t := by
  cases ht with
  | writes hw =>
    obtain ⟨hdata, herr, hcode⟩ := wr_data hw h.data
    exact h.complete hbusy hdata herr hcode
  | raises he => exact h.completeError he
  | hit r _ _ =>
    have hdata : InvData { s with nonce := r } := h.data
    exact h.complete hbusy (hdata.setReg _ (regOk_int _ _)) rfl rfl
  | miss r hnonce hc =>
    obtain ⟨hkey, hlen⟩ := h.checked hc
    exact ⟨h.regs, h.pts, h.key, h.status, h.mem, .inr ⟨rfl, hbusy, ⟨_, hnonce ▸ hi⟩, hkey, hlen⟩⟩

theorem Inv.stepEnd {s t : State} (h : Inv s) (ht : StepEnd s t) : Inv t := by
  cases ht with
  | idle _ => exact h.consume
  | illegal _ => exact h.consume.completeError (by decide)
  | command hbusy hi hx => exact h.consume.turnEnd hbusy hi (turnEnd_of_exec hx)
  | access _ => exact h.consume.busStep _
  | reset _ => exact inv_reset.with_pending _ none

/-! ## The execution interval (R321) -/

theorem Inv.statusWord_of_busy {s : State} (h : Inv s) (hbusy : s.busy = true) :
    s.statusWord = BitVec.ofNat 32 (1 + 16 * s.key.valid.toNat) := by
  obtain ⟨hdone, herr, hcode, ht⟩ := h.status.1 hbusy
  simp [State.statusWord, hbusy, hdone, herr, hcode, ht]

/-- Of a command's ends only the miss of a search leaves the block busy. -/
theorem TurnEnd.eq_of_busy {i : Instr} {s t : State} (h : TurnEnd i s t) (hbusy : t.busy = true) :
    t = { s with nonce := t.nonce, nPhase := t.nPhase } := by
  cases h with
  | writes _ => cases hbusy
  | raises _ => cases hbusy
  | hit _ _ _ => cases hbusy
  | miss _ _ _ => rfl

/-! ## The statements -/

/-- Settles O38: the invariant says nothing of what is pending, and every end of a step keeps the rest. -/
theorem invariantKept : Obligations.InvariantKept := fun _ _ hs h => hs.stepEnd (stepEnd_of_step h)

/-- Settles O39: the reset state has `INT` registers, identities, no key, and an empty buffer. -/
theorem invariantAtReset : Obligations.InvariantAtReset := inv_reset

/-- Settles O42: a busy block's other bits are 0 by the invariant, and of the ends of a step that leave it busy one is
a miss, one an access that is answered or sets `IE`. -/
theorem executionInterval : Obligations.ExecutionInterval := by
  refine fun s hinv hbusy => ⟨hinv.statusWord_of_busy hbusy, fun t h hstill => ?_⟩
  cases stepEnd_of_step h with
  | idle hidle =>
    rw [hbusy] at hidle
    cases hidle
  | illegal _ => cases hstill
  | command _ _ hx =>
    rw [(turnEnd_of_exec hx).eq_of_busy hstill]
    rfl
  | access _ =>
    obtain ⟨-, -, hframe⟩ := acceptance
    rw [hframe s.consume _ hbusy hstill]
    rfl
  | reset _ => cases hstill

end Sys2Proof.Machine
end

section
/-! PROOFS. Points on the curve for a prime `MOD_P` (10_state.md R25, 42_point.md R176): the group law keeps the curve
equation, in the field `ZMod p`; then so does every command that writes a point, and every step. -/

namespace Sys2Proof.Machine

/-! ## The chord and the tangent meet the curve again -/

section Algebra
variable {K : Type} [Field K] {a b l x1 y1 x2 y2 : K}

/-- The tangent's third point: on the tangent, the cubic minus the square of the line has the double root `x1`. -/
theorem tangent_third_root (h1 : y1 ^ 2 = x1 ^ 3 + a * x1 + b) (hl : 2 * y1 * l = 3 * x1 ^ 2 + a) {x3 : K}
    (h3 : x3 = l ^ 2 - x1 - x1) : (l * (x1 - x3) - y1) ^ 2 = x3 ^ 3 + a * x3 + b := by
  subst h3
  linear_combination h1 + (l ^ 2 - x1 - x1 - x1) * hl

/-- The chord's third point: along the chord, the cubic minus the square of the line has the roots `x1` and `x2`, so
it is `(x - x1)` times a quadratic with the root `x2`. -/
theorem chord_third_root (h1 : y1 ^ 2 = x1 ^ 3 + a * x1 + b) (h2 : y2 ^ 2 = x2 ^ 3 + a * x2 + b) (hne : x1 ≠ x2)
    (hl : (x2 - x1) * l = y2 - y1) {x3 : K} (h3 : x3 = l ^ 2 - x1 - x2) :
    (l * (x1 - x3) - y1) ^ 2 = x3 ^ 3 + a * x3 + b := by
  obtain rfl : y2 = (x2 - x1) * l + y1 := by rw [hl, sub_add_cancel]
  have hquadratic : x2 ^ 2 + x2 * x1 + x1 ^ 2 + a - l ^ 2 * (x2 - x1) - 2 * l * y1 = 0 := by
    apply mul_left_cancel₀ (sub_ne_zero.2 hne.symm)
    linear_combination h1 - h2
  subst h3
  linear_combination h1 - (l ^ 2 - x1 - x2 - x1) * hquadratic

end Algebra

/-! ## The datapath's functions in the field of residues -/

section Residues
variable {p a b l x1 y1 x2 y2 : Nat}

theorem onCurve_iff_zmod : onCurve p a b x1 y1 = true ↔ (y1 : ZMod p) ^ 2 = (x1 : ZMod p) ^ 3 + a * x1 + b := by
  rw [Machine.onCurve, beq_iff_eq, ← ZMod.natCast_eq_natCast_iff']
  push_cast
  rw [pow_two, pow_three']

theorem divMod_zmod {x y : Nat} (hp : 0 < p) (h : divMod p x y = .ok l) : (y * l : ZMod p) = x := by
  by_cases hg : Nat.gcd y p = 1
  · obtain ⟨l', hl', hlaw⟩ := divMod_ok (x := x) hp hg
    rw [h] at hl'
    cases hl'
    exact_mod_cast (ZMod.natCast_eq_natCast_iff _ _ _).2 hlaw
  · rw [divMod_divisionByZero hg] at h
    cases h

theorem tangentSlope_zmod (hp : 0 < p) (h : tangentSlope p a x1 y1 = .ok l) :
    (2 * y1 * l : ZMod p) = 3 * x1 ^ 2 + a := by
  have hlaw := divMod_zmod hp h
  simp only [ZMod.natCast_mod] at hlaw
  push_cast at hlaw
  rw [hlaw]
  ring

theorem chordSlope_zmod (hp : 0 < p) (h : chordSlope p x1 y1 x2 y2 = .ok l) :
    ((x2 - x1) * l : ZMod p) = y2 - y1 := by
  have hlaw := divMod_zmod hp h
  rwa [subMod_cast hp, subMod_cast hp] at hlaw

/-- A third point is on the curve if the formulas' one is. -/
theorem onCurve_thirdPoint (hp : 0 < p) (hp2 : p < 2 ^ 256)
    (h : ∀ x3 : ZMod p, x3 = l ^ 2 - x1 - x2 → (l * (x1 - x3) - y1 : ZMod p) ^ 2 = x3 ^ 3 + a * x3 + b) :
    OnCurve p a b (thirdPoint p l x1 y1 x2) := by
  obtain ⟨x3, y3, h3, hx, hy, hxlaw, hylaw⟩ := thirdPoint_spec hp hp2 l x1 y1 x2
  have hx3 : (x3.toNat : ZMod p) = l ^ 2 - x1 - x2 := by
    rw [pow_two]
    exact_mod_cast (ZMod.intCast_eq_intCast_iff _ _ p).2 hxlaw
  have hy3 : (y3.toNat : ZMod p) = l * (x1 - x3.toNat) - y1 := by
    exact_mod_cast (ZMod.intCast_eq_intCast_iff _ _ p).2 hylaw
  rw [h3]
  exact ⟨hx, hy, onCurve_iff_zmod.2 (by rw [hy3]; exact h _ hx3)⟩

end Residues

theorem natCast_ne_of_lt {p x y : Nat} (hx : x < p) (hy : y < p) (h : x ≠ y) : (x : ZMod p) ≠ y := by
  rw [Ne, ZMod.natCast_eq_natCast_iff', Nat.mod_eq_of_lt hx, Nat.mod_eq_of_lt hy]
  exact h

/-! ## The group law and what is built on it -/

section Points
variable {s : State}

theorem State.padd_onCurve (hp : s.p.Prime) {P Q R : Point} (hP : OnCurve s.p s.a s.b P)
    (hQ : OnCurve s.p s.a s.b Q) (h : s.padd P Q = .ok R) : OnCurve s.p s.a s.b R := by
  have := Fact.mk hp
  obtain ⟨-, h'⟩ | ⟨-, h'⟩ | h' | h' | ⟨x, y, l, rfl, rfl, -, hl, h'⟩ | ⟨x1, y1, x2, y2, l, rfl, rfl, hne, hl, h'⟩ :=
    s.padd_cases P Q <;> rw [h'] at h <;> cases h
  · exact hQ
  · exact hP
  · trivial
  · obtain ⟨-, -, hcurve⟩ := hP
    exact onCurve_thirdPoint hp.pos (s.modOf_lt .p) fun x3 =>
      tangent_third_root (onCurve_iff_zmod.1 hcurve) (tangentSlope_zmod hp.pos hl)
  · obtain ⟨hx1, -, hcurve1⟩ := hP
    obtain ⟨hx2, -, hcurve2⟩ := hQ
    exact onCurve_thirdPoint hp.pos (s.modOf_lt .p) fun x3 =>
      chord_third_root (onCurve_iff_zmod.1 hcurve1) (onCurve_iff_zmod.1 hcurve2)
        (natCast_ne_of_lt hx1 hx2 (mt BitVec.eq_of_toNat_eq hne)) (chordSlope_zmod hp.pos hl)

theorem State.smul_onCurve (hp : s.p.Prime) {k : Nat} {P R : Point} (hP : OnCurve s.p s.a s.b P)
    (h : s.smul k P = .ok R) : OnCurve s.p s.a s.b R :=
  smulLoop_ok (Good := OnCurve s.p s.a s.b) (State.padd_onCurve hp) (acc := .inf) trivial hP
    (s.smul_eq_loop k P ▸ h)

/-- `make_point` validates what it makes (42_point.md R173). -/
theorem State.makePoint_onCurve {x y : Nat} (hx : x < s.p) (hy : y < s.p) {Q : Point} (h : s.makePoint x y = .ok Q) :
    OnCurve s.p s.a s.b Q := by
  have fits : ∀ {v}, v < s.p → (BitVec.ofNat 256 v).toNat = v := fun hv =>
    toNat_ofNat_of_lt (hv.trans (s.modOf_lt .p))
  unfold State.makePoint at h
  split_ifs at h with hcurve
  cases h
  exact ⟨(fits hx).symm ▸ hx, (fits hy).symm ▸ hy, by rw [fits hx, fits hy]; exact hcurve⟩

theorem State.makePointIntegral_onCurve {x y : Nat} {Q : Point} (h : s.makePointIntegral x y = .ok Q) :
    OnCurve s.p s.a s.b Q := by
  by_cases hp : s.p = 0
  · rw [makePointIntegral_badConfig hp] at h
    cases h
  · have hpos := Nat.pos_of_ne_zero hp
    rw [makePointIntegral_eq hp] at h
    exact makePoint_onCurve (Nat.mod_lt _ hpos) (Nat.mod_lt _ hpos) h

theorem State.gen_onCurve {Q : Point} (h : s.gen = .ok Q) : OnCurve s.p s.a s.b Q := makePointIntegral_onCurve h

end Points

/-! ## Commands and steps -/

/-- Nothing is on no curve: after demotion and after reset. -/
theorem pointsOnCurve_of_inf {t : State} (hpts : ∀ j, t.pt j = .inf) (hkey : t.key = KeySlot.empty) :
    PointsOnCurve t := by
  unfold PointsOnCurve
  rw [hkey]
  exact ⟨fun j => by rw [hpts j]; trivial, trivial⟩

section Command
variable {s t : State}

theorem PointsOnCurve.completeError (h : PointsOnCurve s) (e : ErrKind) : PointsOnCurve (s.completeError e) := h

theorem PointsOnCurve.setPt (h : PointsOnCurve s) {d : PIdx} {q : Point} (hq : OnCurve s.p s.a s.b q) :
    PointsOnCurve (s.setPt d q).complete := by
  obtain ⟨hpts, hkey⟩ := h
  refine ⟨fun j => ?_, hkey⟩
  show OnCurve s.p s.a s.b ((s.setPt d q).pt j)
  rw [State.pt_setPt]
  split_ifs
  · exact hq
  · exact hpts j

theorem PointsOnCurve.pointResult (h : PointsOnCurve s) {d : PIdx} {r : Except ErrKind Point}
    (hr : ∀ q, r = .ok q → OnCurve s.p s.a s.b q) (ht : pointResult d r s = .next t) : PointsOnCurve t := by
  cases r with
  | error e =>
    cases ht
    exact h.completeError e
  | ok q =>
    cases ht
    exact h.setPt (hr q rfl)

theorem PointsOnCurve.pnew (h : PointsOnCurve s) (hdata : InvData s) {d : PIdx} {a b : RIdx}
    (ht : exec (.pnew d a b) s = .next t) : PointsOnCurve t := by
  by_cases htags : s.tag a = .fp ∧ s.tag b = .fp
  · obtain ⟨ha, hb⟩ := htags
    rw [exec_pnew d a b s ha hb] at ht
    exact h.pointResult (fun q => State.makePoint_onCurve (modpos (f := .p) hdata ha) (modpos (f := .p) hdata hb)) ht
  · rw [exec_pnew_mismatch d a b s (not_and_or.1 htags)] at ht
    cases ht
    exact h.completeError _

theorem exec_pubkey_ok {d : PIdx} (hkey : s.key.valid = true) : exec (.pubkey d) s = pointResult d (.ok s.key.pub) s :=
  finish_bind_ok (require_of_true hkey .noKey) _

theorem exec_pubkey_noKey {d : PIdx} (hkey : s.key.valid = false) :
    exec (.pubkey d) s = .next (s.completeError .noKey) :=
  finish_bind_error (require_of_false hkey .noKey) _

theorem PointsOnCurve.pubkey (h : PointsOnCurve s) {d : PIdx} (ht : exec (.pubkey d) s = .next t) :
    PointsOnCurve t := by
  cases hkey : s.key.valid with
  | true =>
    rw [exec_pubkey_ok hkey] at ht
    exact h.pointResult (fun q hq => by cases hq; exact h.2) ht
  | false =>
    rw [exec_pubkey_noKey hkey] at ht
    cases ht
    exact h.completeError _

/-- A command that writes no point register keeps the property with the key's point. -/
theorem PointsOnCurve.of_exec {i : Instr} (h : PointsOnCurve s) (ht : exec i s = .next t) (hi : ptDests i = [])
    (hkey : OnCurve s.p s.a s.b t.key.pub) : PointsOnCurve t := by
  have hcfg := exec_keeps_cfg ht
  obtain ⟨hpts, -⟩ := h
  simp only [PointsOnCurve, exec_keeps_pts ht hi, State.p, State.a, State.b, hcfg]
  exact ⟨hpts, hkey⟩

theorem PointsOnCurve.keygen (h : PointsOnCurve s) (hp : s.p.Prime) {a : RIdx} (ht : exec (.keygen a) s = .next t) :
    PointsOnCurve t := by
  refine h.of_exec ht rfl ?_
  obtain hkey | ⟨g, q, -, -, hg, hq, hkey⟩ := exec_keygen_key ht
  · rw [hkey]
    exact h.2
  · rw [hkey]
    exact State.smul_onCurve hp (State.gen_onCurve hg) hq

/-- Every command: nine write a point register, two the key slot. -/
theorem PointsOnCurve.exec (h : PointsOnCurve s) (hp : s.p.Prime) (hdata : InvData s) {i : Instr}
    (ht : exec i s = .next t) : PointsOnCurve t := by
  cases i with
  | pinf d => exact h.pointResult (r := .ok .inf) (fun q hq => by cases hq; trivial) ht
  | pnew d a b => exact h.pnew hdata ht
  | pnewi d a b => exact h.pointResult (fun q => State.makePointIntegral_onCurve) ht
  | padd d a b => exact h.pointResult (fun q => State.padd_onCurve hp (h.1 a) (h.1 b)) ht
  | pdbl d a => exact h.pointResult (fun q => State.padd_onCurve hp (h.1 a) (h.1 a)) ht
  | pmov d a => exact h.pointResult (r := .ok (s.pt a)) (fun q hq => by cases hq; exact h.1 a) ht
  | pgen d => exact h.pointResult (fun q => State.gen_onCurve) ht
  | smul d a b => exact h.pointResult (fun q => State.smul_onCurve hp (h.1 a)) ht
  | pubkey d => exact h.pubkey ht
  | keygen a => exact h.keygen hp ht
  | keyclr => exact h.of_exec ht rfl (by rw [exec_keyclr_key ht]; trivial)
  | _ => exact h.of_exec ht rfl (by rw [exec_keeps_key ht rfl]; exact h.2)

end Command

theorem PointsOnCurve.writeLoc {s : State} (h : PointsOnCurve s) (l : Loc) (v : HWord) :
    PointsOnCurve (writeLoc s l v) := by
  cases l with
  | status =>
    cases hv : v.getLsbD 1 with
    | true => rw [writeLoc_status_done hv]; exact h
    | false => rwa [writeLoc_status_keep hv]
  | ctrl =>
    cases hv : v.getLsbD 1 with
    | true => rw [writeLoc_ctrl_srst hv]; exact pointsOnCurve_of_inf State.pt_reset rfl
    | false => rw [writeLoc_ctrl_ie hv]; exact h
  | cfg c w => exact pointsOnCurve_of_inf s.pt_demote rfl
  | _ => exact h

theorem PointsOnCurve.busStep {s : State} (h : PointsOnCurve s) (a : Access) : PointsOnCurve (busStep s a) := by
  obtain hr | ⟨_, _, -, -, -, hr⟩ | ⟨_, _, _, -, -, -, -, hr⟩ := busStep_cases s a <;> rw [hr]
  · exact h
  · exact h
  · exact h.writeLoc _ _

/-! ## The statements -/

/-- Settles O58: the chord and the tangent meet the curve in a third point. -/
theorem groupLawKeepsCurve : Obligations.GroupLawKeepsCurve := fun _ _ _ _ hp hP hQ h => State.padd_onCurve hp hP hQ h

/-- Settles O59: a command writes a point that was validated, stored, or made by the group law; a configuration write
leaves no point. -/
theorem pointsStayOnCurve : Obligations.PointsStayOnCurve := by
  intro s t hinv hp hs h
  have hcons : PointsOnCurve s.consume := hs
  cases stepEnd_of_step h with
  | idle _ => exact hcons
  | illegal _ => exact hcons.completeError _
  | command _ _ hx => exact hcons.exec hp hinv.consume.data hx
  | access _ => exact hcons.busStep _
  | reset _ => exact pointsOnCurve_of_inf State.pt_reset rfl

end Sys2Proof.Machine
end

section
/-! PROOFS. Square roots modulo a prime `p ≡ 3 (mod 4)` (41_field.md R145, R146) by Euler's criterion, for `FSQRT` and for
the decoding of a compressed point (46_host_encodings.md R254). -/

namespace Sys2Proof.Machine

/-! ## The power `(p + 1)/4` in the field `ZMod p` -/

section Root
variable {p : Nat} [Fact p.Prime] {x : ZMod p} (h4 : p % 4 = 3)
include h4

/-- Its square is `x` times the Legendre symbol of `x`. -/
theorem pow_quarter_sq : (x ^ ((p + 1) / 4)) ^ 2 = x * x ^ (p / 2) := by
  rw [← pow_mul, ← pow_succ', show (p + 1) / 4 * 2 = p / 2 + 1 by omega]

theorem pow_quarter_sq_of_isSquare (hx : IsSquare x) : (x ^ ((p + 1) / 4)) ^ 2 = x := by
  rw [pow_quarter_sq h4]
  by_cases h0 : x = 0
  · rw [h0, zero_mul]
  · rw [(ZMod.euler_criterion p h0).1 hx, mul_one]

theorem pow_quarter_sq_of_not_isSquare (hx : ¬ IsSquare x) : (x ^ ((p + 1) / 4)) ^ 2 = -x := by
  have h0 : x ≠ 0 := fun h => hx (h ▸ IsSquare.zero)
  rw [pow_quarter_sq h4, (ZMod.pow_div_two_eq_neg_one_or_one p h0).resolve_left (mt (ZMod.euler_criterion p h0).2 hx),
    mul_neg_one]

end Root

/-! ## Residues as natural numbers -/

section Residues
variable {m r v : Nat}

theorem mul_self_mod_eq_iff (hv : v < m) : r * r % m = v ↔ (r : ZMod m) ^ 2 = v := by
  rw [pow_two, ← Nat.cast_mul, ZMod.natCast_eq_natCast_iff', Nat.mod_eq_of_lt hv]

theorem isSquare_iff_exists_mul_self_mod (hv : v < m) : IsSquare (v : ZMod m) ↔ ∃ y, y * y % m = v := by
  have : NeZero m := ⟨by omega⟩
  constructor
  · rintro ⟨y, hy⟩
    exact ⟨y.val, (mul_self_mod_eq_iff hv).2 (by rw [ZMod.natCast_zmod_val, hy, pow_two])⟩
  · rintro ⟨y, hy⟩
    exact ⟨y, by rw [← (mul_self_mod_eq_iff hv).1 hy, pow_two]⟩

theorem natCast_modulus_sub (hr : r ≤ m) : ((m - r : Nat) : ZMod m) = -r := by
  rw [Nat.cast_sub hr, ZMod.natCast_self, zero_sub]

theorem modulus_sub_mul_self_mod (hv : v < m) (hr : r ≤ m) (h : r * r % m = v) : (m - r) * (m - r) % m = v := by
  rw [mul_self_mod_eq_iff hv] at h ⊢
  rw [natCast_modulus_sub hr, neg_sq, h]

/-- The two roots of a square modulo a prime. -/
theorem eq_or_add_eq_of_sq_eq {p x y : Nat} (hp : p.Prime) (hx : x < p) (hy : y < p)
    (h : (x : ZMod p) ^ 2 = (y : ZMod p) ^ 2) : x = y ∨ x + y = p := by
  have := Fact.mk hp
  obtain heq | hneg := sq_eq_sq_iff_eq_or_eq_neg.1 h
  · rw [ZMod.natCast_eq_natCast_iff', Nat.mod_eq_of_lt hx, Nat.mod_eq_of_lt hy] at heq
    exact .inl heq
  · have hsum : ((x + y : Nat) : ZMod p) = 0 := by rw [Nat.cast_add, hneg, neg_add_cancel]
    obtain ⟨k, hk⟩ := (ZMod.natCast_eq_zero_iff _ _).1 hsum
    have hk2 : k < 2 := by
      by_contra hge
      have := Nat.mul_le_mul_left p (Nat.le_of_not_lt hge)
      omega
    interval_cases k
    · exact .inl (by omega)
    · exact .inr (by omega)

end Residues

/-! ## The root the datapath takes (R145, R146) -/

section Sqrt
variable {m v : Nat} (hp : m.Prime) (h4 : m % 4 = 3) (hv : v < m)
include hp h4 hv

theorem pow_quarter_mod_of_residue (h : ∃ y, y * y % m = v) :
    v ^ ((m + 1) / 4) % m * (v ^ ((m + 1) / 4) % m) % m = v := by
  have := Fact.mk hp
  rw [mul_self_mod_eq_iff hv, ZMod.natCast_mod, Nat.cast_pow]
  exact pow_quarter_sq_of_isSquare h4 ((isSquare_iff_exists_mul_self_mod hv).2 h)

theorem pow_quarter_mod_of_nonresidue (h : ¬ ∃ y, y * y % m = v) :
    v ^ ((m + 1) / 4) % m * (v ^ ((m + 1) / 4) % m) % m = m - v := by
  have := Fact.mk hp
  have hpos : 0 < v := Nat.pos_of_ne_zero fun h0 => h ⟨0, by rw [h0, Nat.mul_zero, Nat.zero_mod]⟩
  rw [mul_self_mod_eq_iff (Nat.sub_lt hp.pos hpos), ZMod.natCast_mod, Nat.cast_pow, natCast_modulus_sub hv.le]
  exact pow_quarter_sq_of_not_isSquare h4 (mt (isSquare_iff_exists_mul_self_mod hv).1 h)

end Sqrt

/-! ## SEC points (46_host_encodings.md R251 to R256) -/

/-- Of the two roots the decoder takes the one whose parity the first byte gives. -/
theorem select_root {p r y : Nat} (hodd : p % 2 = 1) (hr : r < p) (hy : y < p) (h : r = y ∨ r + y = p) :
    (if (r % 2 == 1) = (y % 2 == 1) then r else (p - r) % p) = y := by
  obtain rfl | h := h
  · exact if_pos rfl
  · have hne : ¬ ((r % 2 == 1) = (y % 2 == 1)) := by
      rw [Bool.eq_iff_iff, beq_iff_eq, beq_iff_eq]
      omega
    rw [if_neg hne, show p - r = y by omega, Nat.mod_eq_of_lt hy]

/-- The first byte of the compressed form (R252). -/
def secFirstByte (y : Word) : Byte := if y.toNat % 2 = 0 then 0x02 else 0x03

theorem secFirstByte_cases (y : Word) :
    (secFirstByte y = 0x02 ∨ secFirstByte y = 0x03) ∧ (secFirstByte y == 0x03) = (y.toNat % 2 == 1) := by
  unfold secFirstByte
  split_ifs with h
  · exact ⟨.inl rfl, by rw [h]; rfl⟩
  · exact ⟨.inr rfl, by rw [show y.toNat % 2 = 1 by omega]; rfl⟩

@[simp] theorem be32_length (v : Word) : (be32 v).length = 32 := be_len 32 v.toNat

theorem secUncompressed_aff (x y : Word) : secUncompressed (.aff x y) = some (0x04 :: (be32 x ++ be32 y)) := by
  simp [secUncompressed]

theorem secCompressed_aff (x y : Word) : secCompressed (.aff x y) = some (secFirstByte y :: be32 x) := by
  simp [secCompressed, secFirstByte]

section Sec
variable {s : State}

theorem secDecode_uncompressed {rest : List Byte} (h : rest.length = 64) :
    secDecode s (0x04 :: rest) = s.makePointIntegral (intBe (rest.take 32)) (intBe (rest.drop 32)) := by
  simp [secDecode, h]

theorem secDecode_compressed {b : Byte} {rest : List Byte} (hb : b = 0x02 ∨ b = 0x03) (h : rest.length = 32) :
    secDecode s (b :: rest) = secDecompress s (b == 0x03) rest := by
  have h4 : b ≠ 0x04 := by rcases hb with rfl | rfl <;> decide
  simp only [secDecode, if_neg h4, if_pos hb, if_pos h]

variable {x y : Word} (hP : OnCurve s.p s.a s.b (.aff x y))
include hP

theorem makePointIntegral_of_onCurve : s.makePointIntegral x.toNat y.toNat = .ok (.aff x y) := by
  have ⟨hx, hy, _⟩ := hP
  rw [State.makePointIntegral_eq (by omega), Nat.mod_eq_of_lt hx, Nat.mod_eq_of_lt hy, mk_ok hP]

/-- The root of the curve equation's right side is `y` or `p - y`, and the parity tells which. -/
theorem secDecompress_be32 (hp : s.p.Prime) (h4 : s.p % 4 = 3) :
    secDecompress s (y.toNat % 2 == 1) (be32 x) = .ok (.aff x y) := by
  have ⟨hx, hy, hcurve⟩ := hP
  have hlt : ∀ v, v % s.p < s.p := fun v => Nat.mod_lt v hp.pos
  have hsq : y.toNat * y.toNat % s.p =
      (x.toNat * x.toNat * x.toNat + s.a * x.toNat + s.b) % s.p := beq_iff_eq.1 hcurve
  have hroot := pow_quarter_mod_of_residue hp h4 (hlt _) ⟨y.toNat, hsq⟩
  rw [← hsq] at hroot
  have hroots := eq_or_add_eq_of_sq_eq hp (hlt _) hy (((mul_self_mod_eq_iff (hlt _)).1 hroot).trans
    ((mul_self_mod_eq_iff (hlt _)).1 rfl).symm)
  rw [secDecompress, if_neg hp.ne_zero, intBe_be32, Nat.mod_eq_of_lt hx]
  dsimp only
  rw [← hsq, sqrtMod_ok (show s.p < 2 ^ 256 from s.modOf_lt .p) h4]
  exact (congrArg (s.makePoint x.toNat) (select_root (by omega) (hlt _) hy hroots)).trans (mk_ok hP)

end Sec

/-! ## The statements -/

/-- Settles O12: the command's power is a root of a residue by Euler's criterion, and squares to `m - a` otherwise. -/
theorem fsqrtRoots : Obligations.FsqrtRoots := by
  intro d a f s ha hp h4 hlt
  obtain ⟨t, hx, hval, -⟩ :=
    completes_of_unary (exec_fsqrt d a s) ha (sqrtMod_ok (s.modOf_lt f) h4) (Nat.mod_lt _ hp.pos)
  refine ⟨t, hx, ?_⟩
  beta_reduce
  rw [hval]
  refine ⟨fun h => ?_, pow_quarter_mod_of_nonresidue hp h4 hlt⟩
  have hroot := pow_quarter_mod_of_residue hp h4 hlt h
  exact ⟨hroot, modulus_sub_mul_self_mod hlt (Nat.mod_lt _ hp.pos).le hroot⟩

/-- Settles O60: the uncompressed form holds both coordinates; the compressed form's root is one of two, of different
parity. -/
theorem secRoundTrip : Obligations.SecRoundTrip := by
  refine fun s x y bytes hP => ⟨fun h => ?_, fun hp h4 h => ?_⟩
  · obtain rfl := Option.some.inj ((secUncompressed_aff x y).symm.trans h)
    refine ⟨by simp, (secDecode_uncompressed (by simp)).trans ?_⟩
    rw [List.take_left' (be32_length x), List.drop_left' (be32_length x), intBe_be32, intBe_be32]
    exact makePointIntegral_of_onCurve hP
  · obtain rfl := Option.some.inj ((secCompressed_aff x y).symm.trans h)
    obtain ⟨hbyte, hparity⟩ := secFirstByte_cases y
    refine ⟨by simp, (secDecode_compressed hbyte (be32_length x)).trans ?_⟩
    rw [hparity]
    exact secDecompress_be32 hP hp h4

end Sys2Proof.Machine
end

section
/-! PROOFS. `NONCE` (44_ecdsa.md R220, R221, R224): its checks, one turn of its search, and runs of turns until the first
candidate in `(0, n)`. -/

namespace Sys2Proof.Machine

theorem exec_nonce (d : RIdx) (s : State) : exec (.nonce d) s = nonceWith hashProvider d s := rfl

theorem nonceGood_candidate (s : State) (i : Nat) : nonceGood s.n (s.candidate i) = true ↔ s.goodCandidate i := by
  rw [nonceGood, Bool.and_eq_true, decide_eq_true_iff, decide_eq_true_iff, State.goodCandidate]

/-! ## The checks (R220) -/

section Checks
variable {s : State} (hphase : s.nPhase = .check)
include hphase

theorem nonceCheck_noKey (hkey : s.key.valid = false) : nonceCheck s = .error .noKey := by
  simp [nonceCheck, hphase, hkey]

theorem nonceCheck_badConfig (hkey : s.key.valid = true) (hlen : 256 < s.msgLen.toNat) :
    nonceCheck s = .error .badConfig := by
  simp [nonceCheck, hphase, hkey, hlen]

theorem searchAt_start (H : HashProvider) : SearchAt H s 0 s := ⟨rfl, .inl ⟨rfl, hphase⟩⟩

end Checks

theorem raises_nonce {s : State} {e : ErrKind} (d : RIdx) (h : nonceCheck s = .error e) : Raises (.nonce d) s e := by
  refine raises_of_exec ((exec_nonce d s).trans ?_)
  rw [nonceWith, h]
  rfl

/-! ## One turn of the search of the command accepted in `s` -/

section Turn
variable {s u : State} {i : Nat}

/-- Completion forgets where in the search it came. -/
theorem SearchAt.complete_setReg {H : HashProvider} (h : SearchAt H s i u) (r : NonceRegs) (d : RIdx) (v : Reg) :
    ({ u with nonce := r }.setReg d v).complete = ({ s with nonce := r }.setReg d v).complete := by
  rw [h.1]
  rfl

variable (d : RIdx) (hkey : s.key.valid = true) (hlen : s.msgLen.toNat ≤ 256) (hu : SearchAt hashProvider s i u)
include hkey hlen hu

theorem exec_nonce_hit (h : s.goodCandidate i) : ∃ t, exec (.nonce d) u = .next t ∧
    t.reg d = ⟨s.candidate i, .int⟩ ∧ WritesRegs { s with nonce := t.nonce } t [d] := by
  rw [exec_nonce]
  obtain ⟨-, r, hx⟩ | ⟨hbad, -⟩ := nonceWith_turn d hkey hlen hu
  · rw [hu.complete_setReg] at hx
    exact ⟨_, hx, State.reg_setReg_self .., ends_setReg { s with nonce := r } d _⟩
  · exact absurd ((nonceGood_candidate s i).2 h) (by rw [State.candidate, hbad]; decide)

theorem exec_nonce_miss (h : ¬ s.goodCandidate i) :
    ∃ r : NonceRegs, exec (.nonce d) u = .next { u with nonce := r, nPhase := .gen } ∧
      SearchAt hashProvider s (i + 1) { u with nonce := r, nPhase := .gen } := by
  rw [exec_nonce]
  obtain ⟨hgood, -⟩ | ⟨-, r, hx, hhead⟩ := nonceWith_turn d hkey hlen hu
  · exact absurd ((nonceGood_candidate s i).1 hgood) h
  · exact ⟨r, hx, by rw [hu.1], .inr ⟨rfl, hhead⟩⟩

end Turn

/-! ## Runs of turns -/

theorem runSteps_succ_of_next {k : Nat} {s u : State} (h : runSteps k s = .next u) : runSteps (k + 1) s = step u := by
  rw [runSteps_succ, h]

section Runs
variable {s : State} {d : RIdx} (hbusy : s.busy = true) (hevents : s.events = [])
  (hcmd : decode s.cmd = .ok (.nonce d))
include hbusy hevents hcmd

/-- Nothing is pending in a search, so each step is the command's next turn. -/
theorem SearchAt.step_eq {H : HashProvider} {u : State} {i : Nat} (hu : SearchAt H s i u) :
    step u = exec (.nonce d) u := by
  have hnone : u.events = [] := by rw [hu.1]; exact hevents
  have hu_cmd : decode u.cmd = .ok (.nonce d) := by rw [hu.1]; exact hcmd
  have hu_busy : u.busy = true := by rw [hu.1]; exact hbusy
  have hsame : { u with events := u.events.tail } = u := by rw [hnone, List.tail_nil, ← hnone]
  rw [step_decoded hu_busy (by rw [State.sequencerNext, hnone]) hu_cmd, hsame]

variable (hphase : s.nPhase = .check) (hkey : s.key.valid = true) (hlen : s.msgLen.toNat ≤ 256)
include hphase hkey hlen

/-- After `k` misses the search is about to run iteration `k`. -/
theorem exists_searchAt_of_misses : ∀ k, (∀ j, j < k → ¬ s.goodCandidate j) →
    ∃ u, runSteps k s = .next u ∧ SearchAt hashProvider s k u
  | 0, _ => ⟨s, rfl, searchAt_start hphase hashProvider⟩
  | k + 1, hmiss => by
    obtain ⟨u, hrun, hu⟩ := exists_searchAt_of_misses k fun j hj => hmiss j (Nat.lt_succ_of_lt hj)
    obtain ⟨r, hx, hnext⟩ := exec_nonce_miss d hkey hlen hu (hmiss k (Nat.lt_succ_self k))
    exact ⟨_, (runSteps_succ_of_next hrun).trans ((hu.step_eq hbusy hevents hcmd).trans hx), hnext⟩

theorem exists_busy_of_misses {k : Nat} (hmiss : ∀ j, j < k → ¬ s.goodCandidate j) :
    ∃ t, runSteps k s = .next t ∧ t.busy = true ∧ t = { s with nonce := t.nonce, nPhase := t.nPhase } := by
  obtain ⟨u, hrun, hu⟩ := exists_searchAt_of_misses hbusy hevents hcmd hphase hkey hlen k hmiss
  exact ⟨u, hrun, by rw [hu.1]; exact hbusy, hu.1⟩

end Runs

/-! ## The statements -/

/-- Settles O27: the two checks, then the search's first turn. -/
theorem nonceFirstIteration : Obligations.NonceFirstIteration := by
  refine fun d s hphase => ⟨encodes_fields (i := .nonce d) rfl,
    fun hkey => raises_nonce d (nonceCheck_noKey hphase hkey),
    fun hkey hlen => raises_nonce d (nonceCheck_badConfig hphase hkey hlen),
    fun hkey hlen => exec_nonce_hit d hkey hlen (searchAt_start hphase _), fun hkey hlen hmiss => ?_⟩
  obtain ⟨r, hx, -⟩ := exec_nonce_miss d hkey hlen (searchAt_start hphase _) hmiss
  exact ⟨_, hx, rfl⟩

/-- Settles O28: after the misses the search runs iteration `i`, whose candidate ends it. -/
theorem nonceCompletesAtFirstHit : Obligations.NonceCompletesAtFirstHit := by
  intro s d i hbusy hevents hcmd hphase hkey hlen hmiss hgood
  obtain ⟨u, hrun, hu⟩ := exists_searchAt_of_misses hbusy hevents hcmd hphase hkey hlen i hmiss
  obtain ⟨t, hx, hreg, hframe⟩ := exec_nonce_hit d hkey hlen hu hgood
  exact ⟨⟨t, (runSteps_succ_of_next hrun).trans ((hu.step_eq hbusy hevents hcmd).trans hx), hreg, hframe⟩,
    fun j hj => exists_busy_of_misses hbusy hevents hcmd hphase hkey hlen fun k hk => hmiss k (by omega)⟩

/-- Settles O29: with misses only, every number of turns leaves the search running. -/
theorem nonceWithoutHitStaysBusy : Obligations.NonceWithoutHitStaysBusy :=
  fun _ _ hbusy hevents hcmd hphase hkey hlen hmiss _ =>
    exists_busy_of_misses hbusy hevents hcmd hphase hkey hlen fun j _ => hmiss j

end Sys2Proof.Machine
end

section
/-! PROOFS. Noninterference: what no answer and no command reads, `KEY.secret` (60_exceptions.md R301) and the hidden
registers of the nonce generator (10_state.md R47), as one relation between two states. -/

namespace Sys2Proof.Machine

/-! ## States that differ in the secret and the hidden registers alone -/

/-- The state with another secret and other hidden registers. -/
def State.hide (s : State) (x : Word) (r : NonceRegs) : State :=
  { s with key := { s.key with secret := x }, nonce := r }

@[simp] theorem State.hide_busy (s : State) (x : Word) (r : NonceRegs) : (s.hide x r).busy = s.busy := rfl

/-- `s'` differs from `s` at most in `KEY.secret`, unless `k`, and in the hidden registers, unless `n`. -/
def Alike (k n : Prop) (s s' : State) : Prop :=
  ∃ x r, s' = s.hide x r ∧ (k → x = s.key.secret) ∧ (n → r = s.nonce)

section Relation
variable {k n : Prop} {s s' : State}

theorem Alike.refl (s : State) : Alike k n s s := ⟨s.key.secret, s.nonce, rfl, fun _ => rfl, fun _ => rfl⟩

theorem sameButSecret_iff_alike : SameButSecret s s' ↔ Alike False True s s' := by
  constructor
  · exact fun h => ⟨s'.key.secret, s.nonce, h.symm, False.elim, fun _ => rfl⟩
  · rintro ⟨x, r, rfl, -, hn⟩
    rw [hn trivial]
    rfl

theorem SameButHidden.alike (h : SameButHidden s s') : Alike True False s s' :=
  ⟨s.key.secret, s'.nonce, h.1.symm, fun _ => rfl, False.elim⟩

theorem SameButHidden.refl (s : State) : SameButHidden s s := ⟨rfl, fun _ => rfl⟩

theorem Alike.sameButHidden (h : Alike True False s s') (hphase : s.nPhase ≠ .gen) : SameButHidden s s' := by
  obtain ⟨x, r, rfl, hk, -⟩ := h
  exact ⟨by rw [hk trivial]; rfl, fun hgen => absurd hgen hphase⟩

variable (h : Alike k n s s')
include h

theorem Alike.secret_eq (hk : k) : s'.key.secret = s.key.secret := by
  obtain ⟨x, r, rfl, hx, -⟩ := h
  exact hx hk

/-- An update that neither reads nor writes what the states may differ in. -/
theorem Alike.map {g : State → State} (hhide : ∀ x r, g (s.hide x r) = (g s).hide x r)
    (hsecret : (g s).key.secret = s.key.secret) (hnonce : (g s).nonce = s.nonce) : Alike k n (g s) (g s') := by
  obtain ⟨x, r, rfl, hk, hn⟩ := h
  exact ⟨x, r, hhide x r, fun a => (hk a).trans hsecret.symm, fun a => (hn a).trans hnonce.symm⟩

theorem Alike.setReg (d : RIdx) (v : Reg) : Alike k n (s.setReg d v) (s'.setReg d v) :=
  h.map (g := (·.setReg d v)) (fun _ _ => rfl) rfl rfl

theorem Alike.setPt (d : PIdx) (q : Point) : Alike k n (s.setPt d q) (s'.setPt d q) :=
  h.map (g := (·.setPt d q)) (fun _ _ => rfl) rfl rfl

theorem Alike.setT (b : Bool) : Alike k n (s.setT b) (s'.setT b) :=
  h.map (g := (·.setT b)) (fun _ _ => rfl) rfl rfl

theorem Alike.complete : Alike k n s.complete s'.complete :=
  h.map (g := State.complete) (fun _ _ => rfl) rfl rfl

theorem Alike.completeError (e : ErrKind) : Alike k n (s.completeError e) (s'.completeError e) :=
  h.map (g := (·.completeError e)) (fun _ _ => rfl) rfl rfl

theorem Alike.respond (a : Response) : Alike k n (s.respond a) (s'.respond a) :=
  h.map (g := (·.respond a)) (fun _ _ => rfl) rfl rfl

theorem Alike.consume : Alike k n s.consume s'.consume :=
  h.map (g := State.consume) (fun _ _ => rfl) rfl rfl

/-- A key written whole is the same in both states. -/
theorem Alike.setKey (key : KeySlot) : Alike k n (s.setKey key) (s'.setKey key) := by
  obtain ⟨x, r, rfl, -, hn⟩ := h
  exact ⟨key.secret, r, rfl, fun _ => rfl, hn⟩

end Relation

/-! ## The end of a command -/

/-- Two ends of a command's pseudocode: the same error, or writes that leave the states alike. -/
inductive AlikeResult (k n : Prop) : Except ErrKind State → Except ErrKind State → Prop
  | ok {t t' : State} : Alike k n t t' → AlikeResult k n (.ok t) (.ok t')
  | error (e : ErrKind) : AlikeResult k n (.error e) (.error e)

/-- Two outcomes that are both a next state, and alike. -/
def AlikeOutcome (k n : Prop) (o o' : Outcome) : Prop := ∃ t t', o = .next t ∧ o' = .next t' ∧ Alike k n t t'

section Results
variable {k n : Prop} {s s' : State}

theorem AlikeResult.bind {α : Type} {x : Except ErrKind α} {f f' : α → Except ErrKind State}
    (h : ∀ a, AlikeResult k n (f a) (f' a)) : AlikeResult k n (x >>= f) (x >>= f') := by
  cases x with
  | error e => exact .error e
  | ok a => exact h a

theorem Alike.finish (h : Alike k n s s') {r r' : Except ErrKind State} (hr : AlikeResult k n r r') :
    AlikeOutcome k n (finish s r) (finish s' r') := by
  cases hr with
  | ok ht => exact ⟨_, _, rfl, rfl, ht.complete⟩
  | error e => exact ⟨_, _, rfl, rfl, h.completeError e⟩

theorem AlikeOutcome.next {o o' : Outcome} (h : AlikeOutcome k n o o') {t : State} (ht : o = .next t) :
    ∃ t', o' = .next t' ∧ Alike k n t t' := by
  obtain ⟨u, t', rfl, ht', halike⟩ := h
  cases ht
  exact ⟨t', ht', halike⟩

end Results

/-! ## Every command but `NONCE` -/

/-- No command but `NONCE` and `SIGN` reads what the two states may differ in, and `SIGN` reads only the secret. -/
theorem Alike.exec {k n : Prop} {s s' : State} (h : Alike k n s s') {i : Instr} (hi : isNonce i = false)
    (hsign : ∀ d a b c, i = .sign d a b c → k) : AlikeOutcome k n (exec i s) (exec i s') := by
  have hsecret := h.secret_eq
  obtain ⟨x, r, rfl, -⟩ := id h
  cases i with
  | nop => exact h.finish (.ok h)
  | mov d a | fraw d a => exact h.finish (.ok (h.setReg d _))
  | fredP d a | fredN d a | fnewP d a | fnewN d a | pgetx d a | pgety d a =>
    exact h.finish (.bind fun _ => .ok (h.setReg d _))
  | finv d a | fsqrt d a | fadd d a b | fsub d a b | fmul d a b | fdiv d a b | fpow d a b | fpowNeg d a b =>
    exact h.finish (.bind fun _ => .bind fun _ => .ok (h.setReg d _))
  | fisz a | pisinf a | feq a b | peq a b => exact h.finish (.ok (h.setT _))
  | ponc a b => exact h.finish (.bind fun _ => .bind fun _ => .ok (h.setT _))
  | verify d a b c => exact h.finish (.bind fun _ => .bind fun _ => .bind fun _ => .ok (h.setT _))
  | pinf d | pmov d a => exact h.finish (.ok (h.setPt d _))
  | pgen d | pubkey d | pdbl d a | pnewi d a b | padd d a b | smul d a b =>
    exact h.finish (.bind fun _ => .ok (h.setPt d _))
  | pnew d a b => exact h.finish (.bind fun _ => .bind fun _ => .bind fun _ => .ok (h.setPt d _))
  | keygen a => exact h.finish (.bind fun _ => .bind fun _ => .bind fun _ => .bind fun _ => .ok (h.setKey _))
  | keyclr => exact h.finish (.ok (h.setKey _))
  | nonce d => cases hi
  | sign d a b c =>
    obtain rfl : x = s.key.secret := hsecret (hsign d a b c rfl)
    exact h.finish (.bind fun _ => .bind fun _ => .ok ((h.setReg d _).setReg a _))

/-! ## `NONCE` at the start of its search -/

section Nonce
variable {s : State} (hphase : s.nPhase ≠ .gen)
include hphase

/-- The seeding writes every hidden register that the first iteration reads (44_ecdsa.md R220). -/
theorem nonceTurn_hidden (c : NonceInputs) (r r' : NonceRegs) :
    nonceTurn c s.nPhase r = nonceTurn c s.nPhase r' := by
  rw [nonceTurn_check c hphase, nonceTurn_check c hphase, nonceRows_gen, nonceRows_gen]

/-- Past the checks a turn leaves nothing of the hidden registers it found; an error of the checks leaves them. -/
theorem nonceWith_hidden (H : HashProvider) (d : RIdx) (r : NonceRegs) :
    nonceWith H d { s with nonce := r } = nonceWith H d s ∨ ∃ e, nonceWith H d s = .next (s.completeError e) ∧
      nonceWith H d { s with nonce := r } = .next ({ s with nonce := r }.completeError e) := by
  have hsame : nonceCheck { s with nonce := r } = nonceCheck s := rfl
  cases hc : nonceCheck s with
  | error e => exact .inr ⟨e, by rw [nonceWith, hc]; rfl, by rw [nonceWith, hsame, hc]; rfl⟩
  | ok u =>
    refine .inl ?_
    rw [nonceWith, nonceWith, hsame, hc]
    simp only
    rw [nonceTurn_hidden hphase _ s.nonce r]
    rfl

theorem SameButHidden.nonce {s' t : State} (h : SameButHidden s s') (d : RIdx) (ht : exec (.nonce d) s = .next t) :
    ∃ t', exec (.nonce d) s' = .next t' ∧ SameButHidden t t' := by
  obtain ⟨hs', -⟩ := h
  rw [← hs', exec_nonce]
  rw [exec_nonce] at ht
  obtain hx | ⟨e, hx, hx'⟩ := nonceWith_hidden hphase hashProvider d s'.nonce
  · exact ⟨t, hx.trans ht, .refl t⟩
  · rw [hx] at ht
    cases ht
    exact ⟨_, hx', rfl, fun hgen => nomatch hgen⟩

end Nonce

/-! ## Accesses -/

theorem Alike.writeLoc {k n : Prop} {s s' : State} (h : Alike k n s s') (l : Loc) (v : HWord) :
    Alike k n (writeLoc s l v) (writeLoc s' l v) := by
  obtain ⟨x, r, rfl, hk, hn⟩ := id h
  cases l with
  | status =>
    cases hv : v.getLsbD 1 with
    | true =>
      rw [writeLoc_status_done hv, writeLoc_status_done hv]
      exact ⟨x, r, rfl, hk, hn⟩
    | false => rwa [writeLoc_status_keep hv, writeLoc_status_keep hv]
  | ctrl =>
    cases hv : v.getLsbD 1 with
    | true =>
      rw [writeLoc_ctrl_srst hv, writeLoc_ctrl_srst hv]
      exact .refl s.resetBlock
    | false =>
      rw [writeLoc_ctrl_ie hv, writeLoc_ctrl_ie hv]
      exact ⟨x, r, rfl, hk, hn⟩
  | cfg c w => exact ⟨0, r, rfl, fun _ => rfl, hn⟩
  | _ => exact ⟨x, r, rfl, hk, hn⟩

/-- A read returns no part of what the two states may differ in. -/
theorem readLoc_hide (s : State) (x : Word) (r : NonceRegs) (l : Loc) : readLoc (s.hide x r) l = readLoc s l := by
  cases l <;> rfl

theorem Alike.busStep {k n : Prop} {s s' : State} (h : Alike k n s s') (a : Access) :
    (busStep s' a).response = (busStep s a).response ∧ Alike k n (busStep s a) (busStep s' a) := by
  obtain ⟨x, r, rfl, -⟩ := id h
  cases a with
  | read off width =>
    simp only [Machine.busStep, busRead]
    cases target off width with
    | none => exact ⟨rfl, h.respond _⟩
    | some l =>
      simp only [readLoc_hide, State.hide_busy]
      split_ifs
      · exact ⟨rfl, h.respond _⟩
      · exact ⟨rfl, h.respond _⟩
  | write off width v =>
    simp only [Machine.busStep, busWrite]
    cases target off width with
    | none => exact ⟨rfl, h.respond _⟩
    | some l =>
      by_cases hb : (l.writable && (!s.busy || l.writableBusy)) = true
      · simp only [State.hide_busy, hb, if_true]
        exact ⟨rfl, (h.writeLoc l v).respond _⟩
      · simp only [State.hide_busy, hb]
        exact ⟨rfl, h.respond _⟩

/-- No access starts a search. -/
theorem writeLoc_nPhase (s : State) (l : Loc) (v : HWord) :
    (writeLoc s l v).nPhase = s.nPhase ∨ (writeLoc s l v).nPhase = .check := by
  cases l with
  | cmd => exact .inr rfl
  | status =>
    cases hv : v.getLsbD 1 with
    | true => exact .inl (by rw [writeLoc_status_done hv])
    | false => exact .inl (by rw [writeLoc_status_keep hv])
  | ctrl =>
    cases hv : v.getLsbD 1 with
    | true => exact .inr (by rw [writeLoc_ctrl_srst hv]; rfl)
    | false => exact .inl (by rw [writeLoc_ctrl_ie hv])
  | _ => exact .inl rfl

theorem busStep_nPhase_ne_gen {s : State} (h : s.nPhase ≠ .gen) (a : Access) : (busStep s a).nPhase ≠ .gen := by
  obtain hr | ⟨_, _, -, -, -, hr⟩ | ⟨_, l, v, -, -, -, -, hr⟩ := busStep_cases s a <;> rw [hr]
  · exact h
  · exact h
  · show (writeLoc s l v).nPhase ≠ .gen
    obtain hsame | hcheck := writeLoc_nPhase s l v
    · rwa [hsame]
    · rw [hcheck]
      decide

/-! ## Steps outside a search -/

section Steps
variable {s s' t : State} (h : SameButHidden s s') (hphase : s.nPhase ≠ .gen)
include h hphase

theorem SameButHidden.exec {i : Instr} (ht : exec i s = .next t) : ∃ t', exec i s' = .next t' ∧ SameButHidden t t' := by
  cases hi : isNonce i with
  | true =>
    cases i with
    | nonce d => exact h.nonce hphase d ht
    | _ => cases hi
  | false =>
    obtain ⟨t', hx, halike⟩ := (h.alike.exec hi fun _ _ _ _ _ => trivial).next ht
    refine ⟨t', hx, halike.sameButHidden ?_⟩
    cases turnEnd_of_exec ht with
    | writes _ => exact nofun
    | raises _ => exact nofun
    | hit _ hnonce _ => rw [hnonce] at hi; cases hi
    | miss _ hnonce _ => rw [hnonce] at hi; cases hi

theorem SameButHidden.runCommand (ht : runCommand s = .next t) :
    ∃ t', runCommand s' = .next t' ∧ SameButHidden t t' := by
  have hcmd : s'.cmd = s.cmd := by rw [← h.1]
  cases hd : decode s.cmd with
  | error r =>
    rw [runCommand_illegal hd] at ht
    cases ht
    exact ⟨_, runCommand_illegal (hcmd ▸ hd), (h.alike.completeError _).sameButHidden nofun⟩
  | ok i =>
    rw [runCommand_ok hd] at ht
    rw [runCommand_ok (hcmd ▸ hd)]
    exact h.exec hphase ht

theorem SameButHidden.sequencerTurn (ht : sequencerTurn s = .next t) :
    ∃ t', sequencerTurn s' = .next t' ∧ SameButHidden t t' := by
  have hbusy : s'.busy = s.busy := by rw [← h.1]
  cases hb : s.busy with
  | false =>
    rw [sequencerTurn_idle hb] at ht
    cases ht
    exact ⟨s', sequencerTurn_idle (hbusy.trans hb), h⟩
  | true =>
    rw [sequencerTurn_busy hb] at ht
    rw [sequencerTurn_busy (hbusy.trans hb)]
    exact h.runCommand hphase ht

theorem SameButHidden.step (ht : step s = .next t) : ∃ t', step s' = .next t' ∧ SameButHidden t t' := by
  have hevents : s'.events = s.events := by rw [← h.1]
  have hcons : SameButHidden s.consume s'.consume := h.alike.consume.sameButHidden hphase
  obtain ⟨hseq, hx⟩ | ⟨a, rest, he, -⟩ | ⟨rest, he, hx⟩ := step_cases s
  · have hseq' : s'.sequencerNext = true := by rwa [State.sequencerNext, hevents]
    rw [step_sequencer hseq']
    exact hcons.sequencerTurn hphase (hx.symm.trans ht)
  · rw [step_access he] at ht
    cases ht
    refine ⟨_, step_access (hevents.trans he), ?_⟩
    obtain ⟨-, halike⟩ := hcons.alike.busStep a
    exact halike.sameButHidden (busStep_nPhase_ne_gen (s := s.consume) hphase a)
  · rw [hx] at ht
    cases ht
    exact ⟨_, step_reset (hevents.trans he), .refl _⟩

end Steps

/-! ## The statements -/

/-- Settles O55: of all that is read, only the public half of the slot. -/
theorem secretUnread : Obligations.SecretUnread := by
  intro s s' h
  have halike := sameButSecret_iff_alike.1 h
  refine ⟨fun a => ?_, fun i t hi hsign ht => ?_⟩
  · obtain ⟨hresponse, hstep⟩ := halike.busStep a
    exact ⟨hresponse, sameButSecret_iff_alike.2 hstep⟩
  · obtain ⟨t', hx, ht'⟩ := (halike.exec hi fun d a b c he => absurd he (hsign d a b c)).next ht
    exact ⟨t', hx, sameButSecret_iff_alike.2 ht'⟩

/-- Settles O56: in mid-search the two states are one; outside a search nothing reads the hidden registers before the
seeding writes them. -/
theorem hiddenUnobservable : Obligations.HiddenUnobservable := by
  intro s s' t h ht
  by_cases hgen : s.nPhase = .gen
  · obtain rfl : s = s' := by
      rw [← h.1, ← h.2 hgen]
    exact ⟨t, ht, .refl t⟩
  · exact h.step hgen ht

end Sys2Proof.Machine
end

section
/-! PROOFS. The Montgomery datapath (41_field.md R160 to R163): `REDC` divides by `R = 2^256` modulo an odd `m`, which pins
every form the datapath takes a product through. -/

namespace Sys2Proof.Machine

/-! ## `REDC` (R160) -/

section Redc
variable {m : Nat} (hodd : m % 2 = 1)
include hodd

theorem coprime_R_MONT : Nat.Coprime m Config.R_MONT :=
  (Nat.coprime_two_right.2 (Nat.odd_iff.2 hodd)).pow_right 256

/-- `m' · m ≡ -1` modulo `R`. -/
theorem montPrime_mul : (montPrime m * m : ZMod Config.R_MONT) = -1 := by
  have hR : 0 < Config.R_MONT := by decide
  have hinv : (m * invMod m Config.R_MONT : ZMod Config.R_MONT) = 1 := by
    obtain ⟨-, h⟩ := invMod_spec hR (coprime_R_MONT hodd)
    exact_mod_cast (ZMod.natCast_eq_natCast_iff' _ _ _).2 h
  rw [montPrime, ZMod.natCast_mod, natCast_modulus_sub (invMod_lt hR).le, neg_mul, mul_comm, hinv]

theorem R_MONT_dvd (t : Nat) : Config.R_MONT ∣ t + t % Config.R_MONT * montPrime m % Config.R_MONT * m := by
  rw [← ZMod.natCast_eq_zero_iff]
  push_cast [ZMod.natCast_mod]
  rw [mul_assoc, montPrime_mul hodd]
  ring

/-- `REDC` is below `m`, and is `t` divided by `R`. -/
theorem redc_spec {t : Nat} (ht : t < m * Config.R_MONT) :
    redc m t < m ∧ redc m t * Config.R_MONT ≡ t [MOD m] := by
  have hR : 0 < Config.R_MONT := by decide
  obtain ⟨u, hu⟩ := R_MONT_dvd hodd t
  have hlt : u < 2 * m := by
    have hq := Nat.mul_lt_mul_of_pos_right (Nat.mod_lt (t % Config.R_MONT * montPrime m) hR) (show 0 < m by omega)
    refine Nat.lt_of_mul_lt_mul_left (a := Config.R_MONT) ?_
    rw [← hu]
    linarith
  have hmod : u * Config.R_MONT ≡ t [MOD m] := by
    rw [mul_comm, ← hu]
    exact Nat.add_mul_mod_self_right t _ m
  rw [redc, hu, Nat.mul_div_cancel_left u hR]
  split_ifs with hge
  · have hsub : u - m ≡ u [MOD m] := (Nat.mod_eq_sub_mod hge).symm
    exact ⟨by omega, (hsub.mul_right _).trans hmod⟩
  · exact ⟨by omega, hmod⟩

/-- What is divided by `R` is known from its product with `R`. -/
theorem redc_eq {t v : Nat} (ht : t < m * Config.R_MONT) (h : t ≡ v * Config.R_MONT [MOD m]) : redc m t = v % m := by
  obtain ⟨hlt, hmul⟩ := redc_spec hodd ht
  have hmod : redc m t ≡ v [MOD m] := Nat.ModEq.cancel_right_of_coprime (coprime_R_MONT hodd) (hmul.trans h)
  rw [← Nat.mod_eq_of_lt hlt]
  exact hmod

end Redc

/-! ## Products and conversions (R161) -/

section Products
variable {m x y : Nat} (hodd : m % 2 = 1) (hm : m < Config.R_MONT) (hx : x < m)
include hodd hm hx

theorem montMul_eq (hy : y ≤ m) {v : Nat} (h : x * y ≡ v * Config.R_MONT [MOD m]) : montMul m x y = v % m :=
  redc_eq hodd (by nlinarith) h

theorem montMul_spec (hy : y < m) : montMul m x y < m ∧ montMul m x y * Config.R_MONT ≡ x * y [MOD m] :=
  redc_spec hodd (by nlinarith)

/-- Conversion in: a product with `R²` divided by `R`. -/
theorem montMul_R2 {v : Nat} (h : x * Config.R_MONT ≡ v [MOD m]) : montMul m x (montR2 m) = v % m := by
  refine montMul_eq hodd hm hx (Nat.mod_lt _ (by omega)).le ?_
  calc x * montR2 m ≡ x * (Config.R_MONT * Config.R_MONT) [MOD m] := (Nat.mod_modEq _ _).mul_left x
    _ = x * Config.R_MONT * Config.R_MONT := (mul_assoc _ _ _).symm
    _ ≡ v * Config.R_MONT [MOD m] := h.mul_right _

theorem toMont_eq : montMul m x (montR2 m) = x * Config.R_MONT % m := montMul_R2 hodd hm hx rfl

/-- Conversion out. -/
theorem montMul_one {v : Nat} (h : x ≡ v * Config.R_MONT [MOD m]) : montMul m x 1 = v % m :=
  montMul_eq hodd hm hx (by omega) (by rwa [mul_one])

end Products

section Forms
variable {m x y : Nat} (hodd : m % 2 = 1) (hm : m < Config.R_MONT) (hx : x < m)
include hodd hm hx

theorem fromMont_toMont : montMul m (montMul m x (montR2 m)) 1 = x := by
  have hlt : ∀ v, v % m < m := fun v => Nat.mod_lt v (by omega)
  rw [toMont_eq hodd hm hx, montMul_one hodd hm (hlt _) (Nat.mod_modEq _ _), Nat.mod_eq_of_lt hx]

variable (hy : y < m)
include hy

/-- The two-multiplication form. -/
theorem montMul_montMul_R2 : montMul m (montMul m x y) (montR2 m) = x * y % m := by
  obtain ⟨hlt, hmul⟩ := montMul_spec hodd hm hx hy
  exact montMul_R2 hodd hm hlt hmul

/-- The converted form. -/
theorem montMul_converted :
    montMul m (montMul m (montMul m x (montR2 m)) (montMul m y (montR2 m))) 1 = x * y % m := by
  have hlt : ∀ v, v % m < m := fun v => Nat.mod_lt v (by omega)
  have hproduct : x * Config.R_MONT % m * (y * Config.R_MONT % m) ≡ x * y * Config.R_MONT * Config.R_MONT [MOD m] :=
    calc x * Config.R_MONT % m * (y * Config.R_MONT % m)
        ≡ x * Config.R_MONT * (y * Config.R_MONT) [MOD m] := (Nat.mod_modEq _ _).mul (Nat.mod_modEq _ _)
      _ = x * y * Config.R_MONT * Config.R_MONT := by ring
  rw [toMont_eq hodd hm hx, toMont_eq hodd hm hy, montMul_eq hodd hm (hlt _) (hlt _).le hproduct]
  exact montMul_one hodd hm (hlt _) (Nat.mod_modEq _ _)

end Forms

/-! ## The statement -/

/-- Settles O57: each form is a residue below `m`, so its product with a power of `R` fixes it; an even modulus takes the
plain path. -/
theorem montgomeryRefines : Obligations.MontgomeryRefines := by
  refine ⟨fun m x y hodd hm hx hy => ?_, fun m x y _ hm hx hy => ?_⟩
  · obtain ⟨hlt, hmul⟩ := montMul_spec hodd hm hx hy
    exact ⟨hlt, hmul, toMont_eq hodd hm hx, fromMont_toMont hodd hm hx, (montMul_montMul_R2 hodd hm hx hy).symm,
      (montMul_converted hodd hm hx hy).symm⟩
  · by_cases hodd : m % 2 = 1
    · exact (if_pos hodd).trans (montMul_converted hodd hm hx hy)
    · exact if_neg hodd

end Sys2Proof.Machine
end

section
/-! PROOFS. The words of the window: the fields of `STATUS`, `CTRL` and `RTAG` (10_state.md R42, R43, R46), read off their
values as numbers, and what an idle read of each mapped word returns (20_memory.md R61, R62). -/

namespace Sys2Proof.Machine

/-! ## Fields of a word -/

section Fields
variable {w : HWord} {i k : Nat}

theorem getLsbD_eq_of_div_mod {b : Bool} (h : w.toNat / 2 ^ i % 2 = b.toNat) : w.getLsbD i = b := by
  rw [BitVec.getLsbD, Nat.testBit_eq_decide_div_mod_eq, h]
  cases b <;> rfl

theorem extractLsb'_eq_of_div_mod {v : BitVec k} (h : w.toNat / 2 ^ i % 2 ^ k = v.toNat) : w.extractLsb' i k = v :=
  BitVec.eq_of_toNat_eq (by rw [BitVec.extractLsb'_toNat, Nat.shiftRight_eq_div_pow, h])

theorem extractLsb'_eq_zero_of_div_mod (h : w.toNat / 2 ^ i % 2 ^ k = 0) : w.extractLsb' i k = 0 :=
  extractLsb'_eq_of_div_mod (h.trans BitVec.toNat_zero.symm)

end Fields

/-! ## `STATUS` and `CTRL` -/

theorem State.toNat_statusWord (s : State) : s.statusWord.toNat = s.busy.toNat + 2 * s.done.toNat + 4 * s.err.toNat +
    8 * s.t.toNat + 16 * s.key.valid.toNat + 256 * s.errcode.toNat := by
  have h1 := s.busy.toNat_lt
  have h2 := s.done.toNat_lt
  have h3 := s.err.toNat_lt
  have h4 := s.t.toNat_lt
  have h5 := s.key.valid.toNat_lt
  have h6 := s.errcode.isLt
  rw [State.statusWord, BitVec.toNat_ofNat, Nat.mod_eq_of_lt (by omega)]

theorem State.toNat_ctrlWord (s : State) : s.ctrlWord.toNat = s.ie.toNat := by
  have h := s.ie.toNat_lt
  rw [State.ctrlWord, BitVec.toNat_ofNat, Nat.mod_eq_of_lt (by omega)]

/-! ## `RTAG` (R46) -/

theorem Tag.code_lt (t : Tag) : t.code < 4 := by
  cases t <;> decide

/-- The tag codes of a list of registers, the first in the lowest two bits. -/
def tagCodes (l : List Reg) : Nat := l.foldr (fun r acc => r.tag.code + 4 * acc) 0

theorem State.rtagWord_eq (s : State) : s.rtagWord = BitVec.ofNat 32 (tagCodes s.regs.toList) := rfl

theorem tagCodes_cons (r : Reg) (l : List Reg) : tagCodes (r :: l) = r.tag.code + 4 * tagCodes l := rfl

theorem tagCodes_lt : ∀ l : List Reg, tagCodes l < 4 ^ l.length
  | [] => by decide
  | r :: l => by
    have hcode := r.tag.code_lt
    have ih := tagCodes_lt l
    rw [tagCodes_cons, List.length_cons, pow_succ]
    omega

theorem tagCodes_div_mod : ∀ (l : List Reg) (i : Nat) (h : i < l.length), tagCodes l / 4 ^ i % 4 = l[i].tag.code
  | r :: l, 0, _ => by
    have hcode := r.tag.code_lt
    rw [tagCodes_cons, List.getElem_cons_zero]
    omega
  | r :: l, i + 1, h => by
    have hcode := r.tag.code_lt
    rw [List.getElem_cons_succ, ← tagCodes_div_mod l i (Nat.lt_of_succ_lt_succ h), tagCodes_cons, pow_succ',
      ← Nat.div_div_eq_div_mul, show (r.tag.code + 4 * tagCodes l) / 4 = tagCodes l by omega]

theorem State.toNat_rtagWord (s : State) : s.rtagWord.toNat = tagCodes s.regs.toList := by
  have h := tagCodes_lt s.regs.toList
  rw [Vector.length_toList, show 4 ^ 16 = 2 ^ 32 by decide] at h
  rw [State.rtagWord_eq, BitVec.toNat_ofNat, Nat.mod_eq_of_lt h]

theorem State.rtagWord_field (s : State) (i : RIdx) :
    s.rtagWord.extractLsb' (2 * i.val) 2 = BitVec.ofNat 2 (s.tag i).code := by
  apply extractLsb'_eq_of_div_mod
  rw [State.toNat_rtagWord, pow_mul, BitVec.toNat_ofNat, Nat.mod_eq_of_lt (Tag.code_lt _)]
  exact tagCodes_div_mod s.regs.toList i.val (by rw [Vector.length_toList]; exact i.isLt)

/-! ## Reads of points and of `MSG` (R62, R71) -/

section Reads
variable {s : State} (hidle : s.busy = false)
include hidle

theorem busStep_read_ptX (j : PIdx) (w : Fin 8) :
    busStep s (.read (ptOffset j (4 * w.val)) 4) = s.respond (.data (wordOf (s.pt j).coordX w)) :=
  busStep_read (locAt_ptX j w) (.inl hidle)

theorem busStep_read_ptY (j : PIdx) (w : Fin 8) :
    busStep s (.read (ptOffset j (0x20 + 4 * w.val)) 4) = s.respond (.data (wordOf (s.pt j).coordY w)) :=
  busStep_read (locAt_ptY j w) (.inl hidle)

theorem busStep_read_ptInf (j : PIdx) :
    busStep s (.read (ptOffset j 0x40) 4) = s.respond (.data (s.pt j).infWord) :=
  busStep_read (locAt_ptInf j) (.inl hidle)

end Reads

theorem wordOf_zero (w : Fin 8) : wordOf 0 w = 0 := by
  simp [wordOf]

theorem byteOfWord_msgWord (s : State) (q : Fin 64) (k : Fin 4) :
    byteOfWord (s.msgWord q) k = s.msgByte (4 * q.val + k.val) := by
  rw [State.msgWord, byteOfWord_wordOfBytes]
  match k with
  | 0 | 1 | 2 | 3 => rfl

/-! ## The statements -/

/-- Settles O52: each word is a sum of its fields at their weights. -/
theorem statusWords : Obligations.StatusWords := by
  intro s
  have hstatus := s.toNat_statusWord
  have hctrl := s.toNat_ctrlWord
  have h1 := s.busy.toNat_lt
  have h2 := s.done.toNat_lt
  have h3 := s.err.toNat_lt
  have h4 := s.t.toNat_lt
  have h5 := s.key.valid.toNat_lt
  have h6 := s.errcode.isLt
  have h7 := s.ie.toNat_lt
  refine ⟨getLsbD_eq_of_div_mod ?_, getLsbD_eq_of_div_mod ?_, getLsbD_eq_of_div_mod ?_, getLsbD_eq_of_div_mod ?_,
    getLsbD_eq_of_div_mod ?_, extractLsb'_eq_zero_of_div_mod ?_, extractLsb'_eq_of_div_mod ?_,
    extractLsb'_eq_zero_of_div_mod ?_, getLsbD_eq_of_div_mod ?_, extractLsb'_eq_zero_of_div_mod ?_, fun i => ?_,
    Bool.and_eq_true_iff⟩
  case refine_11 =>
    rw [s.rtagWord_field i]
    cases s.tag i <;> rfl
  all_goals omega

/-- Settles O45: the map leads each offset to its word, and an idle block serves every read. -/
theorem idleReads : Obligations.IdleReads := by
  refine fun s hidle => ⟨busStep_read (l := .id) rfl (.inl hidle), busStep_read (l := .cmd) rfl (.inl hidle),
    busStep_read (l := .status) rfl (.inl hidle), busStep_read (l := .ctrl) rfl (.inl hidle),
    busStep_read (l := .msgLen) rfl (.inl hidle), busStep_read (l := .errcmd) rfl (.inl hidle),
    busStep_read (l := .rtag) rfl (.inl hidle), fun c w => busStep_read (locAt_cfg c w) (.inl hidle),
    fun i w => busStep_read (locAt_reg i w) (.inl hidle), fun j w hj => ?_, fun j w x y hj => ?_,
    fun q => ⟨_, busStep_read (locAt_msg q) (.inl hidle), byteOfWord_msgWord s q⟩⟩
  · rw [busStep_read_ptX hidle, busStep_read_ptY hidle, busStep_read_ptInf hidle, hj]
    exact ⟨congrArg _ (congrArg _ (wordOf_zero w)), congrArg _ (congrArg _ (wordOf_zero w)), rfl⟩
  · rw [busStep_read_ptX hidle, busStep_read_ptY hidle, busStep_read_ptInf hidle, hj]
    exact ⟨rfl, rfl, rfl⟩

end Sys2Proof.Machine
end
